-- ==== Sys2Proof/Word.lean ====
section
/-! DEFINITION. The word types of the engine (00_scope.md R8): bytes, the two header fields, window addresses. -/

namespace Sys2Proof

/-- One byte: the unit of every memory access (R60). -/
abbrev Byte := BitVec 8

/-- A header field, `DEC.outLen`, `DEC.version`, `ENC.N` (R22, R29, R32). -/
abbrev Word32 := BitVec 32

/-- A window address (R24, R25, R64): addition wraps modulo 1024. -/
abbrev Addr10 := BitVec 10

end Sys2Proof
end

