-- ==== Sys2Proof/Machine/Constants.lean ====
section
/-! DEFINITION. The fixed constants of the format and the engine (00_scope.md R6); none is tunable. -/

namespace Sys2Proof.Machine

/-- `WIN`: window size in bytes (R6). -/
abbrev windowSize : Nat := 1024

/-- `MINMATCH`: the encoder emits a match only of at least this length (R6, R240). -/
abbrev minMatch : Nat := 3

/-- `DECMAXMATCH`: the largest length a match token can have (R6, R97). -/
abbrev decMaxMatch : Nat := 66

/-- `ENCMAXMATCH`: the cap of the encoder's search (R6, R213, C1, D7). -/
abbrev encMaxMatch : Nat := 64

/-- `BIAS`: added on decode, subtracted on encode (R6, R128). -/
abbrev offsetBias : Nat := 66

/-- `GROUP`: tokens governed by one control byte (R6). -/
abbrev groupSize : Nat := 8

/-- `HDRLEN`: header length in bytes (R6). -/
abbrev headerLength : Nat := 8

/-- `VERSION`: the only legal `formatVersion` (R6). -/
abbrev formatVersionOne : Word32 := 1#32

end Sys2Proof.Machine
end

