-- ==== Sys2Proof/Config.lean ====
section
/-! DEFINITION. The open parameters of the engine (00_scope.md R7), and the free values: what the two temporaries of the
encoder's search hold between searches (log entry 8). -/

namespace Sys2Proof

/-- The open parameters that the model takes as arguments (R7, D11, D20, D22). The first two are 32-bit, so both are
at most 2^32 - 1. -/
structure Config where
  /-- `DEC_MAX_OUT`: the largest `uncompressedLength` the decoder accepts (R7, D22). -/
  decMaxOut : Word32
  /-- `ENC_MAX_IN`: the largest input length the encoder accepts (R7, D11). -/
  encMaxIn : Word32
  /-- `N_INST`: the number of independent instances, at least 1; it changes no rule (R7, R281, D20). -/
  nInst : { n : Nat // 1 ≤ n }
  deriving DecidableEq, Repr

/-- Free value (DESIGN CHOICE, safe, log entry 8): `ENC.n` after the search of position `sp` of an input of `n` bytes in
`src`. R36 gives its range and calls it not observable; R215 lets a search visit the candidates in any order. -/
opaque Config.freeCandidate (src : List Host.Cell) (n sp : Nat) : Fin 1025

/-- Free value (DESIGN CHOICE, safe, log entry 8): `ENC.curLen` after the same search, in the range of R36. -/
opaque Config.freeRunLength (src : List Host.Cell) (n sp : Nat) : Fin 65

/-- The defaults of R7; one instance (DESIGN CHOICE, unsafe, log entry 5: R7 gives `N_INST` no default). -/
def Config.default : Config := { decMaxOut := 0xFFFFFFFF#32, encMaxIn := 0xFFFFFFFF#32, nInst := ⟨1, Nat.le_refl 1⟩ }

end Sys2Proof
end

