-- ==== Sys2Proof/Machine/State.lean ====
section
/-! DEFINITION. The state of the machine, as plain data (10_state.md R20 to R59), and its reset value (R54, R290). -/

namespace Sys2Proof.Machine

open Sys2Proof

/-- The contents of a memory space: address and byte, addresses rising, nothing listed that an unlisted address
reads as. -/
abbrev Memory := List Host.Cell

/-- The byte memories of the engine (R40 to R43). -/
inductive Space where
  /-- `IN`, the decoder's input buffer (R40). -/
  | input
  /-- `OUT`, the decoder's output buffer (R41). -/
  | output
  /-- `WINDOW`, the decoder's dictionary (R42). -/
  | window
  /-- `SRC`, the encoder's input buffer (R43). -/
  | source
  deriving DecidableEq, Repr

/-- What an unlisted address of a space reads as. `WINDOW` is zero-seeded (R42, R121). `OUT` holds no specified
value before it is written (R41, D12; log entry 3, safe). `IN` and `SRC` are whatever the host presents: a zero byte
of a buffer is not listed, and addresses past the buffer's length are never read as values (R40; log entry 4). -/
def Space.unlisted : Space → Option Byte
  | .input => some 0#8
  | .output => none
  | .window => some 0#8
  | .source => some 0#8

/-- The canonical form of a memory: addresses strictly rising, and no entry equal to what an unlisted address reads
as. -/
abbrev Memory.wf (sp : Space) (m : Memory) : Prop :=
  m.Pairwise (fun x y => x.1 < y.1) ∧ ∀ c ∈ m, sp.unlisted ≠ some c.2

/-- `DEC.phase` (R30). -/
inductive DecPhase where
  | idle | hdr | ctrl | token | copy | done | fault
  deriving DecidableEq, Repr

/-- `ENC.phase` (R38). -/
inductive EncPhase where
  | idle | hdr | search | emit | final | done
  deriving DecidableEq, Repr

/-- `DEC.STATUS.cause` (R47, R260): the fault kinds of a decode call. A call's fault is taken as a state
(R264), it does not stop the machine. -/
inductive Cause where
  /-- No fault (cause 0). -/
  | noFault
  /-- `FormatError` (cause 1): `formatVersion` is not 1. -/
  | formatError
  /-- `TruncatedStreamError` (cause 2): a byte of `IN` is needed and there is none. -/
  | truncatedStream
  /-- `OutputOverrun` (cause 3): a match has bytes left and the output is full. -/
  | outputOverrun
  deriving DecidableEq, Repr

/-- The `state` field of a status register (R47, R49). -/
inductive CallState where
  | idle | busy | done | fault
  deriving DecidableEq, Repr

/-- The decoder engine (R21 to R30, R40 to R42, R47, R48). -/
structure Dec where
  /-- Which step rule applies (R30). -/
  phase : DecPhase
  /-- Input cursor, the decoder's program counter (R21, R55). -/
  ip : Nat
  /-- Declared output length (R22). -/
  outLen : Word32
  /-- `formatVersion` as read (R29). -/
  version : Word32
  /-- Output write cursor (R23). -/
  op : Nat
  /-- Window write cursor (R24). -/
  wp : Addr10
  /-- Window read position of the match in progress (R25). -/
  rp : Addr10
  /-- Control-byte shift register; bit 0 is the next token's flag (R26). -/
  ctrl : Byte
  /-- Flags of `ctrl` not consumed yet, 0..8 (R27). -/
  bits : BitVec 4
  /-- Bytes of the match still to copy, 0..66 (R28). -/
  cnt : BitVec 7
  /-- First payload byte of the match being decoded (R29). -/
  b1 : Byte
  /-- Second payload byte of the match being decoded (R29). -/
  b2 : Byte
  /-- `DEC.STATUS.cause` (R47). -/
  cause : Cause
  /-- `DEC.FAULT_IP` (R48). -/
  faultIp : Nat
  /-- `DEC.FAULT_OP` (R48). -/
  faultOp : Nat
  /-- Length of the input buffer (R40). -/
  inLen : Nat
  /-- `IN` (R40). -/
  input : Memory
  /-- `OUT` (R41). -/
  output : Memory
  /-- `WINDOW` (R42). -/
  window : Memory
  deriving DecidableEq, Repr

/-- The encoder engine (R31 to R38, R43 to R45). -/
structure Enc where
  /-- Which step rule applies (R38). -/
  phase : EncPhase
  /-- Source cursor, an index into `W` (R31). -/
  sp : Nat
  /-- `ENC.N`, the input length (R32). -/
  inLen : Word32
  /-- Control-byte accumulator (R33). -/
  acc : Byte
  /-- Tokens in the open group, 0..8 (R34). -/
  g : BitVec 4
  /-- Payload bytes of the open group (R35). -/
  gbuf : List Byte
  /-- Candidate offset of the search, 0..1024 (R36). -/
  n : BitVec 11
  /-- Length reached at the candidate, 0..64 (R36). -/
  curLen : BitVec 7
  /-- Longest length found, 0..64 (R37). -/
  bestLen : BitVec 7
  /-- Its candidate offset (R37). -/
  bestOff : Addr10
  /-- `SRC` (R43). -/
  source : Memory
  /-- `STREAM`, the bytes appended so far, address 0 first (R45). -/
  stream : List Byte
  deriving DecidableEq, Repr

/-- A command of the host (R50). -/
inductive Command where
  /-- `DEC.START(IN, inLen)`: the buffer is given whole, `inLen` is its length (R300). -/
  | decStart (frame : List Byte)
  /-- `ENC.START(SRC, N)`: `N` is the buffer's length (R292). -/
  | encStart (src : List Byte)
  /-- `ABORT` of the decoder. -/
  | decAbort
  /-- `ABORT` of the encoder. -/
  | encAbort
  deriving DecidableEq, Repr

/-- The two engines (R3). -/
inductive Engine where
  | dec | enc
  deriving DecidableEq, Repr

/-- Why something is given no meaning. All but the first are calls that the spec refuses (R50, R162, R302): the engine
of the call is marked (`decRefused`, `encRefused`) and takes no step, the other engine goes on (R281), and the machine
answers the refusal only at a turn of the refused engine with no step of the other to pass to (log entry 7). Safe:
nothing is said of a refused call. -/
inductive Refusal where
  /-- An instruction of the table without a meaning; no arm of `exec` answers this. Safe. -/
  | notModelled (mnemonic : String)
  /-- Recorded by `HDR` when `uncompressedLength` exceeds `DEC_MAX_OUT` (R162 sub-step 6, D22). Safe. -/
  | declaredLengthTooLarge (length : Word32)
  /-- Recorded by a start while the engine is BUSY (R50, D14). Safe. -/
  | startWhileBusy (engine : Engine)
  /-- Recorded by `ENC.START` with an input longer than `ENC_MAX_IN` (R302, D11). Safe. -/
  | inputTooLong (length : Nat)
  deriving DecidableEq, Repr

/-- The whole machine: one instance (R281). -/
structure State where
  /-- The decoder engine. -/
  dec : Dec
  /-- The encoder engine. -/
  enc : Enc
  /-- Host commands that have arrived and have not been performed; the model's own (log entry 1). -/
  pending : List Command
  /-- Which engine moves next; the model's own (log entry 1). -/
  turn : Engine
  /-- The call of the decoder that was refused, until a start of the decoder is accepted or it is aborted; the model's
  own (log entry 7). -/
  decRefused : Option Refusal
  /-- The call of the encoder that was refused, until a start of the encoder is accepted or it is aborted; the model's
  own (log entry 7). -/
  encRefused : Option Refusal
  /-- The open parameters (R7); no step writes them (log entry 5). -/
  cfg : Config
  deriving DecidableEq, Repr

/-- Why the machine stops. Both reasons are safe (log entry 6): the spec says the address does not exist, and no
state of a call reaches such an access. -/
inductive Fault where
  /-- Raised by a literal or a copy step whose output cursor is past `OUT`: "A write past the end of `OUT` has no
  meaning" (R41, R263). Safe. -/
  | outAddress (a : Nat)
  /-- Raised by the encoder's literal at an index past `W` (R44). Safe. -/
  | workAddress (a : Nat)
  deriving DecidableEq, Repr

/-- The decoder after reset (R54, R290); no buffer is presented (log entry 4). -/
def Dec.reset : Dec :=
  { phase := .idle, ip := 0, outLen := 0#32, version := 0#32, op := 0, wp := 0#10, rp := 0#10, ctrl := 0#8,
    bits := 0#4, cnt := 0#7, b1 := 0#8, b2 := 0#8, cause := .noFault, faultIp := 0, faultOp := 0, inLen := 0,
    input := [], output := [], window := [] }

/-- The encoder after reset (R54, R290); no buffer is presented (log entry 4). -/
def Enc.reset : Enc :=
  { phase := .idle, sp := 1024, inLen := 0#32, acc := 0#8, g := 0#4, gbuf := [], n := 0#11, curLen := 0#7,
    bestLen := 0#7, bestOff := 0#10, source := [], stream := [] }

/-- The machine right after reset (R54, R290): both engines idle, nothing asked of them yet (log entry 1)
and nothing refused (log entry 7). -/
def State.reset : State :=
  { dec := Dec.reset, enc := Enc.reset, pending := [], turn := .dec, decRefused := none,
    encRefused := none, cfg := Config.default }

end Sys2Proof.Machine
end

