-- ==== Sys2Proof/Machine/Flags.lean ====
section
/-! DEFINITION. The only flag-like state (10_state.md R56): the token flags, read and shifted by the decoder, built by
the encoder (41_control_byte.md R140 to R150), and the `state` and `cause` fields of the status registers (R47, R49). -/

namespace Sys2Proof.Machine

open Sys2Proof

/-- `FLAG`: the flag of the token about to be decoded, true for a literal (R142). -/
def Dec.flag (d : Dec) : Bool := d.ctrl.getLsbD 0

/-- `CTRL_SHIFT` (R143): logical shift, and one flag fewer. -/
def Dec.ctrlShift (d : Dec) : Dec := { d with ctrl := d.ctrl >>> 1, bits := d.bits - 1#4 }

/-- The flag of token `j` of a group whose control byte is `c`: lane `j` (R140, R144). -/
def laneFlag (c : Byte) (j : Nat) : Bool := c.getLsbD j

/-- Where the payload of token `j` starts, in bytes after the control byte's own address (R144). -/
def payloadStart (c : Byte) : Nat → Nat
  | 0 => 1
  | j + 1 => payloadStart c j + (if laneFlag c j then 1 else 2)

/-- `ACC_SHIFT_IN` (R146): shift right, set the top bit for a literal, count the token. -/
def Enc.accShiftIn (e : Enc) (isLit : Bool) : Enc :=
  { e with acc := if isLit then (e.acc >>> 1) ||| 0x80#8 else e.acc >>> 1, g := e.g + 1#4 }

/-- `GROUP_CLOSE` (R148): the control byte, then the payloads, then a new group. -/
def Enc.groupClose (e : Enc) : Enc :=
  { e with stream := e.stream ++ e.acc :: e.gbuf, acc := 0#8, g := 0#4, gbuf := [] }

/-- `FINAL_CLOSE` (R149): nothing for an empty group, else the alignment shifts and a close. -/
def Enc.finalClose (e : Enc) : Enc :=
  if e.g = 0#4 then e else Enc.groupClose { e with acc := e.acc >>> (groupSize - e.g.toNat) }

/-- The `state` field of `DEC.STATUS` (R47). -/
def Dec.callState (d : Dec) : CallState :=
  match d.phase with
  | .idle => .idle
  | .hdr => .busy
  | .ctrl => .busy
  | .token => .busy
  | .copy => .busy
  | .done => .done
  | .fault => .fault

/-- The `state` field of `ENC.STATUS` (R49). -/
def Enc.callState (e : Enc) : CallState :=
  match e.phase with
  | .idle => .idle
  | .hdr => .busy
  | .search => .busy
  | .emit => .busy
  | .final => .busy
  | .done => .done

/-- The number of a `state` value (R47). -/
def CallState.code : CallState → BitVec 2
  | .idle => 0#2
  | .busy => 1#2
  | .done => 2#2
  | .fault => 3#2

/-- The number of a cause (R47, R260, D6). -/
def Cause.code : Cause → BitVec 2
  | .noFault => 0#2
  | .formatError => 1#2
  | .truncatedStream => 2#2
  | .outputOverrun => 3#2

/-- `DEC.STATUS`: `cause` in bits 3:2, `state` in bits 1:0 (R47). -/
def Dec.status (d : Dec) : BitVec 4 := (d.cause.code.setWidth 4 <<< 2) ||| d.callState.code.setWidth 4

/-- `ENC.STATUS`: `state` in bits 1:0 (R49). -/
def Enc.status (e : Enc) : BitVec 2 := e.callState.code

end Sys2Proof.Machine
end

