-- ==== Sys2Proof/Syntax.lean ====
section
/-! DEFINITION. The four elements of the wire format (30_encoding.md R90 to R96, R108), one constructor per row of the
element table, and the position that tells the decoder which element comes next (R91, R99). -/

namespace Sys2Proof

/-- An element of the frame. -/
inductive Instr where
  /-- `HDR`, format H (R93). -/
  | hdr (uncompressedLength formatVersion : Word32)
  /-- `CTRL`, format C (R94): bit `i` is the flag of token `i`, 1 literal, 0 match. -/
  | ctrl (flags : Byte)
  /-- `LIT`, format L (R95). -/
  | lit (d : Byte)
  /-- `MATCH`, format M (R96): raw offset `{offHi, offLo}`, length `lencode + 3`. -/
  | matchTok (offLo : Byte) (offHi : BitVec 2) (lencode : BitVec 6)
  deriving DecidableEq, Repr

/-- What selects the format of the next element: its place in the frame and, for a token, its flag (R91, R99). -/
inductive Position where
  /-- Addresses 0..7 of the frame. -/
  | header
  /-- The first byte of a group. -/
  | groupHead
  /-- A token whose flag is 1 (`literal = true`) or 0. -/
  | token (literal : Bool)
  deriving DecidableEq, Repr

end Sys2Proof
end

