-- ==== Sys2Proof/WellFormed.lean ====
section
/-! DEFINITION. Which elements are legal (30_encoding.md R100, R101). -/

namespace Sys2Proof

/-- The only structural check of the format: `formatVersion` equals 1 (R100). Every other bit pattern is legal
(R101); that fields fit their widths is in their types. -/
def Instr.wellFormed : Instr → Bool
  | .hdr _ formatVersion => formatVersion == 1#32
  | .ctrl _ => true
  | .lit _ => true
  | .matchTok _ _ _ => true

end Sys2Proof
end

