-- ==== Sys2Proof/Decode.lean ====
section
/-! DEFINITION. The decoder of elements, total on any bytes and rejecting by name, the encoder, and the element
table's word convention (30_encoding.md R91 to R101, 20_memory.md R65 to R68). -/

namespace Sys2Proof

/-- Four bytes, the one at the lowest address first, as a big-endian number (R66). -/
def be32 (b0 b1 b2 b3 : Byte) : Word32 :=
  (b0.setWidth 32 <<< 24) ||| (b1.setWidth 32 <<< 16) ||| (b2.setWidth 32 <<< 8) ||| b3.setWidth 32

/-- The four bytes of a big-endian field, in address order (R66). -/
def be32Bytes (v : Word32) : List Byte :=
  [v.extractLsb' 24 8, v.extractLsb' 16 8, v.extractLsb' 8 8, v.extractLsb' 0 8]

/-- Why bytes are no element. -/
inductive DecodeError where
  /-- Fewer bytes than the element has (R62). -/
  | truncated
  /-- A header whose version is not 1 (R100). -/
  | illegalVersion (v : Word32)
  deriving DecidableEq, Repr

/-- The number of bytes of `IN` an element takes (R91). -/
def Position.byteLength : Position → Nat
  | .header => 8
  | .groupHead => 1
  | .token true => 1
  | .token false => 2

/-- The format-H fields out of the eight header bytes (R93); any version but 1 is illegal (R100). -/
def decodeHeader : List Byte → Except DecodeError (Instr × List Byte)
  | b0 :: b1 :: b2 :: b3 :: b4 :: b5 :: b6 :: b7 :: rest =>
    if be32 b4 b5 b6 b7 = 1#32 then .ok (.hdr (be32 b0 b1 b2 b3) (be32 b4 b5 b6 b7), rest)
    else .error (.illegalVersion (be32 b4 b5 b6 b7))
  | _ => .error .truncated

/-- Format C: the byte is the eight flags (R94). -/
def decodeControl : List Byte → Except DecodeError (Instr × List Byte)
  | c :: rest => .ok (.ctrl c, rest)
  | [] => .error .truncated

/-- Format L: the byte is the output byte (R95). -/
def decodeLiteral : List Byte → Except DecodeError (Instr × List Byte)
  | d :: rest => .ok (.lit d, rest)
  | [] => .error .truncated

/-- Format M: `b1` is `off_lo`, `b2[7:6]` is `off_hi`, `b2[5:0]` is `lencode` (R96, R67). -/
def decodeMatch : List Byte → Except DecodeError (Instr × List Byte)
  | b1 :: b2 :: rest => .ok (.matchTok b1 (b2.extractLsb' 6 2) (b2.extractLsb' 0 6), rest)
  | _ => .error .truncated

/-- The element at a position, and the bytes after it (R90, R91). -/
def decode : Position → List Byte → Except DecodeError (Instr × List Byte)
  | .header, bytes => decodeHeader bytes
  | .groupHead, bytes => decodeControl bytes
  | .token true, bytes => decodeLiteral bytes
  | .token false, bytes => decodeMatch bytes

/-- Where an element stands in a frame (R91). -/
def Instr.position : Instr → Position
  | .hdr _ _ => .header
  | .ctrl _ => .groupHead
  | .lit _ => .token true
  | .matchTok _ _ _ => .token false

/-- The second payload byte of a match (R96). -/
def matchSecondByte (offHi : BitVec 2) (lencode : BitVec 6) : Byte :=
  (offHi.setWidth 8 <<< 6) ||| lencode.setWidth 8

/-- The bytes of an element as they stand in the stream (R93 to R96). -/
def encode : Instr → List Byte
  | .hdr uncompressedLength formatVersion => be32Bytes uncompressedLength ++ be32Bytes formatVersion
  | .ctrl flags => [flags]
  | .lit d => [d]
  | .matchTok offLo offHi lencode => [offLo, matchSecondByte offHi lencode]

/-- The `MATCH` element of a raw offset and a length code (R96). -/
def Instr.ofOffset (rawOffset : BitVec 10) (lencode : BitVec 6) : Instr :=
  .matchTok (rawOffset.extractLsb' 0 8) (rawOffset.extractLsb' 8 2) lencode

/-- The element table's word of an element (R92): the flag, where there is one, above the payload bytes. -/
def Instr.tableWord : Instr → Nat
  | .hdr uncompressedLength formatVersion => (uncompressedLength ++ formatVersion).toNat
  | .ctrl flags => flags.toNat
  | .lit d => (1#1 ++ d).toNat
  | .matchTok offLo offHi lencode => (0#1 ++ offLo ++ matchSecondByte offHi lencode).toNat

/-- Which row of the element table a word of `nbits` bits, in whole bytes, belongs to (R92, R108): 64 bits a header,
8 a control byte, 9 a literal, 17 a match; for a token the flag is the word's top bit. -/
def tablePosition (nbits w : Nat) : Position :=
  if nbits ≤ 8 then .groupHead
  else if nbits ≤ 16 then .token (w.testBit 8)
  else if nbits ≤ 24 then .token (w.testBit 16)
  else .header

/-- The bytes of the stream that a table word stands for (R92): the flag is not in the stream, and the first byte of
the stream is the most significant payload byte of the word. -/
def tableBytes (nbits w : Nat) : List Byte :=
  if nbits ≤ 8 then [BitVec.ofNat 8 w]
  else if nbits ≤ 16 then [BitVec.ofNat 8 w]
  else if nbits ≤ 24 then [BitVec.ofNat 8 (w >>> 8), BitVec.ofNat 8 w]
  else be32Bytes (BitVec.ofNat 32 (w >>> 32)) ++ be32Bytes (BitVec.ofNat 32 w)

/-- The element the decoder reads from a word of the element table; none where it refuses, or where the word's flag
does not match its row. -/
def decodeTableWord (nbits w : Nat) : Option Instr :=
  match decode (tablePosition nbits w) (tableBytes nbits w) with
  | .ok (i, []) => some i
  | .ok (_, _ :: _) => none
  | .error _ => none

end Sys2Proof
end

