-- ==== Sys2Proof/Machine/Operands.lean ====
section
/-! DEFINITION. Field assembly of the match token, on both sides, and the offset-bias arithmetic (30_encoding.md R97,
R98; 43_decoder_tokens.md R184, R185; 45_encoder_emit.md R243, R250; 40_window.md R127). -/

namespace Sys2Proof.Machine

open Sys2Proof

/-- `rawOffset = {off_hi, off_lo}` (R96, R97). -/
def rawOffset (offLo : Byte) (offHi : BitVec 2) : Addr10 := (offHi.setWidth 10 <<< 8) ||| offLo.setWidth 10

/-- `length = zext(lencode) + 3`, 3..66, in the 7 bits of `DEC.cnt` (R97, R28). -/
def matchLength (lencode : BitVec 6) : BitVec 7 := lencode.setWidth 7 + BitVec.ofNat 7 minMatch

/-- `readPos = (rawOffset + 66) mod 1024` (R185). -/
def readPosition (raw : Addr10) : Addr10 := BitVec.ofNat 10 (raw.toNat + offsetBias)

/-- `offset = (matchOffset + wo - 66) mod 1024` with floor modulo (R98, R243, R9): the exact integer, reduced. -/
def emittedOffset (bestOff : Addr10) (wo : Nat) : Addr10 :=
  BitVec.ofInt 10 ((bestOff.toNat : Int) + (wo : Int) - (offsetBias : Int))

/-- `lengthCode = (matchLength - 3) & 0x3F` (R98, R243). -/
def lengthCode (bestLen : BitVec 7) : BitVec 6 := BitVec.ofNat 6 (bestLen.toNat - minMatch)

/-- `b1 = offset & 0xFF` (R98, R243). -/
def emittedFirstByte (offset : Addr10) : Byte := (offset &&& 0xFF#10).setWidth 8

/-- `b2 = ((offset & 0x300) >> 2) | lengthCode` (R98, R243). -/
def emittedSecondByte (offset : Addr10) (code : BitVec 6) : Byte :=
  ((offset &&& 0x300#10) >>> 2).setWidth 8 ||| code.setWidth 8

/-- `INC10` (R124). -/
def inc10 (x : Addr10) : Addr10 := x + 1#10

/-- The distance from a read position back from the write cursor, 1..1024: `(wp - rp) mod 1024`, 0 read as 1024
(R127, R187). -/
def windowDistance (wp rp : Addr10) : Nat :=
  if wp = rp then windowSize else (wp - rp).toNat

/-- The raw offset that names the byte `d` positions before the next one: `(wp - d - 66) mod 1024` (R127). -/
def rawOffsetOfDistance (wp : Addr10) (d : Nat) : Addr10 :=
  BitVec.ofInt 10 ((wp.toNat : Int) - (d : Int) - (offsetBias : Int))

end Sys2Proof.Machine
end

