-- ==== Sys2Proof/Machine/Ops.lean ====
section
/-! DEFINITION. The named operations over memory and registers (20_memory.md, 40_window.md), the taking of a fault
(60_exceptions.md R264 to R266), the per-call initialisations (70_reset_and_hazards.md R290 to R292), the refusing
of a call (log entry 7) and the passing of the turn between the engines (log entry 1). -/

namespace Sys2Proof.Machine

open Sys2Proof

/-- The outcome of a step of this machine. -/
abbrev Result := Host.Outcome State Fault Refusal

/-- `s` with another decoder. -/
def State.setDec (s : State) (d : Dec) : State := { s with dec := d }

/-- `s` with another encoder. -/
def State.setEnc (s : State) (e : Enc) : State := { s with enc := e }

/-! ### Memory -/

/-- `MemRead(space, a, 1)` (R11): the byte listed at `a`, or what an unlisted address of the space reads as. -/
def memRead (sp : Space) : Memory → Nat → Option Byte
  | [], _ => sp.unlisted
  | (b, w) :: m, a => if a < b then sp.unlisted else if a = b then some w else memRead sp m a

/-- `MemWrite(space, a, 1, v)` (R11), keeping the canonical form. -/
def memWrite (sp : Space) : Memory → Nat → Byte → Memory
  | [], a, v => if sp.unlisted = some v then [] else [(a, v)]
  | (b, w) :: m, a, v =>
    if a < b then (if sp.unlisted = some v then (b, w) :: m else (a, v) :: (b, w) :: m)
    else if a = b then (if sp.unlisted = some v then m else (a, v) :: m)
    else (b, w) :: memWrite sp m a v

/-- The memory of a space that holds the given bytes at `a`, `a + 1`, ... and nothing else. -/
def memOfBytes (sp : Space) : Nat → List Byte → Memory
  | _, [] => []
  | a, v :: vs => if sp.unlisted = some v then memOfBytes sp (a + 1) vs else (a, v) :: memOfBytes sp (a + 1) vs

/-- The bytes given, written at `a`, `a + 1`, ... in order. -/
def memWriteBytes (sp : Space) : Memory → Nat → List Byte → Memory
  | m, _, [] => m
  | m, a, v :: vs => memWriteBytes sp (memWrite sp m a v) (a + 1) vs

/-! ### `IN`, `SRC`, `W` -/

/-- `in[a]`: the byte at address `a` of `IN`, and no value at or past `inLen` (R40). -/
def Dec.inByteAt (d : Dec) (a : Nat) : Option Byte :=
  if a < d.inLen then memRead .input d.input a else none

/-- `ip <- ip + k` (R13). -/
def Dec.advance (d : Dec) (k : Nat) : Dec := { d with ip := d.ip + k }

/-- `InByte()` (R62): the byte at `ip` and the decoder with `ip` advanced; none is the end of the input. -/
def Dec.inByte (d : Dec) : Option (Byte × Dec) :=
  match d.inByteAt d.ip with
  | some v => some (v, d.advance 1)
  | none => none

/-- `ENC.wo = sp - 1024` (R31). -/
def Enc.wo (e : Enc) : Nat := e.sp - windowSize

/-- `W[a]` for an input of `n` bytes in `src` (R44): 1024 zero bytes, then the input; past it no byte exists. -/
def workByte (src : Memory) (n a : Nat) : Option Byte :=
  if a < windowSize then some 0#8
  else if a < windowSize + n then memRead .source src (a - windowSize)
  else none

/-- `W[a]` of the encoder's call (R44). -/
def Enc.work (e : Enc) (a : Nat) : Option Byte := workByte e.source e.inLen.toNat a

/-! ### The window manager (R120 to R125) -/

/-- `WIN_RESET` (R121). -/
def Dec.winReset (d : Dec) : Dec := { d with window := [], wp := 0#10 }

/-- `WIN_READ(pos)` (R122): the address is reduced modulo 1024. Every address of `WINDOW` reads as a value. -/
def Dec.winRead (d : Dec) (pos : Nat) : Byte := (memRead .window d.window (pos % windowSize)).getD 0#8

/-- `WIN_WRITE(pos, v)` (R123). -/
def Dec.winWrite (d : Dec) (pos : Nat) (v : Byte) : Dec :=
  { d with window := memWrite .window d.window (pos % windowSize) v }

/-- `WIN_PUSH(v)` (R125). -/
def Dec.winPush (d : Dec) (v : Byte) : Dec := { d.winWrite d.wp.toNat v with wp := inc10 d.wp }

/-! ### `OUT` -/

/-- `out[a]`: the byte at address `a` of `OUT`; none where `OUT` holds no specified value (R41, R266). -/
def Dec.outByte (d : Dec) (a : Nat) : Option Byte := memRead .output d.output a

/-- The decoder after producing one byte: to `OUT` at `op`, to the window at `wp`, both cursors advanced (R182
sub-steps 2 to 4, R186 sub-steps 2, 3, 5, 6). -/
def Dec.produced (d : Dec) (v : Byte) : Dec :=
  { d.winPush v with output := memWrite .output d.output d.op v, op := d.op + 1 }

/-- Produce one byte. `OUT` has addresses 0..outLen-1 only (R41, log entry 6). -/
def Dec.produce (d : Dec) (v : Byte) : Except Fault Dec :=
  if d.op < d.outLen.toNat then .ok (d.produced v) else .error (.outAddress d.op)

/-! ### Taking a fault, and leaving one -/

/-- `raise X` (R264): the cause, the cursors at the moment of the raise, phase `FAULT`. Nothing is saved or jumped
to. The whole of `OUT` is unspecified from then on (R266, log entry 3). -/
def Dec.raise (k : Cause) (d : Dec) : Dec :=
  { d with cause := k, faultIp := d.ip, faultOp := d.op, phase := .fault, output := [] }

/-- `raise FormatError(V)` of the header step, after `version <- V` (R162 sub-steps 4, 5, R163). -/
def rejectHeader (v : Word32) (s : State) : Result :=
  .next (s.setDec (Dec.raise .formatError { s.dec with version := v }))

/-- Reaching `DONE` (R165). -/
def Dec.finish (d : Dec) : Dec := { d with phase := .done }

/-- `DEC.START(IN, inLen)` (R291): every register at its initial value, the buffer presented. There is no return from
a fault (R267): this and `ABORT`, which is `Dec.reset`, are the only ways out of `FAULT`. -/
def Dec.start (frame : List Byte) : Dec :=
  { Dec.reset.winReset with phase := .hdr, inLen := frame.length, input := memOfBytes .input 0 frame }

/-- `ENC.START(SRC, N)` (R292). -/
def Enc.start (src : List Byte) : Enc :=
  { Enc.reset with
      phase := .hdr, inLen := BitVec.ofNat 32 src.length, source := memOfBytes .source 0 src }

/-! ### Refused calls (log entry 7) -/

/-- The refused call of an engine, if there is one. -/
def State.refusal (s : State) : Engine → Option Refusal
  | .dec => s.decRefused
  | .enc => s.encRefused

/-- A call of an engine is refused: the engine is marked, and nothing else happens. -/
def State.refuse (s : State) (e : Engine) (r : Refusal) : State :=
  match e with
  | .dec => { s with decRefused := some r }
  | .enc => { s with encRefused := some r }

/-- A start accepted or an `ABORT` of the decoder: another decoder, and no call of it is refused any more (R50). -/
def State.beginDec (s : State) (d : Dec) : State := { s with dec := d, decRefused := none }

/-- A start accepted or an `ABORT` of the encoder (R50). -/
def State.beginEnc (s : State) (e : Enc) : State := { s with enc := e, encRefused := none }

/-! ### Turns -/

/-- The `STATUS.state` of an engine is BUSY (R47, R49). -/
def State.busy (s : State) : Engine → Bool
  | .dec => s.dec.callState == .busy
  | .enc => s.enc.callState == .busy

/-- An engine with a step to take: it is BUSY and no call of it is refused. -/
def State.moves (s : State) (e : Engine) : Bool := s.busy e && (s.refusal e).isNone

/-- The other engine. -/
def Engine.other : Engine → Engine
  | .dec => .enc
  | .enc => .dec

/-- The turn passes to the other engine when that one has a step to take (DESIGN CHOICE, log entry 1). -/
def State.passTurn (s : State) : State :=
  if s.moves s.turn.other then { s with turn := s.turn.other } else s

end Sys2Proof.Machine
end

