-- ==== Sys2Proof/Machine/Commands.lean ====
section
/-! DEFINITION. The host's side (10_state.md R47 to R50, 70_reset_and_hazards.md R300 to R303): commands, status reads,
results. -/

namespace Sys2Proof.Machine

open Sys2Proof

/-- One command of the host (R50): a start is accepted unless the engine is BUSY or the input too long (R302), else the
engine is marked as refused (log entry 7); an abort always is accepted, and returns the engine to its reset state
(R290). -/
def performCommand (c : Command) (s : State) : Result :=
  match c with
  | .decStart frame =>
    .next (if s.busy .dec then s.refuse .dec (.startWhileBusy .dec) else s.beginDec (Dec.start frame))
  | .encStart src =>
    .next (if s.busy .enc then s.refuse .enc (.startWhileBusy .enc)
      else if s.cfg.encMaxIn.toNat < src.length then s.refuse .enc (.inputTooLong src.length)
      else s.beginEnc (Enc.start src))
  | .decAbort => .next (s.beginDec Dec.reset)
  | .encAbort => .next (s.beginEnc Enc.reset)

/-- A host that gives one more command: it is performed after those already waiting (log entry 1). -/
def State.post (s : State) (c : Command) : State := { s with pending := s.pending ++ [c] }

/-- The read-only registers of the host interface (R47 to R49); they have names and no addresses. -/
inductive HostRegister where
  | decStatus | decOutLen | decVersion | decFaultIp | decFaultOp | encStatus | encInLen | encOutCnt
  deriving DecidableEq, Repr

/-- A host read of a status register, as an unsigned number; a read changes nothing (R47 to R49). -/
def State.hostRead (s : State) : HostRegister → Nat
  | .decStatus => s.dec.status.toNat
  | .decOutLen => s.dec.outLen.toNat
  | .decVersion => s.dec.version.toNat
  | .decFaultIp => if s.dec.phase = .fault then s.dec.faultIp else 0
  | .decFaultOp => if s.dec.phase = .fault then s.dec.faultOp else 0
  | .encStatus => s.enc.status.toNat
  | .encInLen => s.enc.inLen.toNat
  | .encOutCnt => s.enc.stream.length

/-- The bytes `OUT[a .. a + k - 1]`, if `OUT` holds all of them. -/
def Dec.outBytes (d : Dec) : Nat → Nat → Option (List Byte)
  | _, 0 => some []
  | a, k + 1 =>
    match d.outByte a, d.outBytes (a + 1) k with
    | some v, some vs => some (v :: vs)
    | _, _ => none

/-- The result of a call (R14). -/
inductive CallResult where
  | done (bytes : List Byte)
  | fault (k : Cause)
  deriving DecidableEq, Repr

/-- The result of the decode call: `Done(OUT[0..outLen-1])` (R165), `Fault(X)` and no bytes (R264, R266), and none
while there is no result: the host may read `OUT` only after `DONE` (R41, R303). Nothing is said of a refused call (log
entry 7). -/
def State.decResult (s : State) : Option CallResult :=
  if s.decRefused.isSome then none
  else match s.dec.phase with
  | .done => (s.dec.outBytes 0 s.dec.outLen.toNat).map CallResult.done
  | .fault => some (.fault s.dec.cause)
  | .idle => none
  | .hdr => none
  | .ctrl => none
  | .token => none
  | .copy => none

/-- The result of the encode call: `Done(STREAM)` (R167); the encoder has no fault (R269), and nothing is
said of a refused call (log entry 7). -/
def State.encResult (s : State) : Option CallResult :=
  if s.encRefused.isSome then none
  else match s.enc.phase with
  | .done => some (.done s.enc.stream)
  | .idle => none
  | .hdr => none
  | .search => none
  | .emit => none
  | .final => none

end Sys2Proof.Machine
end

