-- ==== Sys2Proof/Machine/Control.lean ====
section
/-! DEFINITION. The element `CTRL` as the decoder executes it (41_control_byte.md R141). -/

namespace Sys2Proof.Machine

open Sys2Proof

/-- `CTRL_FETCH` (R141): with the output full the call is done and the byte is not consumed; else the byte is loaded
and 8 flags are open. -/
def execCtrl (flags : Byte) (s : State) : Result :=
  if s.dec.op = s.dec.outLen.toNat then .next (s.setDec s.dec.finish)
  else .next (s.setDec { s.dec.advance 1 with ctrl := flags, bits := 8#4, phase := .token })

end Sys2Proof.Machine
end

