-- ==== Sys2Proof/Machine/Header.lean ====
section
/-! DEFINITION. The element `HDR` as the decoder executes it, and the encoder's header step (42_frame.md). -/

namespace Sys2Proof.Machine

open Sys2Proof

/-- `HDR_READ` (R162) on the two fields read: the version is checked before the length is used, and a length that
is too large refuses the call (D22, log entry 7). That eight bytes are there (sub-step 1) is the fetch's part. -/
def execHdr (uncompressedLength formatVersion : Word32) (s : State) : Result :=
  if formatVersion = formatVersionOne then
    if s.cfg.decMaxOut < uncompressedLength then .next (s.refuse .dec (.declaredLengthTooLarge uncompressedLength))
    else .next (s.setDec
      { s.dec with version := formatVersion, outLen := uncompressedLength, ip := headerLength, phase := .ctrl })
  else rejectHeader formatVersion s

/-- `HDR_WRITE` (R166). -/
def Enc.writeHeader (e : Enc) : Enc :=
  { e with stream := e.stream ++ (be32Bytes e.inLen ++ be32Bytes formatVersionOne), phase := .search }

end Sys2Proof.Machine
end

