-- ==== Sys2Proof/Machine/Tokens.lean ====
section
/-! DEFINITION. The elements `LIT` and `MATCH` as the decoder executes them, and the copy step (43_decoder_tokens.md). -/

namespace Sys2Proof.Machine

open Sys2Proof

/-- `LIT` (R182). -/
def execLit (d : Byte) (s : State) : Result :=
  match (s.dec.advance 1).produce d with
  | .ok dec => .next (s.setDec dec.ctrlShift)
  | .error f => .fault f

/-- `MATCH`, its fetch part (R184): the two bytes, the read position with the bias (R185), the count. The copy steps
follow in phase `COPY` (R183, R186: `copyStep`). -/
def execMatch (offLo : Byte) (offHi : BitVec 2) (lencode : BitVec 6) (s : State) : Result :=
  .next (s.setDec
    { s.dec.advance 2 with
        b1 := offLo, b2 := matchSecondByte offHi lencode,
        rp := readPosition (rawOffset offLo offHi), cnt := matchLength lencode, phase := .copy })

/-- `COPY` (R186): close the match when nothing is left, overrun when the output is full, else copy one byte, reading
before writing (R73). -/
def copyStep (s : State) : Result :=
  if s.dec.cnt = 0#7 then .next (s.setDec { s.dec.ctrlShift with phase := .token })
  else if s.dec.op = s.dec.outLen.toNat then .next (s.setDec (s.dec.raise .outputOverrun))
  else
    match s.dec.produce (s.dec.winRead s.dec.rp.toNat) with
    | .ok dec => .next (s.setDec { dec with rp := inc10 dec.rp, cnt := dec.cnt - 1#7 })
    | .error f => .fault f

end Sys2Proof.Machine
end

