-- ==== Sys2Proof/Machine/Dispatch.lean ====
section
/-! DEFINITION. The meaning of each element of the frame as the decoder executes it, one arm per constructor. -/

namespace Sys2Proof.Machine

open Sys2Proof

def exec (i : Instr) (s : State) : Host.Outcome State Fault Refusal :=
  match i with
  | .hdr uncompressedLength formatVersion => Sys2Proof.Machine.execHdr uncompressedLength formatVersion s
  | .ctrl flags => Sys2Proof.Machine.execCtrl flags s
  | .lit d => Sys2Proof.Machine.execLit d s
  | .matchTok offLo offHi lencode => Sys2Proof.Machine.execMatch offLo offHi lencode s

end Sys2Proof.Machine
end

