-- ==== Sys2Proof/Machine/Search.lean ====
section
/-! DEFINITION. The encoder's match search (44_encoder_search.md). The input is a memory `src` of `n` bytes, `sp` the
source cursor. -/

namespace Sys2Proof.Machine

open Sys2Proof

/-- `cap = min(64, 1024 + N - sp)` (R213). -/
def matchCap (n sp : Nat) : Nat := min encMaxMatch (windowSize + n - sp)

/-- The comparison loop of R213 from length `l`, at most `k` more bytes: `W[from + l]` against `W[sp + l]`. -/
def matchRun (src : Memory) (n start sp : Nat) : Nat → Nat → Nat
  | 0, l => l
  | k + 1, l =>
    if workByte src n (start + l) = workByte src n (sp + l) then matchRun src n start sp k (l + 1) else l

/-- `MATCHLEN(cand)` (R213): candidate `cand` starts at `W[wo + cand]` (R212). -/
def matchLen (src : Memory) (n sp cand : Nat) : Nat :=
  matchRun src n (sp - windowSize + cand) sp (matchCap n sp) 0

/-- The update of R214 by candidate `cand` of length `len`; `best` is (length, offset). Only a strictly longer one
replaces it (R216). -/
def betterMatch (best : Nat × Nat) (len cand : Nat) : Nat × Nat := if best.1 < len then (len, cand) else best

/-- The loop of R214 over `k` more candidates from `cand` upward. -/
def searchFrom (src : Memory) (n sp : Nat) : Nat → Nat → Nat × Nat → Nat × Nat
  | 0, _, best => best
  | k + 1, cand, best => searchFrom src n sp k (cand + 1) (betterMatch best (matchLen src n sp cand) cand)

/-- `BESTMATCH(sp)` (R214, R215): (length, offset). -/
def bestMatch (src : Memory) (n sp : Nat) : Nat × Nat := searchFrom src n sp windowSize 0 (0, 0)

/-- The registers after a search that found `best` (R37, R214). What the temporaries `ENC.n` and `ENC.curLen` hold between
searches is a free value in their ranges (R36, DESIGN CHOICE, safe, log entry 8). -/
def Enc.loadSearch (e : Enc) (best : Nat × Nat) : Enc :=
  { e with
      n := BitVec.ofNat 11 (Config.freeCandidate e.source e.inLen.toNat e.sp).val
      curLen := BitVec.ofNat 7 (Config.freeRunLength e.source e.inLen.toNat e.sp).val
      bestLen := BitVec.ofNat 7 best.1
      bestOff := BitVec.ofNat 10 best.2 }

/-- The search of one position (R214). -/
def Enc.search (e : Enc) : Enc := e.loadSearch (bestMatch e.source e.inLen.toNat e.sp)

/-- `SEARCH` (R211). -/
def Enc.searchStep (e : Enc) : Enc :=
  if e.sp = windowSize + e.inLen.toNat then { e with phase := .final }
  else { e.search with phase := .emit }

/-- `W[a]` as an encoder built on a circular window reads it (R221): from the window RAM before `sp`, from the input
from `sp` on. -/
def windowedWorkByte (ewin src : Memory) (n sp a : Nat) : Option Byte :=
  if a < sp then memRead .window ewin (a % windowSize)
  else if a < windowSize + n then memRead .source src (a - windowSize)
  else none

end Sys2Proof.Machine
end

