-- ==== Sys2Proof/Machine/Emit.lean ====
section
/-! DEFINITION. The encoder's token decision, its emission, the end of the input, and the step of the encoder
(45_encoder_emit.md). -/

namespace Sys2Proof.Machine

open Sys2Proof

/-- `EMIT_LIT` of the byte `W[sp]` (R242). -/
def Enc.emitLit (e : Enc) (v : Byte) : Enc :=
  { e.accShiftIn true with gbuf := e.gbuf ++ [v], sp := e.sp + 1 }

/-- `EMIT_MATCH` (R243). -/
def Enc.emitMatch (e : Enc) : Enc :=
  { e.accShiftIn false with
      gbuf := e.gbuf ++ [emittedFirstByte (emittedOffset e.bestOff e.wo),
        emittedSecondByte (emittedOffset e.bestOff e.wo) (lengthCode e.bestLen)]
      sp := e.sp + e.bestLen.toNat }

/-- The end of `EMIT` (R241 sub-steps 2, 3): a full group is closed, and the next search follows. -/
def Enc.endToken (e : Enc) : Enc :=
  { (if e.g = BitVec.ofNat 4 groupSize then e.groupClose else e) with phase := .search }

/-- `EMIT` (R240, R241). A literal's byte exists wherever a call reaches this step (R242, log entry 6). -/
def Enc.emitStep (e : Enc) : Except Fault Enc :=
  if minMatch ≤ e.bestLen.toNat then .ok e.emitMatch.endToken
  else
    match e.work e.sp with
    | some v => .ok (e.emitLit v).endToken
    | none => .error (.workAddress e.sp)

/-- `FINAL` (R246). -/
def Enc.finalStep (e : Enc) : Enc := { e.finalClose with phase := .done }

/-- The step of the encoder by its phase (R38, R210); `IDLE` and `DONE` have none, and nothing happens there (R290,
log entry 9). -/
def encStep (s : State) : Result :=
  match s.enc.phase with
  | .idle => .next s
  | .hdr => .next (s.setEnc s.enc.writeHeader)
  | .search => .next (s.setEnc s.enc.searchStep)
  | .emit =>
    match s.enc.emitStep with
    | .ok e => .next (s.setEnc e)
    | .error f => .fault f
  | .final => .next (s.setEnc s.enc.finalStep)
  | .done => .next s

end Sys2Proof.Machine
end

