-- ==== Sys2Proof/Machine/Fetch.lean ====
section
/-! DEFINITION. What the decoder does next by its phase (43_decoder_tokens.md R180, R181): which element it fetches
and from where, and the steps that fetch none. -/

namespace Sys2Proof.Machine

open Sys2Proof

/-- What a step of the decoder is: the execution of an element, or a step without one, settled. -/
inductive DecMove where
  | run (i : Instr)
  | settled (r : Result)

/-- Up to `k` bytes by `InByte()` (R62), stopping at the end of the input, and the decoder after those reads. -/
def Dec.takeBytes : Nat → Dec → List Byte × Dec
  | 0, d => ([], d)
  | k + 1, d =>
    match d.inByte with
    | none => ([], d)
    | some (v, d') => (v :: (Dec.takeBytes k d').1, (Dec.takeBytes k d').2)

/-- The bytes of `IN` at addresses `a .. a + k - 1`, as far as the buffer goes. -/
def Dec.bytesAt (d : Dec) : Nat → Nat → List Byte
  | _, 0 => []
  | a, k + 1 =>
    match d.inByteAt a with
    | some v => v :: d.bytesAt (a + 1) k
    | none => []

/-- The bytes the element at a position is decoded from: the header at addresses 0..7 (R161), all else at `ip`. -/
def Dec.elementBytes (d : Dec) : Position → List Byte
  | .header => d.bytesAt 0 headerLength
  | p => (Dec.takeBytes p.byteLength d).1

/-- The decoder at the moment a read of the element fails (R265): a header shorter than 8 bytes fails before anything
(R162 sub-step 1); a match whose `b2` is missing has loaded `b1` and moved `ip` past it (R184). -/
def Dec.atTruncation (d : Dec) : Position → Dec
  | .header => d
  | .groupHead => d
  | .token true => d
  | .token false =>
    match d.inByte with
    | some (v, d') => { d' with b1 := v }
    | none => d

/-- Fetch the element at a position: what to execute, or the fault the fetch raises (R62, R162, R163). -/
def fetch (p : Position) (s : State) : DecMove :=
  match decode p (s.dec.elementBytes p) with
  | .ok (i, _) => .run i
  | .error .truncated => .settled (.next (s.setDec ((s.dec.atTruncation p).raise .truncatedStream)))
  | .error (.illegalVersion v) => .settled (rejectHeader v s)

/-- Phase `CTRL` (R141): done when the output is full, else the control byte. -/
def ctrlMove (s : State) : DecMove :=
  if s.dec.op = s.dec.outLen.toNat then .settled (.next (s.setDec s.dec.finish)) else fetch .groupHead s

/-- Phase `TOKEN` (R181): done when the output is full, the next control byte when no flag is left, else the token
that the flag selects. -/
def tokenMove (s : State) : DecMove :=
  if s.dec.op = s.dec.outLen.toNat then .settled (.next (s.setDec s.dec.finish))
  else if s.dec.bits = 0#4 then .settled (.next (s.setDec { s.dec with phase := .ctrl }))
  else fetch (.token s.dec.flag) s

/-- What the decoder does next, by its phase (R30, R180); `IDLE`, `DONE` and `FAULT` have no step, and nothing happens
there (R290, log entry 9). -/
def decMove (s : State) : DecMove :=
  match s.dec.phase with
  | .idle => .settled (.next s)
  | .hdr => fetch .header s
  | .ctrl => ctrlMove s
  | .token => tokenMove s
  | .copy => .settled (copyStep s)
  | .done => .settled (.next s)
  | .fault => .settled (.next s)

/-- What `withFetchWord` does to the decoder: the decoder in the phase that fetches the element of the table word, its bytes
in `IN` where that fetch reads them (zeros after them, up to the longest element), room in the output, and for a token
its flag in the control register (log entry 10). -/
def Dec.placeWord (d : Dec) (nbits w : Nat) : Dec :=
  let bytes := (tableBytes nbits w ++ List.replicate headerLength 0#8).take headerLength
  match tablePosition nbits w with
  | .header =>
    { d with phase := .hdr, input := memWriteBytes .input d.input 0 bytes, inLen := max d.inLen headerLength }
  | .groupHead =>
    { d with
        phase := .ctrl, input := memWriteBytes .input d.input d.ip bytes, inLen := max d.inLen (d.ip + headerLength),
        outLen := if d.op < d.outLen.toNat then d.outLen else BitVec.ofNat 32 (d.op + 1) }
  | .token lit =>
    { d with
        phase := .token, input := memWriteBytes .input d.input d.ip bytes, inLen := max d.inLen (d.ip + headerLength),
        outLen := if d.op < d.outLen.toNat then d.outLen else BitVec.ofNat 32 (d.op + 1),
        ctrl := if lit then d.ctrl ||| 1#8 else d.ctrl &&& 0xFE#8,
        bits := if d.bits = 0#4 then 1#4 else d.bits }

/-- The machine with the element of a table word placed where the decoder fetches next, no command waiting, the
decoder's turn and no call of it refused (log entry 10). -/
def State.placeWord (s : State) (nbits w : Nat) : State :=
  { s with dec := s.dec.placeWord nbits w, pending := [], turn := .dec, decRefused := none }

end Sys2Proof.Machine
end

