-- ==== Sys2Proof/Machine/Cycle.lean ====
section
/-! DEFINITION. The step of each engine and of the machine (00_scope.md R10, R13; D3): a host command that has arrived,
or one step of the engine whose turn it is. -/

namespace Sys2Proof.Machine

open Sys2Proof

/-- The outcome of a decoder's move: the element it fetched, executed, or a step that fetched none. -/
def DecMove.perform (s : State) : DecMove → Result
  | .run i => exec i s
  | .settled r => r

/-- The step of the decoder. -/
def decStep (s : State) : Result := (decMove s).perform s

/-- The step of the engine whose turn it is, the turn having passed on (log entry 1). A refused engine has no step: its
turn passes to the other engine if that one has a step to take, and else the refusal is the answer (R281, log entry
7). -/
def engineStep (s : State) : Result :=
  match s.refusal s.turn, s.turn with
  | none, .dec => decStep s.passTurn
  | none, .enc => encStep s.passTurn
  | some r, _ => if s.moves s.turn.other then .next s.passTurn else .refused r

/-- The host's first waiting command, else an engine's step (R50, log entry 1). -/
def machineStep (s : State) : Result :=
  match s.pending with
  | c :: cs => performCommand c { s with pending := cs }
  | [] => engineStep s

end Sys2Proof.Machine
end

