-- ==== Sys2Proof/Machine/Step.lean ====
section
/-! DEFINITION. One step of the machine, and the placing of an element where the next step fetches it. -/

namespace Sys2Proof.Machine

open Sys2Proof

/-- One step of the machine (`machineStep`). -/
def step (s : State) : Host.Outcome State Fault Refusal := machineStep s

/-- `s` with the element of a table word where the next step fetches it (`State.placeWord`, log entry 10). -/
def State.withFetchWord (s : State) (nbits w : Nat) : State := s.placeWord nbits w

end Sys2Proof.Machine
end

