-- ==== Sys2Proof/Machine/Listing.lean ====
section
/-! DEFINITION. The textual listing of a frame, as data: its elements, raw bytes, and the two pseudo-elements
`MATCHRP` and `GROUP` (30_encoding.md R106, R107). The machine does not use it. -/

namespace Sys2Proof.Machine

open Sys2Proof

/-- A token of a listing (R106, R107). -/
inductive ListedToken where
  | lit (d : Byte)
  | matchOff (off : Addr10) (lencode : BitVec 6)
  /-- `MATCHRP`: names the window read position. -/
  | matchRp (rp : Addr10) (lencode : BitVec 6)
  deriving DecidableEq, Repr

/-- A line of a listing (R106, R107). -/
inductive ListedLine where
  | hdr (len ver : Word32)
  | ctrl (c : Byte)
  | token (t : ListedToken)
  | byte (b : Byte)
  | group (ts : List ListedToken)
  deriving DecidableEq, Repr

/-- The raw offset that `MATCHRP` stands for: `(rp - 66) mod 1024` (R107). -/
def rawOffsetOfRead (rp : Addr10) : Addr10 := BitVec.ofInt 10 ((rp.toNat : Int) - (offsetBias : Int))

/-- The element a listed token expands to (R107). -/
def ListedToken.element : ListedToken → Instr
  | .lit d => .lit d
  | .matchOff off lencode => Instr.ofOffset off lencode
  | .matchRp rp lencode => Instr.ofOffset (rawOffsetOfRead rp) lencode

/-- Its flag: 1 for a literal (R107). -/
def ListedToken.flag : ListedToken → Bool
  | .lit _ => true
  | .matchOff _ _ => false
  | .matchRp _ _ => false

/-- The control byte of `GROUP`: bit `i` is the flag of token `i`, 0 past the last (R107). -/
def groupControl : List ListedToken → Byte
  | [] => 0#8
  | t :: ts => (groupControl ts <<< 1) ||| (if t.flag then 1#8 else 0#8)

/-- The bytes of a line (R106, R107); it is not checked that a control byte agrees with the tokens after it. -/
def ListedLine.bytes : ListedLine → List Byte
  | .hdr len ver => encode (.hdr len ver)
  | .ctrl c => encode (.ctrl c)
  | .token t => encode t.element
  | .byte b => [b]
  | .group ts => encode (.ctrl (groupControl ts)) ++ ts.flatMap (fun t => encode t.element)

/-- The bytes of a listing. -/
def assemble (ls : List ListedLine) : List Byte := ls.flatMap ListedLine.bytes

end Sys2Proof.Machine
end

