-- ==== Sys2Proof/Machine/LoopForm.lean ====
section
/-! DEFINITION. The loop forms of the two calls (43_decoder_tokens.md R190, 45_encoder_emit.md R247), which the step
rules must equal in every observable. The machine does not use them. -/

namespace Sys2Proof.Machine

open Sys2Proof

/-- The variables of the decoder's loop: `op` is the length of `out`. -/
structure LoopDec where
  ip : Nat
  wp : Addr10
  win : Memory
  out : List Byte
  deriving DecidableEq, Repr

/-- `out[op] <- v ; win[wp] <- v`, both cursors advanced (R190). -/
def LoopDec.emit (l : LoopDec) (v : Byte) : LoopDec :=
  { l with win := memWrite .window l.win l.wp.toNat v, wp := inc10 l.wp, out := l.out ++ [v] }

/-- The innermost loop of R190: `k` more bytes from read position `rp`. -/
def loopCopy (outLen : Nat) : Nat → Addr10 → LoopDec → Except Cause LoopDec
  | 0, _, l => .ok l
  | k + 1, rp, l =>
    if l.out.length = outLen then .error .outputOverrun
    else loopCopy outLen k (inc10 rp) (l.emit ((memRead .window l.win rp.toNat).getD 0#8))

/-- One token of R190: a literal if bit 0 of `c` is 1, else a match. -/
def loopToken (frame : List Byte) (outLen : Nat) (c : Byte) (l : LoopDec) : Except Cause LoopDec :=
  if c.getLsbD 0 then
    match frame[l.ip]? with
    | some d => .ok ({ l with ip := l.ip + 1 }.emit d)
    | none => .error .truncatedStream
  else
    match frame[l.ip]?, frame[l.ip + 1]? with
    | some b1, some b2 =>
      loopCopy outLen ((b2 &&& 0x3F#8).toNat + minMatch)
        (readPosition ((((b2 &&& 0xC0#8).setWidth 10 <<< 2) ||| b1.setWidth 10) &&& 0x3FF#10))
        { l with ip := l.ip + 2 }
    | _, _ => .error .truncatedStream

/-- The `for` loop of R190: `k` more flags of `c`. -/
def loopTokens (frame : List Byte) (outLen : Nat) : Nat → Byte → LoopDec → Except Cause LoopDec
  | 0, _, l => .ok l
  | k + 1, c, l =>
    if l.out.length = outLen then .ok l
    else
      match loopToken frame outLen c l with
      | .ok l' => loopTokens frame outLen k (c >>> 1) l'
      | .error e => .error e

/-- The `while` loop of R190. Every turn of it takes a byte of the frame, so with more fuel than the frame has bytes
the fuel never runs out. -/
def loopGroups (frame : List Byte) (outLen : Nat) : Nat → LoopDec → Except Cause LoopDec
  | 0, _ => .error .truncatedStream
  | k + 1, l =>
    if l.out.length < outLen then
      match frame[l.ip]? with
      | some c =>
        match loopTokens frame outLen groupSize c { l with ip := l.ip + 1 } with
        | .ok l' => loopGroups frame outLen k l'
        | .error e => .error e
      | none => .error .truncatedStream
    else .ok l

/-- The outcome of a decode call: the bytes and the final input cursor, a fault, or a refused header. -/
inductive LoopOutcome where
  | done (bytes : List Byte) (ip : Nat)
  | fault (k : Cause)
  | refused (length : Word32)
  deriving DecidableEq, Repr

/-- `DECODE(IN, inLen)` (R190, R162). -/
def loopDecode (decMaxOut : Word32) (frame : List Byte) : LoopOutcome :=
  match frame with
  | b0 :: b1 :: b2 :: b3 :: b4 :: b5 :: b6 :: b7 :: _ =>
    if be32 b4 b5 b6 b7 ≠ formatVersionOne then .fault .formatError
    else if decMaxOut < be32 b0 b1 b2 b3 then .refused (be32 b0 b1 b2 b3)
    else
      match loopGroups frame (be32 b0 b1 b2 b3).toNat (frame.length + 1)
          { ip := headerLength, wp := 0#10, win := [], out := [] } with
      | .ok l => .done l.out l.ip
      | .error e => .fault e
  | _ => .fault .truncatedStream

/-- The variables of the encoder's loop (R247). -/
structure LoopEnc where
  sp : Nat
  acc : Byte
  g : Nat
  gbuf : List Byte
  stream : List Byte
  deriving DecidableEq, Repr

/-- One turn of the encoder's loop (R247): search, one token, close a full group. The byte `W[sp]` exists in every
turn, since `sp < 1024 + N`. -/
def loopEncodeToken (src : Memory) (n : Nat) (l : LoopEnc) : LoopEnc :=
  let best := bestMatch src n l.sp
  let l' : LoopEnc :=
    if minMatch ≤ best.1 then
      { l with
          acc := l.acc >>> 1
          gbuf := l.gbuf ++
            [emittedFirstByte (emittedOffset (BitVec.ofNat 10 best.2) (l.sp - windowSize)),
              emittedSecondByte (emittedOffset (BitVec.ofNat 10 best.2) (l.sp - windowSize))
                (lengthCode (BitVec.ofNat 7 best.1))]
          sp := l.sp + best.1
          g := l.g + 1 }
    else
      { l with
          acc := (l.acc >>> 1) ||| 0x80#8
          gbuf := l.gbuf ++ [(workByte src n l.sp).getD 0#8]
          sp := l.sp + 1
          g := l.g + 1 }
  if l'.g = groupSize then
    { l' with stream := l'.stream ++ l'.acc :: l'.gbuf, acc := 0#8, g := 0, gbuf := [] }
  else l'

/-- The `while` loop of R247; every turn covers at least one input byte, so `N` turns are enough. -/
def loopEncodeTokens (src : Memory) (n : Nat) : Nat → LoopEnc → LoopEnc
  | 0, l => l
  | k + 1, l => if l.sp < windowSize + n then loopEncodeTokens src n k (loopEncodeToken src n l) else l

/-- `ENCODE(SRC, N)` (R247). -/
def loopEncode (src : List Byte) : List Byte :=
  let l := loopEncodeTokens (memOfBytes .source 0 src) src.length src.length
    { sp := windowSize, acc := 0#8, g := 0, gbuf := [],
      stream := be32Bytes (BitVec.ofNat 32 src.length) ++ be32Bytes 1#32 }
  if l.g = 0 then l.stream else l.stream ++ (l.acc >>> (groupSize - l.g)) :: l.gbuf

end Sys2Proof.Machine
end

