-- ==== Sys2Proof/Safety.lean ====
section
/-! DEFINITION. What counts as a good state and a safe run: the invariants that the spec states or that follow from its
rules (10_state.md, 40_window.md R126, 42_frame.md R165), and a run of the machine. -/

namespace Sys2Proof.Machine

open Sys2Proof

/-- The decoder's memories are in canonical form and list only addresses of their spaces (R40 to R42); `OUT` lists
only what this call has written (R41). -/
structure Dec.MemoriesOk (d : Dec) : Prop where
  inputForm : Memory.wf .input d.input
  outputForm : Memory.wf .output d.output
  windowForm : Memory.wf .window d.window
  inputInside : ∀ c ∈ d.input, c.1 < d.inLen
  outputInside : ∀ c ∈ d.output, c.1 < d.op
  windowInside : ∀ c ∈ d.window, c.1 < windowSize

/-- The ranges of R21 to R28, in every phase. -/
structure Dec.RangesOk (d : Dec) : Prop where
  ipInside : d.ip ≤ d.inLen
  opInside : d.op ≤ d.outLen.toNat
  wpFollowsOp : d.wp.toNat = d.op % windowSize
  bitsInside : d.bits.toNat ≤ groupSize
  cntInside : d.cnt.toNat ≤ decMaxMatch

/-- What the phase tells of the other registers (R27, R28, R30, R47, R48, R54, R165). -/
structure Dec.PhaseOk (d : Dec) : Prop where
  idleIsReset : d.phase = .idle → d = Dec.reset
  headerUnread : d.phase = .hdr → d.ip = 0 ∧ d.op = 0 ∧ d.outLen = 0#32 ∧ d.version = 0#32
  versionKnown : d.phase = .ctrl ∨ d.phase = .token ∨ d.phase = .copy ∨ d.phase = .done → d.version = 1#32
  flagsUsedUp : d.phase = .hdr ∨ d.phase = .ctrl → d.bits = 0#4
  flagOpen : d.phase = .copy → d.bits ≠ 0#4
  countZero : d.phase = .hdr ∨ d.phase = .ctrl ∨ d.phase = .token → d.cnt = 0#7
  doneIsFull : d.phase = .done → d.op = d.outLen.toNat
  causeIffFault : d.cause ≠ .noFault ↔ d.phase = .fault
  recordOnlyInFault : d.phase ≠ .fault → d.faultIp = 0 ∧ d.faultOp = 0
  recordIsCursors : d.phase = .fault → d.faultIp = d.ip ∧ d.faultOp = d.op

/-- The window holds the most recent 1024 produced bytes, byte `q` at address `q mod 1024`, and zero where nothing has
been produced yet; `OUT` holds every produced byte (R42, R126). After a fault `OUT` is unspecified (R266). -/
structure Dec.WindowOk (d : Dec) : Prop where
  mirrors : d.phase ≠ .fault → ∀ q, q < d.op → d.op ≤ q + windowSize → d.outByte q = some (d.winRead q)
  outWritten : d.phase ≠ .fault → ∀ q, q < d.op → (d.outByte q).isSome
  zeroSeed : ∀ a, d.op ≤ a → a < windowSize → d.winRead a = 0#8

/-- The encoder's ranges and what its phase tells (R31 to R37, R44, R147, R211, R213, R246). -/
structure Enc.Ok (e : Enc) : Prop where
  sourceForm : Memory.wf .source e.source
  sourceInside : ∀ c ∈ e.source, c.1 < e.inLen.toNat
  spInside : windowSize ≤ e.sp ∧ e.sp ≤ windowSize + e.inLen.toNat
  groupOpen : e.g.toNat < groupSize
  payloadHeld : e.g.toNat ≤ e.gbuf.length ∧ e.gbuf.length ≤ 2 * e.g.toNat
  accLowZero : ∀ i, i < groupSize - e.g.toNat → e.acc.getLsbD i = false
  bestInside : e.bestLen.toNat ≤ encMaxMatch
  temporariesInside : e.n.toNat ≤ windowSize ∧ e.curLen.toNat ≤ encMaxMatch
  searched : e.phase = .emit → e.sp < windowSize + e.inLen.toNat ∧
    (e.bestLen.toNat, e.bestOff.toNat) = bestMatch e.source e.inLen.toNat e.sp
  atEnd : e.phase = .final ∨ e.phase = .done → e.sp = windowSize + e.inLen.toNat
  groupClosed : e.phase = .done → e.g = 0#4
  idleIsReset : e.phase = .idle → e = Enc.reset
  beforeStream : e.phase = .hdr → e.stream = [] ∧ e.sp = windowSize ∧ e.g = 0#4

/-- A good state of the machine: both engines good, the accepted sizes within the open parameters (R7, R162, R302), and
a mark of a refused call only where one of the three calls was refused (R50, R162, R302; log entry 7). -/
structure State.Ok (s : State) : Prop where
  memories : s.dec.MemoriesOk
  ranges : s.dec.RangesOk
  phases : s.dec.PhaseOk
  window : s.dec.WindowOk
  encoder : s.enc.Ok
  outputAccepted : s.dec.outLen.toNat ≤ s.cfg.decMaxOut.toNat
  inputAccepted : s.enc.inLen.toNat ≤ s.cfg.encMaxIn.toNat
  decRefusal : ∀ r, s.decRefused = some r → s.busy .dec = true ∧
    (r = .startWhileBusy .dec ∨ ∃ len, r = .declaredLengthTooLarge len ∧ s.cfg.decMaxOut.toNat < len.toNat)
  encRefusal : ∀ r, s.encRefused = some r → (s.busy .enc = true ∧ r = .startWhileBusy .enc) ∨
    (s.busy .enc = false ∧ ∃ n, r = .inputTooLong n ∧ s.cfg.encMaxIn.toNat < n)

/-- The first eight bytes of `IN` are there and are the two header fields (R93, R161). -/
def Dec.headerHolds (d : Dec) (len ver : Word32) : Prop :=
  ∃ b0 b1 b2 b3 b4 b5 b6 b7 : Byte,
    d.inByteAt 0 = some b0 ∧ d.inByteAt 1 = some b1 ∧ d.inByteAt 2 = some b2 ∧ d.inByteAt 3 = some b3 ∧
    d.inByteAt 4 = some b4 ∧ d.inByteAt 5 = some b5 ∧ d.inByteAt 6 = some b6 ∧ d.inByteAt 7 = some b7 ∧
    len = be32 b0 b1 b2 b3 ∧ ver = be32 b4 b5 b6 b7

/-- The position whose element the decoder fetches next, where its step fetches one (R141, R162, R181). -/
def Dec.awaits (d : Dec) : Position → Prop
  | .header => d.phase = .hdr
  | .groupHead => d.phase = .ctrl ∧ d.op ≠ d.outLen.toNat
  | .token literal => d.phase = .token ∧ d.op ≠ d.outLen.toNat ∧ d.bits ≠ 0#4 ∧ d.flag = literal

/-- `d'` is `d` with fault `k` taken (R264): the cause, the record of the cursors, the phase; all else as it was but
`OUT`, of which nothing is said (R266). -/
def Dec.faulted (k : Cause) (d d' : Dec) : Prop :=
  d' = { d with phase := .fault, cause := k, faultIp := d.ip, faultOp := d.op, output := d'.output }

/-- From `s` to `t` nothing changed outside the decoder but the turn, and no call was refused. -/
def State.onlyDec (s t : State) : Prop := 
  t.enc = s.enc ∧ t.pending = s.pending ∧ t.decRefused = s.decRefused ∧ t.encRefused = s.encRefused ∧ t.cfg = s.cfg

/-- From `s` to `t` nothing changed outside the encoder but the turn, and no call was refused. -/
def State.onlyEnc (s t : State) : Prop := 
  t.dec = s.dec ∧ t.pending = s.pending ∧ t.decRefused = s.decRefused ∧ t.encRefused = s.encRefused ∧ t.cfg = s.cfg

/-- `k` steps of the machine lead from `s` to `t`, none of them a stop. -/
def State.reaches (k : Nat) (s t : State) : Prop := Host.Core.run core k s = .next t

/-- Only the decoder moves: it is its turn, no command waits, no call of it is refused, and the encoder has no step to
take. -/
def State.decoderAlone (s : State) : Prop :=
  s.pending = [] ∧ s.turn = .dec ∧ s.decRefused = none ∧ s.moves .enc = false

/-- Only the encoder moves. -/
def State.encoderAlone (s : State) : Prop :=
  s.pending = [] ∧ s.turn = .enc ∧ s.encRefused = none ∧ s.moves .dec = false

end Sys2Proof.Machine
end

