-- ==== Sys2Proof/Certificates/Slice0/Obligations.lean ====
section
/-! DEFINITION. The statements about the engine, from the numbered rules of `spec/`; each docstring names the rule.
Where a statement speaks of a step of one engine it says when that engine moves: no host command waits, it is the
engine's turn, and no call of it has been refused. Those fields are the model's own (log entries 1 and 7). -/

open Sys2Proof Sys2Proof.Machine

/-! ### Encoding -/

/-- R93 to R96: decoding an encoded legal element gives it back, whatever follows it. -/
def Obligations.DecodeInvertsEncode : Prop :=
  ∀ (i : Instr) (rest : List Byte), i.wellFormed = true → decode i.position (encode i ++ rest) = .ok (i, rest)

/-- R93 to R96: what the decoder reads is legal, belongs to the position, and is the bytes it was read from. -/
def Obligations.EncodeInvertsDecode : Prop :=
  ∀ (p : Position) (bytes : List Byte) (i : Instr) (rest : List Byte), decode p bytes = .ok (i, rest) →
    i.position = p ∧ i.wellFormed = true ∧ encode i ++ rest = bytes

/-- R100, R101: a header is illegal exactly when its version is not 1; every other element is legal as soon as its
bytes are there. -/
def Obligations.OnlyTheVersionCanBeIllegal : Prop :=
  (∀ (len ver : Word32) (rest : List Byte),
    decode .header (encode (.hdr len ver) ++ rest) =
      if ver = 1#32 then .ok (.hdr len ver, rest) else .error (.illegalVersion ver)) ∧
  ∀ (p : Position) (bytes : List Byte), p ≠ .header → p.byteLength ≤ bytes.length →
    ∃ i, decode p bytes = .ok (i, bytes.drop p.byteLength)

/-- R92, R108 with words of 95_test_vectors.md V3.11, V4, V2.6: a few words of the element table decode to the
elements they stand for, and words of the wrong flag or version to none. -/
def Obligations.WrittenWordsDecode : Prop :=
  decodeTableWord 64 0x0000000A00000001 = some (.hdr 10#32 1#32) ∧
  decodeTableWord 64 0x0000000A00000002 = none ∧
  decodeTableWord 8 0xA5 = some (.ctrl 0xA5#8) ∧
  decodeTableWord 16 0x141 = some (.lit 0x41#8) ∧
  decodeTableWord 16 0x041 = none ∧
  decodeTableWord 24 0x0BEC6 = some (.matchTok 0xBE#8 3#2 6#6) ∧
  decodeTableWord 24 0x03E7D = some (.matchTok 0x3E#8 1#2 61#6) ∧
  decodeTableWord 24 0x1BEC6 = none

/-- R141, R162, R181: where the decoder, on its turn, fetches an element and its bytes decode, the step is that
element's execution, the turn having passed on. -/
def Obligations.StepRunsTheDecodedElement : Prop :=
  ∀ (s : State) (p : Position) (i : Instr) (rest : List Byte), s.pending = [] → s.turn = .dec → s.decRefused = none →
    s.dec.awaits p → decode p (s.dec.elementBytes p) = .ok (i, rest) → step s = exec i s.passTurn

/-- The placing of a table word (log entry 10): after reset the very next step runs the element it decodes to. -/
def Obligations.PlacedWordRunsFirst : Prop :=
  ∀ (nbits w : Nat) (i : Instr), decodeTableWord nbits w = some i →
    step (State.reset.withFetchWord nbits w) = exec i (State.reset.withFetchWord nbits w)

/-- R66, R65: the header fields are big-endian, both ways. -/
def Obligations.HeaderFieldsAreBigEndian : Prop :=
  (∀ b0 b1 b2 b3 : Byte, (be32 b0 b1 b2 b3).toNat =
    b0.toNat * 2 ^ 24 + b1.toNat * 2 ^ 16 + b2.toNat * 2 ^ 8 + b3.toNat) ∧
  ∀ v : Word32, ∃ b0 b1 b2 b3 : Byte, be32Bytes v = [b0, b1, b2, b3] ∧ b0.toNat = v.toNat / 2 ^ 24 ∧
    b1.toNat = v.toNat / 2 ^ 16 % 256 ∧ b2.toNat = v.toNat / 2 ^ 8 % 256 ∧ b3.toNat = v.toNat % 256

/-- R97: the fields of a match as its two bytes give them. -/
def Obligations.MatchFieldsAssemble : Prop :=
  ∀ (b1 b2 : Byte) (rest : List Byte), ∃ (offLo : Byte) (offHi : BitVec 2) (lencode : BitVec 6),
    decode (.token false) (b1 :: b2 :: rest) = .ok (.matchTok offLo offHi lencode, rest) ∧
    (rawOffset offLo offHi).toNat = (((b2.toNat &&& 0xC0) <<< 2) ||| b1.toNat) &&& 0x3FF ∧
    (matchLength lencode).toNat = (b2.toNat &&& 0x3F) + 3 ∧
    (readPosition (rawOffset offLo offHi)).toNat = ((rawOffset offLo offHi).toNat + 66) % 1024 ∧
    3 ≤ (matchLength lencode).toNat ∧ (matchLength lencode).toNat ≤ 66

/-- R185: the bias is a bijection of the raw offsets onto the read positions, 0..957 to 66..1023, 958..1023 to 0..65. -/
def Obligations.ReadPositionIsTheBiasedOffset : Prop :=
  (∀ raw : Addr10, (readPosition raw).toNat = (raw.toNat + 66) % 1024 ∧
    (raw.toNat ≤ 957 → (readPosition raw).toNat = raw.toNat + 66) ∧
    (958 ≤ raw.toNat → (readPosition raw).toNat + 958 = raw.toNat)) ∧
  (∀ r r' : Addr10, readPosition r = readPosition r' → r = r') ∧
  ∀ rp : Addr10, ∃ raw, readPosition raw = rp

/-- R98: the two bytes the encoder emits for a match decode back to its offset, its length, and the window address
`(matchOffset + wo) mod 1024`; the offset is the floor modulo. -/
def Obligations.EmittedMatchDecodesBack : Prop :=
  ∀ (bestOff : Addr10) (wo : Nat) (bestLen : BitVec 7), 3 ≤ bestLen.toNat → bestLen.toNat ≤ 64 →
    ((emittedOffset bestOff wo).toNat : Int) = ((bestOff.toNat : Int) + wo - 66) % 1024 ∧
    (lengthCode bestLen).toNat = bestLen.toNat - 3 ∧
    ∃ (offLo : Byte) (offHi : BitVec 2),
      decode (.token false) [emittedFirstByte (emittedOffset bestOff wo),
        emittedSecondByte (emittedOffset bestOff wo) (lengthCode bestLen)] =
          .ok (.matchTok offLo offHi (lengthCode bestLen), []) ∧
      rawOffset offLo offHi = emittedOffset bestOff wo ∧
      matchLength (lengthCode bestLen) = bestLen ∧
      (readPosition (rawOffset offLo offHi)).toNat = (bestOff.toNat + wo) % 1024

/-- R107: `MATCHRP` names the window read position, and the control byte of `GROUP` has the flags of its tokens in
its low bits and zeros above. -/
def Obligations.ListingPseudoElementsExpand : Prop :=
  (∀ (rp : Addr10) (lencode : BitVec 6), ∃ (offLo : Byte) (offHi : BitVec 2),
    (ListedToken.matchRp rp lencode).element = .matchTok offLo offHi lencode ∧
    ((rawOffset offLo offHi).toNat : Int) = ((rp.toNat : Int) - 66) % 1024 ∧
    readPosition (rawOffset offLo offHi) = rp) ∧
  (∀ ts : List ListedToken, 1 ≤ ts.length → ts.length ≤ 8 →
    (∀ i, i < 8 → (groupControl ts).getLsbD i = (ts[i]?.map ListedToken.flag).getD false) ∧
    (ListedLine.group ts).bytes = groupControl ts :: (ts.map fun t => encode t.element).flatten)

/-! ### The elements, executed -/

/-- R162 sub-steps 2 to 7, the element alone: a header of version 1 whose length is accepted completes, and changes
nothing but the four registers. -/
def Obligations.HdrCompletes : Prop :=
  ∀ (s : State) (len : Word32), len.toNat ≤ s.cfg.decMaxOut.toNat →
    exec (.hdr len 1#32) s =
      .next { s with dec := { s.dec with version := 1#32, outLen := len, ip := 8, phase := .ctrl } }

/-- R163, R261, R264: executing a header of any other version takes `FormatError`, whatever its length, with the
version recorded and nothing else changed but `OUT`, of which nothing is said. -/
def Obligations.HdrOfAnotherVersionTakesFormatError : Prop :=
  ∀ (s : State) (len ver : Word32), ver ≠ 1#32 → ∃ t, exec (.hdr len ver) s = .next t ∧ s.onlyDec t ∧
    Dec.faulted .formatError { s.dec with version := ver } t.dec

/-- R162 sub-step 6, D22: a header of version 1 that declares more than `DEC_MAX_OUT` refuses the call; nothing else
happens. How a refused call is held is the model's choice (log entry 7). -/
def Obligations.HdrTooLongIsRefused : Prop :=
  ∀ (s : State) (len : Word32), s.cfg.decMaxOut.toNat < len.toNat →
    exec (.hdr len 1#32) s = .next { s with decRefused := some (.declaredLengthTooLarge len) }

/-- R141: a control byte is loaded whole while output is owed, and is not consumed when the output is full. -/
def Obligations.CtrlCompletes : Prop :=
  ∀ (s : State) (flags : Byte),
    (s.dec.op ≠ s.dec.outLen.toNat → exec (.ctrl flags) s =
      .next { s with dec := { s.dec with ip := s.dec.ip + 1, ctrl := flags, bits := 8#4, phase := .token } }) ∧
    (s.dec.op = s.dec.outLen.toNat → exec (.ctrl flags) s = .next { s with dec := { s.dec with phase := .done } })

/-- R182 sub-steps 2 to 5: while output is owed a literal completes; the byte goes to `OUT` at `op` and to the window
at `wp`, no other byte of either memory changes, the cursors advance (`wp` modulo 1024), one flag is consumed, and
nothing else changes. -/
def Obligations.LitCompletes : Prop :=
  ∀ (s : State) (v : Byte), Memory.wf .output s.dec.output → Memory.wf .window s.dec.window →
    s.dec.op < s.dec.outLen.toNat →
    ∃ t, exec (.lit v) s = .next t ∧
      t = { s with dec := { s.dec with
        ip := s.dec.ip + 1, op := s.dec.op + 1, wp := t.dec.wp, ctrl := s.dec.ctrl >>> 1, bits := s.dec.bits - 1#4,
        output := t.dec.output, window := t.dec.window } } ∧
      t.dec.wp.toNat = (s.dec.wp.toNat + 1) % 1024 ∧
      (∀ a, t.dec.outByte a = if a = s.dec.op then some v else s.dec.outByte a) ∧
      (∀ a, t.dec.winRead a = if a % 1024 = s.dec.wp.toNat then v else s.dec.winRead a)

/-- The model's stop for an address the spec says does not exist (R41, log entry 6): a literal executed with the output
cursor past `OUT`. -/
def Obligations.LitPastTheOutputStops : Prop :=
  ∀ (s : State) (v : Byte), s.dec.outLen.toNat ≤ s.dec.op → exec (.lit v) s = .fault (.outAddress s.dec.op)

/-- R184 sub-steps 3 to 7 with R185: a match's fetch part always completes: the bytes are kept, the read position and
the count loaded, and no memory is written. -/
def Obligations.MatchCompletes : Prop :=
  ∀ (s : State) (offLo : Byte) (offHi : BitVec 2) (lencode : BitVec 6),
    ∃ t, exec (.matchTok offLo offHi lencode) s = .next t ∧
      t = { s with dec := { s.dec with
        ip := s.dec.ip + 2, b1 := offLo, b2 := t.dec.b2, rp := t.dec.rp, cnt := t.dec.cnt, phase := .copy } } ∧
      t.dec.b2.toNat = offHi.toNat * 64 + lencode.toNat ∧
      t.dec.rp.toNat = (offHi.toNat * 256 + offLo.toNat + 66) % 1024 ∧
      t.dec.cnt.toNat = lencode.toNat + 3

/-! ### The decoder's steps -/

/-- R162: the header step, whole: a short frame, a bad version, a refused length, a good header. How the refused
call is held is the model's choice (log entry 7). -/
def Obligations.HeaderStepFollowsHdrRead : Prop :=
  ∀ s : State, s.pending = [] → s.turn = .dec → s.decRefused = none → s.dec.phase = .hdr →
    s.dec.ip = 0 → s.dec.op = 0 →
    (s.dec.inLen < 8 → ∃ t, step s = .next t ∧ s.onlyDec t ∧ Dec.faulted .truncatedStream s.dec t.dec ∧
      t.dec.faultIp = 0 ∧ t.dec.faultOp = 0) ∧
    ∀ b0 b1 b2 b3 b4 b5 b6 b7 : Byte,
      s.dec.inByteAt 0 = some b0 → s.dec.inByteAt 1 = some b1 → s.dec.inByteAt 2 = some b2 →
      s.dec.inByteAt 3 = some b3 → s.dec.inByteAt 4 = some b4 → s.dec.inByteAt 5 = some b5 →
      s.dec.inByteAt 6 = some b6 → s.dec.inByteAt 7 = some b7 →
      (be32 b4 b5 b6 b7 ≠ 1#32 → ∃ t, step s = .next t ∧ s.onlyDec t ∧
        Dec.faulted .formatError { s.dec with version := be32 b4 b5 b6 b7 } t.dec) ∧
      (be32 b4 b5 b6 b7 = 1#32 → s.cfg.decMaxOut.toNat < (be32 b0 b1 b2 b3).toNat →
        ∃ t, step s = .next t ∧
          t = { s with decRefused := some (.declaredLengthTooLarge (be32 b0 b1 b2 b3)), turn := t.turn }) ∧
      (be32 b4 b5 b6 b7 = 1#32 → (be32 b0 b1 b2 b3).toNat ≤ s.cfg.decMaxOut.toNat → ∃ t, step s = .next t ∧
        s.onlyDec t ∧ t.dec =
          { s.dec with version := 1#32, outLen := be32 b0 b1 b2 b3, ip := 8, phase := .ctrl })

/-- R141: the control-byte step, whole: done when the output is full, truncated when no byte is left, else the byte is
loaded. -/
def Obligations.ControlByteStepFollowsCtrlFetch : Prop :=
  ∀ s : State, s.pending = [] → s.turn = .dec → s.decRefused = none → s.dec.phase = .ctrl →
    (s.dec.op = s.dec.outLen.toNat → ∃ t, step s = .next t ∧ s.onlyDec t ∧ t.dec = { s.dec with phase := .done }) ∧
    (s.dec.op ≠ s.dec.outLen.toNat → s.dec.inLen ≤ s.dec.ip →
      ∃ t, step s = .next t ∧ s.onlyDec t ∧ Dec.faulted .truncatedStream s.dec t.dec) ∧
    (∀ c, s.dec.op ≠ s.dec.outLen.toNat → s.dec.inByteAt s.dec.ip = some c → ∃ t, step s = .next t ∧ s.onlyDec t ∧
      t.dec = { s.dec with ip := s.dec.ip + 1, ctrl := c, bits := 8#4, phase := .token })

/-- R181: the dispatch: done, next control byte, literal or match, in that order of tests. -/
def Obligations.TokenDispatchFollowsTheFlag : Prop :=
  ∀ s : State, s.pending = [] → s.turn = .dec → s.decRefused = none → s.dec.phase = .token →
    (s.dec.op = s.dec.outLen.toNat → ∃ t, step s = .next t ∧ s.onlyDec t ∧ t.dec = { s.dec with phase := .done }) ∧
    (s.dec.op ≠ s.dec.outLen.toNat → s.dec.bits = 0#4 →
      ∃ t, step s = .next t ∧ s.onlyDec t ∧ t.dec = { s.dec with phase := .ctrl }) ∧
    (∀ v, s.dec.op ≠ s.dec.outLen.toNat → s.dec.bits ≠ 0#4 → s.dec.ctrl.getLsbD 0 = true →
      s.dec.inByteAt s.dec.ip = some v → step s = exec (.lit v) s.passTurn) ∧
    (∀ b1 b2, s.dec.op ≠ s.dec.outLen.toNat → s.dec.bits ≠ 0#4 → s.dec.ctrl.getLsbD 0 = false →
      s.dec.inByteAt s.dec.ip = some b1 → s.dec.inByteAt (s.dec.ip + 1) = some b2 →
      ∃ i rest, decode (.token false) [b1, b2] = .ok (i, rest) ∧ step s = exec i s.passTurn)

/-- R182: the literal's step, whole, where output is owed: truncated with nothing written when no byte is left, else
the byte is produced. -/
def Obligations.LiteralStepFollowsLit : Prop :=
  ∀ s : State, s.pending = [] → s.turn = .dec → s.decRefused = none → s.dec.phase = .token → s.dec.bits ≠ 0#4 →
    s.dec.ctrl.getLsbD 0 = true → s.dec.op < s.dec.outLen.toNat →
    Memory.wf .output s.dec.output → Memory.wf .window s.dec.window →
    (s.dec.inLen ≤ s.dec.ip → ∃ t, step s = .next t ∧ s.onlyDec t ∧ Dec.faulted .truncatedStream s.dec t.dec) ∧
    ∀ v, s.dec.inByteAt s.dec.ip = some v → ∃ t, step s = .next t ∧ s.onlyDec t ∧
      t.dec = { s.dec with
        ip := s.dec.ip + 1, op := s.dec.op + 1, wp := t.dec.wp, ctrl := s.dec.ctrl >>> 1, bits := s.dec.bits - 1#4,
        output := t.dec.output, window := t.dec.window } ∧
      t.dec.wp.toNat = (s.dec.wp.toNat + 1) % 1024 ∧
      (∀ a, t.dec.outByte a = if a = s.dec.op then some v else s.dec.outByte a) ∧
      (∀ a, t.dec.winRead a = if a % 1024 = s.dec.wp.toNat then v else s.dec.winRead a)

/-- R184, R265: the match's fetch, whole: no byte left, only `b1` left (it is loaded and `ip` has moved past it), or
both there. -/
def Obligations.MatchFetchStepIsPrecise : Prop :=
  ∀ s : State, s.pending = [] → s.turn = .dec → s.decRefused = none → s.dec.phase = .token → s.dec.bits ≠ 0#4 →
    s.dec.ctrl.getLsbD 0 = false → s.dec.op ≠ s.dec.outLen.toNat →
    (s.dec.inLen ≤ s.dec.ip → ∃ t, step s = .next t ∧ s.onlyDec t ∧ Dec.faulted .truncatedStream s.dec t.dec) ∧
    (∀ b1, s.dec.inByteAt s.dec.ip = some b1 → s.dec.inLen ≤ s.dec.ip + 1 → ∃ t, step s = .next t ∧ s.onlyDec t ∧
      Dec.faulted .truncatedStream { s.dec with ip := s.dec.ip + 1, b1 := b1 } t.dec ∧
      t.dec.faultIp = s.dec.inLen) ∧
    ∀ b1 b2, s.dec.inByteAt s.dec.ip = some b1 → s.dec.inByteAt (s.dec.ip + 1) = some b2 →
      ∃ t, step s = .next t ∧ s.onlyDec t ∧
        t.dec = { s.dec with
          ip := s.dec.ip + 2, b1 := b1, b2 := b2, rp := t.dec.rp, cnt := t.dec.cnt, phase := .copy } ∧
        t.dec.rp.toNat = (((((b2.toNat &&& 0xC0) <<< 2) ||| b1.toNat) &&& 0x3FF) + 66) % 1024 ∧
        t.dec.cnt.toNat = (b2.toNat &&& 0x3F) + 3

/-- R186, R263: the copy step, whole: closing when nothing is left, `OutputOverrun` when the output is full, else one
byte read at `rp` and written at `op` and `wp`. -/
def Obligations.CopyStepFollowsCopy : Prop :=
  ∀ s : State, s.pending = [] → s.turn = .dec → s.decRefused = none → s.dec.phase = .copy →
    Memory.wf .output s.dec.output → Memory.wf .window s.dec.window →
    (s.dec.cnt = 0#7 → ∃ t, step s = .next t ∧ s.onlyDec t ∧
      t.dec = { s.dec with ctrl := s.dec.ctrl >>> 1, bits := s.dec.bits - 1#4, phase := .token }) ∧
    (s.dec.cnt ≠ 0#7 → s.dec.op = s.dec.outLen.toNat → ∃ t, step s = .next t ∧ s.onlyDec t ∧
      Dec.faulted .outputOverrun s.dec t.dec) ∧
    (s.dec.cnt ≠ 0#7 → s.dec.op < s.dec.outLen.toNat → ∃ t, step s = .next t ∧ s.onlyDec t ∧
      t.dec = { s.dec with
        rp := t.dec.rp, wp := t.dec.wp, op := s.dec.op + 1, cnt := s.dec.cnt - 1#7,
        output := t.dec.output, window := t.dec.window } ∧
      t.dec.rp.toNat = (s.dec.rp.toNat + 1) % 1024 ∧ t.dec.wp.toNat = (s.dec.wp.toNat + 1) % 1024 ∧
      (∀ a, t.dec.outByte a = if a = s.dec.op then some (s.dec.winRead s.dec.rp.toNat) else s.dec.outByte a) ∧
      (∀ a, t.dec.winRead a =
        if a % 1024 = s.dec.wp.toNat then s.dec.winRead s.dec.rp.toNat else s.dec.winRead a))

/-- R187: the closed form of a whole match. With `d` the distance at its start, byte `k` is the window byte that stood
at `rp + (k mod d)` before the match. -/
def Obligations.MatchCopiesWithPeriodTheDistance : Prop :=
  ∀ s : State, s.decoderAlone → s.dec.phase = .copy → Memory.wf .output s.dec.output →
    Memory.wf .window s.dec.window → s.dec.op + s.dec.cnt.toNat ≤ s.dec.outLen.toNat →
    ∃ t, State.reaches s.dec.cnt.toNat s t ∧ t.dec.phase = .copy ∧ t.dec.cnt = 0#7 ∧
      t.dec.op = s.dec.op + s.dec.cnt.toNat ∧ t.dec.ip = s.dec.ip ∧
      (∀ k, k < s.dec.cnt.toNat → t.dec.outByte (s.dec.op + k) =
        some (s.dec.winRead (s.dec.rp.toNat + k % windowDistance s.dec.wp s.dec.rp))) ∧
      (∀ a, a < s.dec.op → t.dec.outByte a = s.dec.outByte a)

/-! ### Faults -/

/-- R264, R265: every entry into `FAULT` is one action: the cause and the cursors recorded, the status `FAULT`; the
window, the output cursor and the input buffer are as they were. -/
def Obligations.FaultEntryRecordsTheCursors : Prop :=
  ∀ s t : State, step s = .next t → s.dec.phase ≠ .fault → t.dec.phase = .fault →
    t.dec.cause ≠ .noFault ∧ t.dec.faultIp = t.dec.ip ∧ t.dec.faultOp = t.dec.op ∧
    t.dec.status.extractLsb' 0 2 = 3#2 ∧ t.dec.status.extractLsb' 2 2 = t.dec.cause.code ∧
    t.decResult = some (.fault t.dec.cause) ∧
    t.dec.op = s.dec.op ∧ t.dec.wp = s.dec.wp ∧ t.dec.window = s.dec.window ∧
    t.dec.input = s.dec.input ∧ t.dec.inLen = s.dec.inLen ∧ t.dec.outLen = s.dec.outLen ∧ t.enc = s.enc

/-- R260 to R263: which fault is taken where, in good states: `FormatError` only at a whole header of another version,
`TruncatedStreamError` only at a short header or, with output owed, at the end of the input, `OutputOverrun` only at a
match with bytes left and the output full. -/
def Obligations.EachCauseHasItsCondition : Prop :=
  ∀ s t : State, s.Ok → step s = .next t → s.dec.phase ≠ .fault → t.dec.phase = .fault →
    (t.dec.cause = .formatError ∧ s.dec.phase = .hdr ∧ 8 ≤ s.dec.inLen ∧ t.dec.version ≠ 1#32 ∧
      t.dec.faultIp = 0 ∧ t.dec.faultOp = 0) ∨
    (t.dec.cause = .truncatedStream ∧ s.dec.phase = .hdr ∧ s.dec.inLen < 8 ∧ t.dec.faultIp = 0 ∧
      t.dec.faultOp = 0) ∨
    (t.dec.cause = .truncatedStream ∧ (s.dec.phase = .ctrl ∨ s.dec.phase = .token) ∧
      s.dec.op < s.dec.outLen.toNat ∧ t.dec.faultIp = s.dec.inLen ∧ t.dec.faultOp = s.dec.op) ∨
    (t.dec.cause = .outputOverrun ∧ s.dec.phase = .copy ∧ s.dec.cnt ≠ 0#7 ∧ s.dec.op = s.dec.outLen.toNat ∧
      t.dec.faultIp = s.dec.ip ∧ t.dec.faultOp = s.dec.outLen.toNat)

/-- R267: `FAULT` is terminal; only the host's start and abort of the decoder leave it. -/
def Obligations.OnlyTheHostLeavesFault : Prop :=
  ∀ s t : State, s.dec.phase = .fault → step s = .next t →
    t.dec = s.dec ∨ (∃ frame cs, s.pending = .decStart frame :: cs ∧ t.dec = Dec.start frame) ∨
      ∃ cs, s.pending = .decAbort :: cs ∧ t.dec = Dec.reset

/-! ### Reset and the host -/

/-- R290, with the values of R54, and R47 to R49: the machine after reset, and what the host reads there. -/
def Obligations.ResetLeavesBothEnginesIdle : Prop :=
  State.reset.dec.phase = .idle ∧ State.reset.dec.ip = 0 ∧ State.reset.dec.outLen = 0#32 ∧
  State.reset.dec.version = 0#32 ∧ State.reset.dec.op = 0 ∧ State.reset.dec.wp = 0#10 ∧
  State.reset.dec.rp = 0#10 ∧ State.reset.dec.ctrl = 0#8 ∧ State.reset.dec.bits = 0#4 ∧
  State.reset.dec.cnt = 0#7 ∧ State.reset.dec.b1 = 0#8 ∧ State.reset.dec.b2 = 0#8 ∧
  State.reset.dec.status = 0#4 ∧ State.reset.dec.faultIp = 0 ∧ State.reset.dec.faultOp = 0 ∧
  (∀ a, State.reset.dec.winRead a = 0#8) ∧
  State.reset.enc.phase = .idle ∧ State.reset.enc.sp = 1024 ∧ State.reset.enc.wo = 0 ∧
  State.reset.enc.inLen = 0#32 ∧ State.reset.enc.acc = 0#8 ∧ State.reset.enc.g = 0#4 ∧
  State.reset.enc.gbuf = [] ∧ State.reset.enc.n = 0#11 ∧ State.reset.enc.curLen = 0#7 ∧
  State.reset.enc.bestLen = 0#7 ∧ State.reset.enc.bestOff = 0#10 ∧ State.reset.enc.stream = [] ∧
  State.reset.enc.status = 0#2 ∧ (∀ a, a < 1024 → State.reset.enc.work a = some 0#8) ∧
  ∀ r : HostRegister, State.reset.hostRead r = 0

/-- The model's reading of "an engine does nothing until the host starts a call" (R290, log entry 9): with both engines
idle, done or in fault, no command, and no refused call of the engine whose turn it is (log entry 7), a step changes
nothing. -/
def Obligations.NothingHappensUntilTheHostStarts : Prop :=
  ∀ s : State, s.pending = [] → s.refusal s.turn = none → s.busy .dec = false → s.busy .enc = false →
    step s = .next s

/-- R50, R291: what `DEC.START` sets, whatever the decoder held before; the encoder goes on as it was. -/
def Obligations.DecoderStartInitialisesTheCall : Prop :=
  ∀ (s : State) (frame : List Byte) (cs : List Command), s.pending = .decStart frame :: cs → s.busy .dec = false →
    ∃ t, step s = .next t ∧ t.pending = cs ∧ t.enc = s.enc ∧ t.cfg = s.cfg ∧
      t.dec.ip = 0 ∧ t.dec.outLen = 0#32 ∧ t.dec.version = 0#32 ∧ t.dec.op = 0 ∧ t.dec.wp = 0#10 ∧
      (∀ a, t.dec.winRead a = 0#8) ∧ t.dec.rp = 0#10 ∧ t.dec.ctrl = 0#8 ∧ t.dec.bits = 0#4 ∧ t.dec.cnt = 0#7 ∧
      t.dec.b1 = 0#8 ∧ t.dec.b2 = 0#8 ∧ t.dec.status = 1#4 ∧ t.dec.faultIp = 0 ∧ t.dec.faultOp = 0 ∧
      t.dec.phase = .hdr ∧ t.dec.inLen = frame.length ∧ (∀ a, t.dec.inByteAt a = frame[a]?)

/-- R50, R292: what `ENC.START` sets, whatever the encoder held before; the decoder goes on as it was. -/
def Obligations.EncoderStartInitialisesTheCall : Prop :=
  ∀ (s : State) (src : List Byte) (cs : List Command), s.pending = .encStart src :: cs → s.busy .enc = false →
    src.length ≤ s.cfg.encMaxIn.toNat →
    ∃ t, step s = .next t ∧ t.pending = cs ∧ t.dec = s.dec ∧ t.cfg = s.cfg ∧
      t.enc.inLen.toNat = src.length ∧ t.enc.sp = 1024 ∧ t.enc.wo = 0 ∧ t.enc.acc = 0#8 ∧ t.enc.g = 0#4 ∧
      t.enc.gbuf = [] ∧ t.enc.n = 0#11 ∧ t.enc.curLen = 0#7 ∧ t.enc.bestLen = 0#7 ∧ t.enc.bestOff = 0#10 ∧
      t.enc.stream = [] ∧ t.enc.status = 1#2 ∧ t.enc.phase = .hdr ∧
      (∀ a, t.enc.work a = if a < 1024 then some 0#8 else src[a - 1024]?)

/-- R50, R302: a start while BUSY is refused, and so is an input longer than `ENC_MAX_IN`: nothing happens but that the
refused call is recorded, and the other engine goes on as it was. Every other start is accepted, and ends a refusal of
its engine alone. How a refused call is held is the model's choice (log entry 7). -/
def Obligations.StartsAreRefusedWhenNotAllowed : Prop :=
  (∀ (s : State) (frame : List Byte) (cs : List Command), s.pending = .decStart frame :: cs → s.busy .dec = true →
    step s = .next { s with pending := cs, decRefused := some (.startWhileBusy .dec) }) ∧
  (∀ (s : State) (src : List Byte) (cs : List Command), s.pending = .encStart src :: cs → s.busy .enc = true →
    step s = .next { s with pending := cs, encRefused := some (.startWhileBusy .enc) }) ∧
  (∀ (s : State) (src : List Byte) (cs : List Command), s.pending = .encStart src :: cs → s.busy .enc = false →
    s.cfg.encMaxIn.toNat < src.length →
    step s = .next { s with pending := cs, encRefused := some (.inputTooLong src.length) }) ∧
  (∀ (s : State) (frame : List Byte) (cs : List Command), s.pending = .decStart frame :: cs → s.busy .dec = false →
    ∃ t, step s = .next t ∧ t.dec.phase = .hdr ∧ t.decRefused = none ∧ t.encRefused = s.encRefused) ∧
  (∀ (s : State) (src : List Byte) (cs : List Command), s.pending = .encStart src :: cs → s.busy .enc = false →
    src.length ≤ s.cfg.encMaxIn.toNat →
    ∃ t, step s = .next t ∧ t.enc.phase = .hdr ∧ t.encRefused = none ∧ t.decRefused = s.decRefused)

/-- R50, R290: `ABORT` returns its engine to the reset state from any state, after a refused call too, delivers nothing,
and leaves the other engine alone. That the buffers go too is the model's choice (log entry 4). -/
def Obligations.AbortReturnsTheEngineToReset : Prop :=
  (∀ (s : State) (cs : List Command), s.pending = .decAbort :: cs →
    ∃ t, step s = .next t ∧ t.dec = State.reset.dec ∧ t.enc = s.enc ∧ t.pending = cs ∧ t.decResult = none ∧
      t.decRefused = none ∧ t.encRefused = s.encRefused) ∧
  (∀ (s : State) (cs : List Command), s.pending = .encAbort :: cs →
    ∃ t, step s = .next t ∧ t.enc = State.reset.enc ∧ t.dec = s.dec ∧ t.pending = cs ∧ t.encResult = none ∧
      t.encRefused = none ∧ t.decRefused = s.decRefused)

/-- R47 to R49: the fields of the two status registers in good states, and what the host reads: the status registers,
the views of the call's registers, the cursors of a fault (0 unless `FAULT`), and the length of `STREAM`. -/
def Obligations.StatusFieldsFollowThePhase : Prop :=
  ∀ s : State, s.Ok →
    (s.dec.status.extractLsb' 0 2 = 0#2 ↔ s.dec.phase = .idle) ∧
    (s.dec.status.extractLsb' 0 2 = 1#2 ↔
      s.dec.phase = .hdr ∨ s.dec.phase = .ctrl ∨ s.dec.phase = .token ∨ s.dec.phase = .copy) ∧
    (s.dec.status.extractLsb' 0 2 = 2#2 ↔ s.dec.phase = .done) ∧
    (s.dec.status.extractLsb' 0 2 = 3#2 ↔ s.dec.phase = .fault) ∧
    (s.dec.status.extractLsb' 2 2 ≠ 0#2 ↔ s.dec.status.extractLsb' 0 2 = 3#2) ∧
    (s.dec.status.extractLsb' 2 2 = 1#2 ↔ s.dec.cause = .formatError) ∧
    (s.dec.status.extractLsb' 2 2 = 2#2 ↔ s.dec.cause = .truncatedStream) ∧
    (s.dec.status.extractLsb' 2 2 = 3#2 ↔ s.dec.cause = .outputOverrun) ∧
    (s.enc.status = 0#2 ↔ s.enc.phase = .idle) ∧
    (s.enc.status = 1#2 ↔
      s.enc.phase = .hdr ∨ s.enc.phase = .search ∨ s.enc.phase = .emit ∨ s.enc.phase = .final) ∧
    (s.enc.status = 2#2 ↔ s.enc.phase = .done) ∧ s.enc.status ≠ 3#2 ∧
    s.hostRead .decStatus = s.dec.status.toNat ∧ s.hostRead .encStatus = s.enc.status.toNat ∧
    s.hostRead .decOutLen = s.dec.outLen.toNat ∧ s.hostRead .decVersion = s.dec.version.toNat ∧
    (s.dec.status.extractLsb' 0 2 = 3#2 →
      s.hostRead .decFaultIp = s.dec.ip ∧ s.hostRead .decFaultOp = s.dec.op) ∧
    (s.dec.status.extractLsb' 0 2 ≠ 3#2 → s.hostRead .decFaultIp = 0 ∧ s.hostRead .decFaultOp = 0) ∧
    s.hostRead .encInLen = s.enc.inLen.toNat ∧ s.hostRead .encOutCnt = s.enc.stream.length

/-! ### The window and the control byte -/

/-- R126: after pushing `ys` onto a reset window, the write cursor is their number modulo 1024, the last 1024 of them
stand each at its number modulo 1024, and every address not yet reached is zero. -/
def Obligations.WindowHoldsTheLastPushedBytes : Prop :=
  ∀ (d : Dec) (ys : List Byte),
    (ys.foldl Dec.winPush d.winReset).wp.toNat = ys.length % 1024 ∧
    (∀ j y, ys[j]? = some y → ys.length ≤ j + 1024 → (ys.foldl Dec.winPush d.winReset).winRead j = y) ∧
    (∀ a, a < 1024 → ys.length ≤ a → (ys.foldl Dec.winPush d.winReset).winRead a = 0#8)

/-- R127: the byte produced `k` positions before the next one stands at `(wp - k) mod 1024`, a zero-seed byte if fewer
were produced; the raw offset `(wp - k - 66) mod 1024` names that address, and its distance is `k`. -/
def Obligations.DistanceNamesTheByteBefore : Prop :=
  ∀ (d : Dec) (ys : List Byte) (k : Nat), 1 ≤ k → k ≤ 1024 →
    (ys.foldl Dec.winPush d.winReset).winRead
        ((ys.foldl Dec.winPush d.winReset).wp.toNat + 1024 - k) =
      (if k ≤ ys.length then ys.getD (ys.length - k) 0#8 else 0#8) ∧
    (∀ wp : Addr10, (readPosition (rawOffsetOfDistance wp k)).toNat = (wp.toNat + 1024 - k) % 1024 ∧
      windowDistance wp (readPosition (rawOffsetOfDistance wp k)) = k)

/-- R144: the parallel form of the unpacker. After `j` shifts `ctrl` is `C >> j`, `8 - j` flags are left, and the flag
seen is lane `j`; payload `j` starts after the payloads before it. On the machine: from the fetch of a control byte `c`
at `ip` on, as long as the steps stay in `TOKEN` and `COPY`, the registers are those of some number `j` of completed
tokens, and `ip` stands at payload `j`, or past it once the match `j` is being copied. -/
def Obligations.UnpackerSeesLaneByLane : Prop :=
  (∀ (d : Dec) (c : Byte) (j : Nat), d.ctrl = c → d.bits = 8#4 → j ≤ 8 →
    (Nat.iterate Dec.ctrlShift j d).ctrl = c >>> j ∧ (Nat.iterate Dec.ctrlShift j d).bits.toNat = 8 - j ∧
    (Nat.iterate Dec.ctrlShift j d).flag = c.getLsbD j ∧
    payloadStart c j = 1 + ((List.range j).map fun i => 2 - (c.getLsbD i).toNat).sum) ∧
  ∀ (s : State) (c : Byte) (k : Nat) (t : State), s.decoderAlone → s.dec.phase = .ctrl →
    s.dec.op ≠ s.dec.outLen.toNat → s.dec.inByteAt s.dec.ip = some c → State.reaches (k + 1) s t →
    (∀ m u, m ≤ k → State.reaches (m + 1) s u → u.dec.phase = .token ∨ u.dec.phase = .copy) →
    ∃ j, j ≤ 8 ∧ t.dec.ctrl = c >>> j ∧ t.dec.bits.toNat = 8 - j ∧ t.dec.flag = c.getLsbD j ∧
      (t.dec.phase = .token → t.dec.ip = s.dec.ip + payloadStart c j) ∧
      (t.dec.phase = .copy → j < 8 ∧ c.getLsbD j = false ∧ t.dec.ip = s.dec.ip + payloadStart c (j + 1))

/-- R147, R150: packing up to eight flags and aligning them puts flag `i` at bit `i` and zeros above; before the
alignment flag `i` of `k` is at bit `8 - k + i`. -/
def Obligations.PackedFlagsComeOutInOrder : Prop :=
  ∀ (e : Enc) (ts : List Bool), e.acc = 0#8 → e.g = 0#4 → 1 ≤ ts.length → ts.length ≤ 8 →
    (ts.foldl Enc.accShiftIn e).g.toNat = ts.length ∧
    (∀ i t, ts[i]? = some t → (ts.foldl Enc.accShiftIn e).acc.getLsbD (8 - ts.length + i) = t) ∧
    (∀ i, i < 8 - ts.length → (ts.foldl Enc.accShiftIn e).acc.getLsbD i = false) ∧
    (∀ i, i < 8 →
      ((ts.foldl Enc.accShiftIn e).acc >>> (8 - ts.length)).getLsbD i = (ts[i]?).getD false)

/-! ### The encoder -/

/-- R166: the encoder's header step. -/
def Obligations.EncoderHeaderStepFollowsHdrWrite : Prop :=
  ∀ s : State, s.pending = [] → s.turn = .enc → s.encRefused = none → s.enc.phase = .hdr →
    ∃ t b0 b1 b2 b3, step s = .next t ∧ s.onlyEnc t ∧ be32 b0 b1 b2 b3 = s.enc.inLen ∧
      t.enc = { s.enc with
        stream := s.enc.stream ++ [b0, b1, b2, b3, 0x00#8, 0x00#8, 0x00#8, 0x01#8], phase := .search }

/-- R211: the search step: the end of the input, or the best match of the position in the registers. The candidate
registers `n` and `curLen`, which R36 calls not observable between searches, are free values in their ranges (log
entry 8). -/
def Obligations.SearchStepLoadsTheBestMatch : Prop :=
  ∀ s : State, s.pending = [] → s.turn = .enc → s.encRefused = none → s.enc.phase = .search →
    (s.enc.sp = 1024 + s.enc.inLen.toNat →
      ∃ t, step s = .next t ∧ s.onlyEnc t ∧ t.enc = { s.enc with phase := .final }) ∧
    (s.enc.sp ≠ 1024 + s.enc.inLen.toNat → ∃ t, step s = .next t ∧ s.onlyEnc t ∧
      t.enc = { s.enc with
        n := t.enc.n, curLen := t.enc.curLen, bestLen := t.enc.bestLen, bestOff := t.enc.bestOff, phase := .emit } ∧
      (t.enc.bestLen.toNat, t.enc.bestOff.toNat) = bestMatch s.enc.source s.enc.inLen.toNat s.enc.sp ∧
      t.enc.n.toNat ≤ 1024 ∧ t.enc.curLen.toNat ≤ 64)

/-- R213: the match length at a candidate is the longest common run within the cap. -/
def Obligations.MatchLengthIsTheLongestRun : Prop :=
  ∀ (src : Memory) (n sp cand : Nat),
    matchLen src n sp cand ≤ min 64 (1024 + n - sp) ∧
    (∀ l, l < matchLen src n sp cand →
      workByte src n (sp - 1024 + cand + l) = workByte src n (sp + l)) ∧
    (matchLen src n sp cand < min 64 (1024 + n - sp) →
      workByte src n (sp - 1024 + cand + matchLen src n sp cand) ≠
        workByte src n (sp + matchLen src n sp cand))

/-- R215, R216: the search returns the longest length, at the smallest candidate that has it, and (0, 0) when no
candidate matches. -/
def Obligations.SearchReturnsTheFirstLongest : Prop :=
  ∀ (src : Memory) (n sp : Nat),
    (∀ c, c < 1024 → matchLen src n sp c ≤ (bestMatch src n sp).1) ∧
    (0 < (bestMatch src n sp).1 → (bestMatch src n sp).2 < 1024 ∧
      matchLen src n sp (bestMatch src n sp).2 = (bestMatch src n sp).1 ∧
      ∀ c, c < (bestMatch src n sp).2 → matchLen src n sp c < (bestMatch src n sp).1) ∧
    ((bestMatch src n sp).1 = 0 → (bestMatch src n sp).2 = 0)

/-- R240 to R242, R148: with a best length of at most 2 the step emits one literal of `W[sp]`, and closes the group if
it was the eighth token. -/
def Obligations.EmitStepWritesALiteral : Prop :=
  ∀ (s : State) (v : Byte), s.pending = [] → s.turn = .enc → s.encRefused = none → s.enc.phase = .emit →
    s.enc.bestLen.toNat ≤ 2 → s.enc.work s.enc.sp = some v →
    ∃ t, step s = .next t ∧ s.onlyEnc t ∧
      (s.enc.g ≠ 7#4 → t.enc = { s.enc with
        acc := (s.enc.acc >>> 1) ||| 0x80#8, g := s.enc.g + 1#4, gbuf := s.enc.gbuf ++ [v], sp := s.enc.sp + 1,
        phase := .search }) ∧
      (s.enc.g = 7#4 → t.enc = { s.enc with
        acc := 0#8, g := 0#4, gbuf := [], sp := s.enc.sp + 1,
        stream := s.enc.stream ++ [(s.enc.acc >>> 1) ||| 0x80#8] ++ s.enc.gbuf ++ [v], phase := .search })

/-- R240, R241, R243, R148: with a best length above 2 the step emits a match of exactly that length, the bytes being
the `MATCH` element of offset `(bestOff + wo - 66) mod 1024`, and closes the group if it was the eighth token. -/
def Obligations.EmitStepWritesAMatch : Prop :=
  ∀ s : State, s.pending = [] → s.turn = .enc → s.encRefused = none → s.enc.phase = .emit →
    2 < s.enc.bestLen.toNat → s.enc.bestLen.toNat ≤ 64 →
    ∃ (t : State) (offset : Addr10) (code : BitVec 6), step s = .next t ∧ s.onlyEnc t ∧
      (offset.toNat : Int) = ((s.enc.bestOff.toNat : Int) + s.enc.wo - 66) % 1024 ∧
      code.toNat + 3 = s.enc.bestLen.toNat ∧
      (s.enc.g ≠ 7#4 → t.enc = { s.enc with
        acc := s.enc.acc >>> 1, g := s.enc.g + 1#4, gbuf := s.enc.gbuf ++ encode (Instr.ofOffset offset code),
        sp := s.enc.sp + s.enc.bestLen.toNat, phase := .search }) ∧
      (s.enc.g = 7#4 → t.enc = { s.enc with
        acc := 0#8, g := 0#4, gbuf := [], sp := s.enc.sp + s.enc.bestLen.toNat,
        stream := s.enc.stream ++ [s.enc.acc >>> 1] ++ s.enc.gbuf ++ encode (Instr.ofOffset offset code),
        phase := .search })

/-- R149, R246: the final step writes no control byte for an empty group, else the aligned control byte and the
payloads, and the call is done. -/
def Obligations.FinalStepFlushesThePartialGroup : Prop :=
  ∀ s : State, s.pending = [] → s.turn = .enc → s.encRefused = none → s.enc.phase = .final →
    ∃ t, step s = .next t ∧ s.onlyEnc t ∧ t.encResult = some (.done t.enc.stream) ∧
      (s.enc.g = 0#4 → t.enc = { s.enc with phase := .done }) ∧
      (s.enc.g ≠ 0#4 → t.enc = { s.enc with
        acc := 0#8, g := 0#4, gbuf := [],
        stream := s.enc.stream ++ [s.enc.acc >>> (8 - s.enc.g.toNat)] ++ s.enc.gbuf, phase := .done })

/-- R221: an encoder on a circular window, into which every byte has been pushed as `sp` passed it, reads the same
working buffer from its window origin on. -/
def Obligations.CircularWindowReadsTheWorkingBuffer : Prop :=
  ∀ (d : Dec) (src : List Byte) (wo a : Nat), wo ≤ src.length → wo ≤ a →
    windowedWorkByte ((src.take wo).foldl Dec.winPush d.winReset).window (memOfBytes .source 0 src) src.length
        (1024 + wo) a =
      workByte (memOfBytes .source 0 src) src.length a

/-! ### The machine as a whole -/

/-- The machine after reset is a good state. `State.Ok` also holds the model's own choices: that no buffer is presented
while an engine is idle (log entry 4), the contents of `OUT` (log entry 3), and the marks of refused calls (log entry
7). -/
def Obligations.ResetIsAGoodState : Prop := State.reset.Ok

/-- R21 to R37, R41, R42, R47, R54, R126, R165: every step keeps the machine good: memories in canonical form,
registers in range, the window a mirror of the last 1024 produced bytes, the encoder's group and search registers
consistent. `State.Ok` also holds the model's own choices named at `ResetIsAGoodState`. -/
def Obligations.EveryStepKeepsTheStateGood : Prop :=
  ∀ s t : State, s.Ok → step s = .next t → t.Ok

/-- R41, R44, R191, R248: in a good state no step stops on an address that does not exist. -/
def Obligations.GoodStatesNeverFault : Prop :=
  ∀ (s : State) (f : Fault), s.Ok → step s ≠ .fault f

/-- R50, R162, R302: nothing is refused but a declared length above `DEC_MAX_OUT`, which the header in `IN` must hold
beside version 1, a waiting start of an engine that is BUSY, and a waiting input above `ENC_MAX_IN`; and the machine
stops on a refused call only at a turn of the refused engine where the other engine has no step to take (R281, log
entry 7). -/
def Obligations.OnlyTheSpecsCallsAreRefused : Prop :=
  (∀ (s : State) (r : Refusal), step s = .refused r →
    s.pending = [] ∧ s.refusal s.turn = some r ∧ s.moves s.turn.other = false) ∧
  (∀ (s t : State) (r : Refusal), step s = .next t → t.decRefused = some r →
    s.decRefused = some r ∨
    (∃ len, r = .declaredLengthTooLarge len ∧ s.pending = [] ∧ s.turn = .dec ∧ s.dec.phase = .hdr ∧
      s.dec.headerHolds len 1#32 ∧ s.cfg.decMaxOut.toNat < len.toNat) ∨
    ∃ frame cs, r = .startWhileBusy .dec ∧ s.pending = .decStart frame :: cs ∧ s.busy .dec = true) ∧
  (∀ (s t : State) (r : Refusal), step s = .next t → t.encRefused = some r →
    s.encRefused = some r ∨
    (∃ src cs, r = .startWhileBusy .enc ∧ s.pending = .encStart src :: cs ∧ s.busy .enc = true) ∨
    ∃ src cs, r = .inputTooLong src.length ∧ s.pending = .encStart src :: cs ∧ s.busy .enc = false ∧
      s.cfg.encMaxIn.toNat < src.length)

/-- R20, R281: no step of one engine changes the other, refused calls included, and no step changes the parameters; and
a refused call of one engine does not stop the other: from a good state the machine has a next state as long as a
command waits or an engine has a step to take, and at the turn of a refused engine the turn passes to the other one if
that has a step to take, and only else the refusal is the answer (log entry 7). -/
def Obligations.EnginesShareNothing : Prop :=
  (∀ s t : State, step s = .next t →
    (s.pending = [] → s.turn = .dec → t.enc = s.enc ∧ t.encRefused = s.encRefused) ∧
    (s.pending = [] → s.turn = .enc → t.dec = s.dec ∧ t.decRefused = s.decRefused) ∧
    (∀ c cs, s.pending = c :: cs →
      t.dec = s.dec ∧ t.decRefused = s.decRefused ∨ t.enc = s.enc ∧ t.encRefused = s.encRefused) ∧ t.cfg = s.cfg) ∧
  (∀ s : State, s.Ok → s.pending ≠ [] ∨ s.moves .dec = true ∨ s.moves .enc = true → ∃ t, step s = .next t) ∧
  ∀ (s : State) (r : Refusal), s.pending = [] → s.refusal s.turn = some r →
    (s.moves s.turn.other = true → step s = .next { s with turn := s.turn.other }) ∧
    (s.moves s.turn.other = false → step s = .refused r)

/-- R20, R75, R281: what an engine's step does to it depends on that engine and the parameters alone, whatever the other
engine holds, and whether or not a call of the other engine was refused. -/
def Obligations.EachEngineSeesOnlyItself : Prop :=
  (∀ s s' t : State, s.pending = [] → s'.pending = [] → s.turn = .dec → s'.turn = .dec →
    s.decRefused = none → s'.decRefused = none → s.dec = s'.dec → s.cfg = s'.cfg → step s = .next t →
    ∃ t', step s' = .next t' ∧ t.dec = t'.dec ∧ t.decRefused = t'.decRefused) ∧
  (∀ s s' t : State, s.pending = [] → s'.pending = [] → s.turn = .enc → s'.turn = .enc →
    s.encRefused = none → s'.encRefused = none → s.enc = s'.enc → s.cfg = s'.cfg → step s = .next t →
    ∃ t', step s' = .next t' ∧ t.enc = t'.enc ∧ t.encRefused = t'.encRefused)

/-- R13, R41, R45, R61, R77, R200: within a call the cursors only move forward, no step writes an input buffer, a byte
of `OUT` once written stays until a fault, and `STREAM` only grows at its end. -/
def Obligations.CursorsOnlyMoveForward : Prop :=
  ∀ s t : State, s.Ok → s.pending = [] → step s = .next t →
    s.dec.ip ≤ t.dec.ip ∧ s.dec.op ≤ t.dec.op ∧ s.enc.sp ≤ t.enc.sp ∧
    t.dec.input = s.dec.input ∧ t.dec.inLen = s.dec.inLen ∧ t.enc.source = s.enc.source ∧
    t.enc.inLen = s.enc.inLen ∧
    (t.dec.phase ≠ .fault → ∀ a, a < s.dec.op → t.dec.outByte a = s.dec.outByte a) ∧
    ∃ more, t.enc.stream = s.enc.stream ++ more

/-- R191, R281: every decode call ends, whatever the encoder does meanwhile, and whether or not a call of it was
refused: from a good state with no command and the decoder BUSY, its call not refused, the machine comes to `DONE`, to
`FAULT`, or to the refusal of the declared length. -/
def Obligations.EveryDecodeCallEnds : Prop :=
  ∀ s : State, s.Ok → s.pending = [] → s.decRefused = none → s.busy .dec = true →
    ∃ k t, State.reaches k s t ∧ (t.dec.phase = .done ∨ t.dec.phase = .fault ∨
      ∃ len, t.decRefused = some (.declaredLengthTooLarge len))

/-- R190: the step machine equals the loop form: the same bytes and final input cursor, the same fault, or the same
refusal, for every frame. -/
def Obligations.DecoderEqualsItsLoopForm : Prop :=
  ∀ (s : State) (frame : List Byte), s.pending = [.decStart frame] → s.turn = .dec → s.busy .dec = false →
    s.moves .enc = false →
    (∀ bytes ip, loopDecode s.cfg.decMaxOut frame = .done bytes ip →
      ∃ k t, State.reaches k s t ∧ t.decResult = some (.done bytes) ∧ t.dec.ip = ip) ∧
    (∀ c, loopDecode s.cfg.decMaxOut frame = .fault c →
      ∃ k t, State.reaches k s t ∧ t.decResult = some (.fault c)) ∧
    (∀ len, loopDecode s.cfg.decMaxOut frame = .refused len →
      ∃ k, Host.Core.run Sys2Proof.core k s = .refused (.declaredLengthTooLarge len))

/-- R247, R248 (a): the encoder's step machine ends with the frame of its loop form, for every accepted input. -/
def Obligations.EncoderEqualsItsLoopForm : Prop :=
  ∀ (s : State) (src : List Byte), s.pending = [.encStart src] → s.turn = .enc → s.busy .enc = false →
    s.moves .dec = false → src.length ≤ s.cfg.encMaxIn.toNat →
    ∃ k t, State.reaches k s t ∧ t.encResult = some (.done (loopEncode src))

/-- R104, D10, of the loop form of R190 (`DecoderEqualsItsLoopForm` carries it to the machine): bytes after the last one
needed are never read: a frame that the loop form decodes it decodes with any bytes appended, to the same output and
final input cursor. -/
def Obligations.TrailingBytesAreNeverRead : Prop :=
  ∀ (decMaxOut : Word32) (frame bytes junk : List Byte) (ip : Nat),
    loopDecode decMaxOut frame = .done bytes ip → loopDecode decMaxOut (frame ++ junk) = .done bytes ip

/-- R249, R45, of the loop form of R247 (`EncoderEqualsItsLoopForm` carries it to the machine): its frame is at most
`8 + N + ceil(N / 8)` bytes, and at least a header. -/
def Obligations.FrameSizeIsBounded : Prop :=
  ∀ src : List Byte, 8 ≤ (loopEncode src).length ∧
    (loopEncode src).length ≤ 8 + src.length + (src.length + 7) / 8

/-- R248 (c): decoding what the encoder produced gives the input back, never a fault, with the final input cursor at
the end of the frame. -/
def Obligations.DecodingAnEncodedInputGivesItBack : Prop :=
  ∀ (s : State) (src : List Byte), s.pending = [.encStart src] → s.turn = .enc → s.busy .enc = false →
    s.moves .dec = false → src.length ≤ s.cfg.encMaxIn.toNat → src.length ≤ s.cfg.decMaxOut.toNat →
    ∃ k t frame, State.reaches k s t ∧ t.encResult = some (.done frame) ∧
      ∀ r : State, r.pending = [.decStart frame] → r.turn = .dec → r.busy .dec = false → r.moves .enc = false →
        r.cfg = s.cfg →
        ∃ k' t', State.reaches k' r t' ∧ t'.decResult = some (.done src) ∧ t'.dec.ip = frame.length
end

