-- ==== Sys2Proof/Laws/Encoder.lean ====
section
/-! SUPPORT. One lemma per shared operation of the encoder that says once what it can do. -/

namespace Sys2Proof.Machine

open Sys2Proof

/-- A byte of `W` exists exactly below `1024 + N` (R44). -/
theorem workByte_isSome {src : Memory} {n a : Nat} (h : (workByte src n a).isSome) : a < windowSize + n := by
  unfold workByte at h
  split at h
  · next h' => exact Nat.lt_of_lt_of_le h' (Nat.le_add_right _ _)
  · split at h
    · assumption
    · cases h

/-- The registers after a search hold the pair it found, if that is in their ranges (R37, R214). -/
theorem loadSearch_best (e : Enc) (best : Nat × Nat) (hl : best.1 ≤ encMaxMatch)
    (ho : best.2 < windowSize) :
    (((e.loadSearch best).bestLen.toNat, (e.loadSearch best).bestOff.toNat) : Nat × Nat) = best := by
  obtain ⟨len, off⟩ := best
  simp only [encMaxMatch, windowSize] at hl ho
  show ((BitVec.ofNat 7 len).toNat, (BitVec.ofNat 10 off).toNat) = (len, off)
  rw [BitVec.toNat_ofNat, BitVec.toNat_ofNat, Nat.mod_eq_of_lt (by omega), Nat.mod_eq_of_lt (by omega)]

/-- The free values of a search stay in the ranges of R36. -/
theorem loadSearch_temporaries (e : Enc) (best : Nat × Nat) :
    (e.loadSearch best).n.toNat ≤ windowSize ∧ (e.loadSearch best).curLen.toNat ≤ encMaxMatch := by
  have hn := (Config.freeCandidate e.source e.inLen.toNat e.sp).isLt
  have hl := (Config.freeRunLength e.source e.inLen.toNat e.sp).isLt
  simp only [Enc.loadSearch, BitVec.toNat_ofNat, windowSize, encMaxMatch]
  omega

/-- A token counts one more while the group has room (R34, R146). -/
theorem accShiftIn_count (e : Enc) (isLit : Bool) (h : e.g.toNat < groupSize) :
    (e.accShiftIn isLit).g.toNat = e.g.toNat + 1 := by
  simp only [groupSize] at h
  show (e.g + 1#4).toNat = _
  rw [BitVec.toNat_add]
  simp only [BitVec.toNat_ofNat]
  omega

/-- The end of a token: a full group is closed, an open one is left as it is; the next search follows (R241). -/
theorem endToken_cases (e : Enc) :
    (e.g = 8#4 ∧ e.endToken =
      { e with stream := e.stream ++ e.acc :: e.gbuf, acc := 0#8, g := 0#4, gbuf := [], phase := .search }) ∨
    (e.g ≠ 8#4 ∧ e.endToken = { e with phase := .search }) := by
  by_cases h : e.g = 8#4
  · refine .inl ⟨h, ?_⟩
    simp only [Enc.endToken, groupSize, h, if_true, Enc.groupClose]
  · refine .inr ⟨h, ?_⟩
    simp only [Enc.endToken, groupSize, h, if_false]

/-- The final step: nothing for an empty group, else the aligned control byte and the payloads (R149, R246). -/
theorem finalStep_cases (e : Enc) :
    (e.g = 0#4 ∧ e.finalStep = { e with phase := .done }) ∨
    (e.g ≠ 0#4 ∧ e.finalStep =
      { e with
          stream := e.stream ++ (e.acc >>> (groupSize - e.g.toNat)) :: e.gbuf, acc := 0#8, g := 0#4, gbuf := [],
          phase := .done }) := by
  by_cases h : e.g = 0#4
  · exact .inl ⟨h, by simp only [Enc.finalStep, Enc.finalClose, h, if_true]⟩
  · exact .inr ⟨h, by simp only [Enc.finalStep, Enc.finalClose, h, if_false, Enc.groupClose]⟩

end Sys2Proof.Machine
end

