-- ==== Sys2Proof/Laws/Memory.lean ====
section
/-! SUPPORT. The laws of memory: a read after a write, the canonical form kept by every operation, and a memory in that
form determined by what it reads as. -/

namespace Sys2Proof.Machine

open Sys2Proof

theorem memWf_nil (sp : Space) : Memory.wf sp [] := ⟨List.Pairwise.nil, by simp⟩

/-- The form of a memory, cell by cell. -/
theorem memWf_cons {sp : Space} {b : Nat} {w : Byte} {m : Memory} :
    Memory.wf sp ((b, w) :: m) ↔ (∀ c ∈ m, b < c.1) ∧ sp.unlisted ≠ some w ∧ Memory.wf sp m := by
  simp [Memory.wf, List.pairwise_cons]
  tauto

theorem memRead_below {sp : Space} {m : Memory} {a : Nat} (h : ∀ c ∈ m, a < c.1) :
    memRead sp m a = sp.unlisted := by
  cases m with
  | nil => rfl
  | cons c m => simp [memRead, h c (by simp)]

/-- An address that is not listed reads as an unlisted one. -/
theorem memRead_notListed {sp : Space} {m : Memory} {a : Nat} (h : ∀ c ∈ m, c.1 ≠ a) :
    memRead sp m a = sp.unlisted := by
  induction m with
  | nil => rfl
  | cons c m ih =>
    have hc : a ≠ c.1 := fun e => h c (by simp) e.symm
    simp only [memRead, hc, if_false]
    rw [ih (fun c' hc' => h c' (by simp [hc'])), ite_self]

theorem mem_memWrite {sp : Space} {m : Memory} {a : Nat} {v : Byte} {c : Host.Cell}
    (h : c ∈ memWrite sp m a v) : c ∈ m ∨ c = (a, v) := by
  induction m with
  | nil =>
    simp only [memWrite] at h
    split at h <;> simp_all
  | cons d m ih =>
    obtain ⟨b, w⟩ := d
    simp only [memWrite] at h
    split at h
    · split at h <;> simp_all; tauto
    · split at h
      · split at h <;> simp_all; tauto
      · simp only [List.mem_cons] at h ⊢
        rcases h with h | h
        · exact .inl (.inl h)
        · exact (ih h).imp .inr id

/-- A write keeps the canonical form. -/
theorem memWrite_wf {sp : Space} {m : Memory} (a : Nat) (v : Byte) (h : Memory.wf sp m) :
    Memory.wf sp (memWrite sp m a v) := by
  induction m with
  | nil =>
    simp only [memWrite]
    split
    · exact memWf_nil sp
    · next hv => exact memWf_cons.2 ⟨by simp, hv, memWf_nil sp⟩
  | cons d m ih =>
    obtain ⟨b, w⟩ := d
    obtain ⟨hb, hw, hm⟩ := memWf_cons.1 h
    simp only [memWrite]
    split
    · next hab =>
      split
      · exact h
      · next hv =>
        refine memWf_cons.2 ⟨fun c hc => ?_, hv, h⟩
        rcases List.mem_cons.1 hc with rfl | hc
        · exact hab
        · exact lt_trans hab (hb c hc)
    · split
      · next hab =>
        subst hab
        split
        · exact hm
        · next hv => exact memWf_cons.2 ⟨hb, hv, hm⟩
      · next h1 h2 =>
        refine memWf_cons.2 ⟨fun c hc => ?_, hw, ih hm⟩
        rcases mem_memWrite hc with hc | rfl
        · exact hb c hc
        · show b < a
          omega

/-- A read of the address just written gives the byte written. -/
theorem memRead_memWrite_same {sp : Space} {m : Memory} (a : Nat) (v : Byte) (h : Memory.wf sp m) :
    memRead sp (memWrite sp m a v) a = some v := by
  induction m with
  | nil =>
    simp only [memWrite]
    split <;> simp_all [memRead]
  | cons d m ih =>
    obtain ⟨b, w⟩ := d
    obtain ⟨hb, hw, hm⟩ := memWf_cons.1 h
    simp only [memWrite]
    split
    · next hab => split <;> simp_all [memRead]
    · split
      · next hab =>
        subst hab
        split
        · next hv => rw [memRead_below hb, hv]
        · simp [memRead]
      · next h1 h2 => simp [memRead, h1, h2, ih hm]

/-- A read of any other address gives what it gave before. -/
theorem memRead_memWrite_ne {sp : Space} {m : Memory} {a b : Nat} (v : Byte) (h : Memory.wf sp m) (hne : b ≠ a) :
    memRead sp (memWrite sp m a v) b = memRead sp m b := by
  induction m with
  | nil =>
    simp only [memWrite]
    split <;> simp [memRead, hne]
  | cons d m ih =>
    obtain ⟨e, w⟩ := d
    obtain ⟨hb, hw, hm⟩ := memWf_cons.1 h
    simp only [memWrite]
    split
    · next hab =>
      split
      · rfl
      · simp only [memRead, hne, if_false]
        split
        · next hba =>
          have : b < e := by omega
          simp [this]
        · rfl
    · split
      · next hab =>
        subst hab
        split
        · simp only [memRead, hne, if_false]
          split
          · next hba => exact memRead_below fun c hc => lt_trans hba (hb c hc)
          · rfl
        · simp [memRead, hne]
      · simp only [memRead, ih hm]

/-- Reading after writing, said once. -/
theorem memRead_memWrite {sp : Space} {m : Memory} (a b : Nat) (v : Byte) (h : Memory.wf sp m) :
    memRead sp (memWrite sp m a v) b = if b = a then some v else memRead sp m b := by
  split
  · next hab => subst hab; exact memRead_memWrite_same b v h
  · next hab => exact memRead_memWrite_ne v h hab

theorem memWriteBytes_wf {sp : Space} (vs : List Byte) :
    ∀ {m : Memory} (a : Nat), Memory.wf sp m → Memory.wf sp (memWriteBytes sp m a vs) := by
  induction vs with
  | nil => intro m a h; exact h
  | cons v vs ih => intro m a h; exact ih (a + 1) (memWrite_wf a v h)

theorem mem_memOfBytes {sp : Space} {vs : List Byte} : ∀ {a : Nat} {c : Host.Cell},
    c ∈ memOfBytes sp a vs → a ≤ c.1 ∧ c.1 < a + vs.length := by
  induction vs with
  | nil => intro a c h; simp [memOfBytes] at h
  | cons v vs ih =>
    intro a c h
    simp only [memOfBytes] at h
    simp only [List.length_cons]
    split at h
    · have := ih h; omega
    · rcases List.mem_cons.1 h with rfl | h
      · exact ⟨le_refl _, by simp⟩
      · have := ih h; omega

/-- The memory of a presented buffer is in canonical form. -/
theorem memOfBytes_wf (sp : Space) (vs : List Byte) : ∀ a : Nat, Memory.wf sp (memOfBytes sp a vs) := by
  induction vs with
  | nil => intro a; exact memWf_nil sp
  | cons v vs ih =>
    intro a
    simp only [memOfBytes]
    split
    · exact ih (a + 1)
    · next hv =>
      refine memWf_cons.2 ⟨fun c hc => ?_, hv, ih (a + 1)⟩
      have := (mem_memOfBytes hc).1
      omega

/-- The memory of a presented buffer reads as the buffer inside it, and as an unlisted address outside. -/
theorem memRead_memOfBytes (sp : Space) (vs : List Byte) : ∀ a b : Nat,
    memRead sp (memOfBytes sp a vs) b =
      if a ≤ b ∧ b < a + vs.length then vs[b - a]? else sp.unlisted := by
  induction vs with
  | nil => intro a b; simp [memOfBytes, memRead]
  | cons v vs ih =>
    intro a b
    have hlow : memRead sp (memOfBytes sp (a + 1) vs) a = sp.unlisted :=
      memRead_below fun c hc => (mem_memOfBytes hc).1
    by_cases hab : b = a
    · subst hab
      simp only [memOfBytes]
      split
      · next hv => simp [hlow, hv]
      · simp [memRead]
    · have hstep : memRead sp (memOfBytes sp a (v :: vs)) b = memRead sp (memOfBytes sp (a + 1) vs) b := by
        simp only [memOfBytes]
        split
        · rfl
        · simp only [memRead, hab, if_false]
          split
          · next hba => exact (memRead_below fun c hc => by have := (mem_memOfBytes hc).1; omega).symm
          · rfl
      rw [hstep, ih]
      simp only [List.length_cons]
      by_cases h1 : a + 1 ≤ b ∧ b < a + 1 + vs.length
      · rw [if_pos h1, if_pos (by omega)]
        obtain ⟨k, rfl⟩ : ∃ k, b = a + 1 + k := ⟨b - (a + 1), by omega⟩
        simp [show a + 1 + k - a = k + 1 by omega]
      · rw [if_neg h1, if_neg (by omega)]

/-- A space whose unlisted addresses hold a byte reads as a byte everywhere. -/
theorem memRead_isSome {sp : Space} (m : Memory) (a : Nat) (h : sp.unlisted.isSome) : (memRead sp m a).isSome := by
  induction m with
  | nil => exact h
  | cons c m ih =>
    simp only [memRead]
    split
    · exact h
    · split
      · rfl
      · exact ih

theorem memRead_listed {sp : Space} {m : Memory} {c : Host.Cell} (h : Memory.wf sp m) (hc : c ∈ m) :
    memRead sp m c.1 = some c.2 := by
  induction m with
  | nil => simp at hc
  | cons d m ih =>
    obtain ⟨b, w⟩ := d
    obtain ⟨hb, hw, hm⟩ := memWf_cons.1 h
    rcases List.mem_cons.1 hc with rfl | hc
    · simp [memRead]
    · have := hb c hc
      simp [memRead, ih hm hc, show ¬ c.1 < b by omega, show ¬ c.1 = b by omega]

/-- Two memories in canonical form that read alike everywhere are equal. -/
theorem memory_ext {sp : Space} : ∀ {m m' : Memory}, Memory.wf sp m → Memory.wf sp m' →
    (∀ a, memRead sp m a = memRead sp m' a) → m = m' := by
  intro m
  induction m with
  | nil =>
    intro m' _ h' h
    cases m' with
    | nil => rfl
    | cons c m' =>
      have := h c.1
      rw [memRead_listed h' (by simp)] at this
      exact absurd this ((memWf_cons.1 h').2.1)
  | cons d m ih =>
    intro m' hw h' h
    obtain ⟨b, w⟩ := d
    obtain ⟨hb, hbw, hm⟩ := memWf_cons.1 hw
    cases m' with
    | nil =>
      have := h b
      rw [memRead_listed hw (by simp : (b, w) ∈ (b, w) :: m)] at this
      exact absurd this.symm hbw
    | cons e m' =>
      obtain ⟨b', w'⟩ := e
      obtain ⟨hb', hbw', hm'⟩ := memWf_cons.1 h'
      have h1 := h b
      have h2 := h b'
      rw [memRead_listed hw (by simp : (b, w) ∈ (b, w) :: m)] at h1
      rw [memRead_listed h' (by simp : (b', w') ∈ (b', w') :: m')] at h2
      have hbb : b = b' := by
        rcases lt_trichotomy b b' with hlt | heq | hgt
        · exact absurd (by simpa [memRead, hlt] using h1.symm) hbw
        · exact heq
        · exact absurd (by simpa [memRead, hgt] using h2) hbw'
      subst hbb
      have hww : w = w' := by simpa [memRead] using h1
      subst hww
      have : m = m' := ih hm hm' fun a => by
        by_cases hlt : a ≤ b
        · rw [memRead_below fun c hc => lt_of_le_of_lt hlt (hb c hc),
            memRead_below fun c hc => lt_of_le_of_lt hlt (hb' c hc)]
        · have := h a
          simpa [memRead, show ¬ a < b by omega, show ¬ a = b by omega] using this
      rw [this]

/-- The memories after reset are in canonical form. -/
theorem reset_memories_wf :
    Memory.wf .input State.reset.dec.input ∧ Memory.wf .output State.reset.dec.output ∧
      Memory.wf .window State.reset.dec.window ∧ Memory.wf .source State.reset.enc.source := by
  decide

end Sys2Proof.Machine
end

