-- ==== Sys2Proof/Laws/State.lean ====
section
/-! SUPPORT. One lemma per field per update of the state's records, each true by unfolding, so that no later proof
unfolds an update. -/

namespace Sys2Proof.Machine

open Sys2Proof

/-! ### `State.setDec`, `State.setEnc` -/

@[simp] theorem State.setDec_dec (s : State) (d : Dec) : (s.setDec d).dec = d := rfl
@[simp] theorem State.setDec_enc (s : State) (d : Dec) : (s.setDec d).enc = s.enc := rfl
@[simp] theorem State.setDec_pending (s : State) (d : Dec) : (s.setDec d).pending = s.pending := rfl
@[simp] theorem State.setDec_turn (s : State) (d : Dec) : (s.setDec d).turn = s.turn := rfl
@[simp] theorem State.setDec_cfg (s : State) (d : Dec) : (s.setDec d).cfg = s.cfg := rfl
@[simp] theorem State.setEnc_dec (s : State) (e : Enc) : (s.setEnc e).dec = s.dec := rfl
@[simp] theorem State.setEnc_enc (s : State) (e : Enc) : (s.setEnc e).enc = e := rfl
@[simp] theorem State.setEnc_pending (s : State) (e : Enc) : (s.setEnc e).pending = s.pending := rfl
@[simp] theorem State.setEnc_turn (s : State) (e : Enc) : (s.setEnc e).turn = s.turn := rfl
@[simp] theorem State.setEnc_cfg (s : State) (e : Enc) : (s.setEnc e).cfg = s.cfg := rfl
@[simp] theorem State.setDec_decRefused (s : State) (d : Dec) : (s.setDec d).decRefused = s.decRefused := rfl
@[simp] theorem State.setDec_encRefused (s : State) (d : Dec) : (s.setDec d).encRefused = s.encRefused := rfl
@[simp] theorem State.setEnc_decRefused (s : State) (e : Enc) : (s.setEnc e).decRefused = s.decRefused := rfl
@[simp] theorem State.setEnc_encRefused (s : State) (e : Enc) : (s.setEnc e).encRefused = s.encRefused := rfl

/-! ### `State.refuse`, `State.beginDec`, `State.beginEnc` -/

@[simp] theorem State.refuse_dec_dec (s : State) (r : Refusal) : (s.refuse .dec r).dec = s.dec := rfl
@[simp] theorem State.refuse_dec_enc (s : State) (r : Refusal) : (s.refuse .dec r).enc = s.enc := rfl
@[simp] theorem State.refuse_dec_pending (s : State) (r : Refusal) : (s.refuse .dec r).pending = s.pending := rfl
@[simp] theorem State.refuse_dec_turn (s : State) (r : Refusal) : (s.refuse .dec r).turn = s.turn := rfl
@[simp] theorem State.refuse_dec_decRefused (s : State) (r : Refusal) : (s.refuse .dec r).decRefused = some r := rfl
@[simp] theorem State.refuse_dec_encRefused (s : State) (r : Refusal) : (s.refuse .dec r).encRefused = s.encRefused := rfl
@[simp] theorem State.refuse_dec_cfg (s : State) (r : Refusal) : (s.refuse .dec r).cfg = s.cfg := rfl
@[simp] theorem State.refuse_enc_dec (s : State) (r : Refusal) : (s.refuse .enc r).dec = s.dec := rfl
@[simp] theorem State.refuse_enc_enc (s : State) (r : Refusal) : (s.refuse .enc r).enc = s.enc := rfl
@[simp] theorem State.refuse_enc_pending (s : State) (r : Refusal) : (s.refuse .enc r).pending = s.pending := rfl
@[simp] theorem State.refuse_enc_turn (s : State) (r : Refusal) : (s.refuse .enc r).turn = s.turn := rfl
@[simp] theorem State.refuse_enc_decRefused (s : State) (r : Refusal) : (s.refuse .enc r).decRefused = s.decRefused := rfl
@[simp] theorem State.refuse_enc_encRefused (s : State) (r : Refusal) : (s.refuse .enc r).encRefused = some r := rfl
@[simp] theorem State.refuse_enc_cfg (s : State) (r : Refusal) : (s.refuse .enc r).cfg = s.cfg := rfl
@[simp] theorem State.beginDec_dec (s : State) (d : Dec) : (s.beginDec d).dec = d := rfl
@[simp] theorem State.beginDec_enc (s : State) (d : Dec) : (s.beginDec d).enc = s.enc := rfl
@[simp] theorem State.beginDec_pending (s : State) (d : Dec) : (s.beginDec d).pending = s.pending := rfl
@[simp] theorem State.beginDec_turn (s : State) (d : Dec) : (s.beginDec d).turn = s.turn := rfl
@[simp] theorem State.beginDec_decRefused (s : State) (d : Dec) : (s.beginDec d).decRefused = none := rfl
@[simp] theorem State.beginDec_encRefused (s : State) (d : Dec) : (s.beginDec d).encRefused = s.encRefused := rfl
@[simp] theorem State.beginDec_cfg (s : State) (d : Dec) : (s.beginDec d).cfg = s.cfg := rfl
@[simp] theorem State.beginEnc_dec (s : State) (e : Enc) : (s.beginEnc e).dec = s.dec := rfl
@[simp] theorem State.beginEnc_enc (s : State) (e : Enc) : (s.beginEnc e).enc = e := rfl
@[simp] theorem State.beginEnc_pending (s : State) (e : Enc) : (s.beginEnc e).pending = s.pending := rfl
@[simp] theorem State.beginEnc_turn (s : State) (e : Enc) : (s.beginEnc e).turn = s.turn := rfl
@[simp] theorem State.beginEnc_decRefused (s : State) (e : Enc) : (s.beginEnc e).decRefused = s.decRefused := rfl
@[simp] theorem State.beginEnc_encRefused (s : State) (e : Enc) : (s.beginEnc e).encRefused = none := rfl
@[simp] theorem State.beginEnc_cfg (s : State) (e : Enc) : (s.beginEnc e).cfg = s.cfg := rfl

/-! ### `CTRL_SHIFT` -/

@[simp] theorem Dec.ctrlShift_phase (d : Dec) : (d.ctrlShift).phase = d.phase := rfl
@[simp] theorem Dec.ctrlShift_ip (d : Dec) : (d.ctrlShift).ip = d.ip := rfl
@[simp] theorem Dec.ctrlShift_outLen (d : Dec) : (d.ctrlShift).outLen = d.outLen := rfl
@[simp] theorem Dec.ctrlShift_version (d : Dec) : (d.ctrlShift).version = d.version := rfl
@[simp] theorem Dec.ctrlShift_op (d : Dec) : (d.ctrlShift).op = d.op := rfl
@[simp] theorem Dec.ctrlShift_wp (d : Dec) : (d.ctrlShift).wp = d.wp := rfl
@[simp] theorem Dec.ctrlShift_rp (d : Dec) : (d.ctrlShift).rp = d.rp := rfl
@[simp] theorem Dec.ctrlShift_ctrl (d : Dec) : (d.ctrlShift).ctrl = d.ctrl >>> 1 := rfl
@[simp] theorem Dec.ctrlShift_bits (d : Dec) : (d.ctrlShift).bits = d.bits - 1#4 := rfl
@[simp] theorem Dec.ctrlShift_cnt (d : Dec) : (d.ctrlShift).cnt = d.cnt := rfl
@[simp] theorem Dec.ctrlShift_b1 (d : Dec) : (d.ctrlShift).b1 = d.b1 := rfl
@[simp] theorem Dec.ctrlShift_b2 (d : Dec) : (d.ctrlShift).b2 = d.b2 := rfl
@[simp] theorem Dec.ctrlShift_cause (d : Dec) : (d.ctrlShift).cause = d.cause := rfl
@[simp] theorem Dec.ctrlShift_faultIp (d : Dec) : (d.ctrlShift).faultIp = d.faultIp := rfl
@[simp] theorem Dec.ctrlShift_faultOp (d : Dec) : (d.ctrlShift).faultOp = d.faultOp := rfl
@[simp] theorem Dec.ctrlShift_inLen (d : Dec) : (d.ctrlShift).inLen = d.inLen := rfl
@[simp] theorem Dec.ctrlShift_input (d : Dec) : (d.ctrlShift).input = d.input := rfl
@[simp] theorem Dec.ctrlShift_output (d : Dec) : (d.ctrlShift).output = d.output := rfl
@[simp] theorem Dec.ctrlShift_window (d : Dec) : (d.ctrlShift).window = d.window := rfl

/-! ### `WIN_RESET` -/

@[simp] theorem Dec.winReset_phase (d : Dec) : (d.winReset).phase = d.phase := rfl
@[simp] theorem Dec.winReset_ip (d : Dec) : (d.winReset).ip = d.ip := rfl
@[simp] theorem Dec.winReset_outLen (d : Dec) : (d.winReset).outLen = d.outLen := rfl
@[simp] theorem Dec.winReset_version (d : Dec) : (d.winReset).version = d.version := rfl
@[simp] theorem Dec.winReset_op (d : Dec) : (d.winReset).op = d.op := rfl
@[simp] theorem Dec.winReset_wp (d : Dec) : (d.winReset).wp = 0#10 := rfl
@[simp] theorem Dec.winReset_rp (d : Dec) : (d.winReset).rp = d.rp := rfl
@[simp] theorem Dec.winReset_ctrl (d : Dec) : (d.winReset).ctrl = d.ctrl := rfl
@[simp] theorem Dec.winReset_bits (d : Dec) : (d.winReset).bits = d.bits := rfl
@[simp] theorem Dec.winReset_cnt (d : Dec) : (d.winReset).cnt = d.cnt := rfl
@[simp] theorem Dec.winReset_b1 (d : Dec) : (d.winReset).b1 = d.b1 := rfl
@[simp] theorem Dec.winReset_b2 (d : Dec) : (d.winReset).b2 = d.b2 := rfl
@[simp] theorem Dec.winReset_cause (d : Dec) : (d.winReset).cause = d.cause := rfl
@[simp] theorem Dec.winReset_faultIp (d : Dec) : (d.winReset).faultIp = d.faultIp := rfl
@[simp] theorem Dec.winReset_faultOp (d : Dec) : (d.winReset).faultOp = d.faultOp := rfl
@[simp] theorem Dec.winReset_inLen (d : Dec) : (d.winReset).inLen = d.inLen := rfl
@[simp] theorem Dec.winReset_input (d : Dec) : (d.winReset).input = d.input := rfl
@[simp] theorem Dec.winReset_output (d : Dec) : (d.winReset).output = d.output := rfl
@[simp] theorem Dec.winReset_window (d : Dec) : (d.winReset).window = [] := rfl

/-! ### `WIN_WRITE` -/

@[simp] theorem Dec.winWrite_phase (d : Dec) (pos : Nat) (v : Byte) : (d.winWrite pos v).phase = d.phase := rfl
@[simp] theorem Dec.winWrite_ip (d : Dec) (pos : Nat) (v : Byte) : (d.winWrite pos v).ip = d.ip := rfl
@[simp] theorem Dec.winWrite_outLen (d : Dec) (pos : Nat) (v : Byte) : (d.winWrite pos v).outLen = d.outLen := rfl
@[simp] theorem Dec.winWrite_version (d : Dec) (pos : Nat) (v : Byte) : (d.winWrite pos v).version = d.version := rfl
@[simp] theorem Dec.winWrite_op (d : Dec) (pos : Nat) (v : Byte) : (d.winWrite pos v).op = d.op := rfl
@[simp] theorem Dec.winWrite_wp (d : Dec) (pos : Nat) (v : Byte) : (d.winWrite pos v).wp = d.wp := rfl
@[simp] theorem Dec.winWrite_rp (d : Dec) (pos : Nat) (v : Byte) : (d.winWrite pos v).rp = d.rp := rfl
@[simp] theorem Dec.winWrite_ctrl (d : Dec) (pos : Nat) (v : Byte) : (d.winWrite pos v).ctrl = d.ctrl := rfl
@[simp] theorem Dec.winWrite_bits (d : Dec) (pos : Nat) (v : Byte) : (d.winWrite pos v).bits = d.bits := rfl
@[simp] theorem Dec.winWrite_cnt (d : Dec) (pos : Nat) (v : Byte) : (d.winWrite pos v).cnt = d.cnt := rfl
@[simp] theorem Dec.winWrite_b1 (d : Dec) (pos : Nat) (v : Byte) : (d.winWrite pos v).b1 = d.b1 := rfl
@[simp] theorem Dec.winWrite_b2 (d : Dec) (pos : Nat) (v : Byte) : (d.winWrite pos v).b2 = d.b2 := rfl
@[simp] theorem Dec.winWrite_cause (d : Dec) (pos : Nat) (v : Byte) : (d.winWrite pos v).cause = d.cause := rfl
@[simp] theorem Dec.winWrite_faultIp (d : Dec) (pos : Nat) (v : Byte) : (d.winWrite pos v).faultIp = d.faultIp := rfl
@[simp] theorem Dec.winWrite_faultOp (d : Dec) (pos : Nat) (v : Byte) : (d.winWrite pos v).faultOp = d.faultOp := rfl
@[simp] theorem Dec.winWrite_inLen (d : Dec) (pos : Nat) (v : Byte) : (d.winWrite pos v).inLen = d.inLen := rfl
@[simp] theorem Dec.winWrite_input (d : Dec) (pos : Nat) (v : Byte) : (d.winWrite pos v).input = d.input := rfl
@[simp] theorem Dec.winWrite_output (d : Dec) (pos : Nat) (v : Byte) : (d.winWrite pos v).output = d.output := rfl
@[simp] theorem Dec.winWrite_window (d : Dec) (pos : Nat) (v : Byte) : (d.winWrite pos v).window = memWrite .window d.window (pos % windowSize) v := rfl

/-! ### `WIN_PUSH` -/

@[simp] theorem Dec.winPush_phase (d : Dec) (v : Byte) : (d.winPush v).phase = d.phase := rfl
@[simp] theorem Dec.winPush_ip (d : Dec) (v : Byte) : (d.winPush v).ip = d.ip := rfl
@[simp] theorem Dec.winPush_outLen (d : Dec) (v : Byte) : (d.winPush v).outLen = d.outLen := rfl
@[simp] theorem Dec.winPush_version (d : Dec) (v : Byte) : (d.winPush v).version = d.version := rfl
@[simp] theorem Dec.winPush_op (d : Dec) (v : Byte) : (d.winPush v).op = d.op := rfl
@[simp] theorem Dec.winPush_wp (d : Dec) (v : Byte) : (d.winPush v).wp = inc10 d.wp := rfl
@[simp] theorem Dec.winPush_rp (d : Dec) (v : Byte) : (d.winPush v).rp = d.rp := rfl
@[simp] theorem Dec.winPush_ctrl (d : Dec) (v : Byte) : (d.winPush v).ctrl = d.ctrl := rfl
@[simp] theorem Dec.winPush_bits (d : Dec) (v : Byte) : (d.winPush v).bits = d.bits := rfl
@[simp] theorem Dec.winPush_cnt (d : Dec) (v : Byte) : (d.winPush v).cnt = d.cnt := rfl
@[simp] theorem Dec.winPush_b1 (d : Dec) (v : Byte) : (d.winPush v).b1 = d.b1 := rfl
@[simp] theorem Dec.winPush_b2 (d : Dec) (v : Byte) : (d.winPush v).b2 = d.b2 := rfl
@[simp] theorem Dec.winPush_cause (d : Dec) (v : Byte) : (d.winPush v).cause = d.cause := rfl
@[simp] theorem Dec.winPush_faultIp (d : Dec) (v : Byte) : (d.winPush v).faultIp = d.faultIp := rfl
@[simp] theorem Dec.winPush_faultOp (d : Dec) (v : Byte) : (d.winPush v).faultOp = d.faultOp := rfl
@[simp] theorem Dec.winPush_inLen (d : Dec) (v : Byte) : (d.winPush v).inLen = d.inLen := rfl
@[simp] theorem Dec.winPush_input (d : Dec) (v : Byte) : (d.winPush v).input = d.input := rfl
@[simp] theorem Dec.winPush_output (d : Dec) (v : Byte) : (d.winPush v).output = d.output := rfl
@[simp] theorem Dec.winPush_window (d : Dec) (v : Byte) : (d.winPush v).window = memWrite .window d.window (d.wp.toNat % windowSize) v := rfl

/-! ### The program counter -/

@[simp] theorem Dec.advance_phase (d : Dec) (k : Nat) : (d.advance k).phase = d.phase := rfl
@[simp] theorem Dec.advance_ip (d : Dec) (k : Nat) : (d.advance k).ip = d.ip + k := rfl
@[simp] theorem Dec.advance_outLen (d : Dec) (k : Nat) : (d.advance k).outLen = d.outLen := rfl
@[simp] theorem Dec.advance_version (d : Dec) (k : Nat) : (d.advance k).version = d.version := rfl
@[simp] theorem Dec.advance_op (d : Dec) (k : Nat) : (d.advance k).op = d.op := rfl
@[simp] theorem Dec.advance_wp (d : Dec) (k : Nat) : (d.advance k).wp = d.wp := rfl
@[simp] theorem Dec.advance_rp (d : Dec) (k : Nat) : (d.advance k).rp = d.rp := rfl
@[simp] theorem Dec.advance_ctrl (d : Dec) (k : Nat) : (d.advance k).ctrl = d.ctrl := rfl
@[simp] theorem Dec.advance_bits (d : Dec) (k : Nat) : (d.advance k).bits = d.bits := rfl
@[simp] theorem Dec.advance_cnt (d : Dec) (k : Nat) : (d.advance k).cnt = d.cnt := rfl
@[simp] theorem Dec.advance_b1 (d : Dec) (k : Nat) : (d.advance k).b1 = d.b1 := rfl
@[simp] theorem Dec.advance_b2 (d : Dec) (k : Nat) : (d.advance k).b2 = d.b2 := rfl
@[simp] theorem Dec.advance_cause (d : Dec) (k : Nat) : (d.advance k).cause = d.cause := rfl
@[simp] theorem Dec.advance_faultIp (d : Dec) (k : Nat) : (d.advance k).faultIp = d.faultIp := rfl
@[simp] theorem Dec.advance_faultOp (d : Dec) (k : Nat) : (d.advance k).faultOp = d.faultOp := rfl
@[simp] theorem Dec.advance_inLen (d : Dec) (k : Nat) : (d.advance k).inLen = d.inLen := rfl
@[simp] theorem Dec.advance_input (d : Dec) (k : Nat) : (d.advance k).input = d.input := rfl
@[simp] theorem Dec.advance_output (d : Dec) (k : Nat) : (d.advance k).output = d.output := rfl
@[simp] theorem Dec.advance_window (d : Dec) (k : Nat) : (d.advance k).window = d.window := rfl

/-! ### Producing a byte -/

@[simp] theorem Dec.produced_phase (d : Dec) (v : Byte) : (d.produced v).phase = d.phase := rfl
@[simp] theorem Dec.produced_ip (d : Dec) (v : Byte) : (d.produced v).ip = d.ip := rfl
@[simp] theorem Dec.produced_outLen (d : Dec) (v : Byte) : (d.produced v).outLen = d.outLen := rfl
@[simp] theorem Dec.produced_version (d : Dec) (v : Byte) : (d.produced v).version = d.version := rfl
@[simp] theorem Dec.produced_op (d : Dec) (v : Byte) : (d.produced v).op = d.op + 1 := rfl
@[simp] theorem Dec.produced_wp (d : Dec) (v : Byte) : (d.produced v).wp = inc10 d.wp := rfl
@[simp] theorem Dec.produced_rp (d : Dec) (v : Byte) : (d.produced v).rp = d.rp := rfl
@[simp] theorem Dec.produced_ctrl (d : Dec) (v : Byte) : (d.produced v).ctrl = d.ctrl := rfl
@[simp] theorem Dec.produced_bits (d : Dec) (v : Byte) : (d.produced v).bits = d.bits := rfl
@[simp] theorem Dec.produced_cnt (d : Dec) (v : Byte) : (d.produced v).cnt = d.cnt := rfl
@[simp] theorem Dec.produced_b1 (d : Dec) (v : Byte) : (d.produced v).b1 = d.b1 := rfl
@[simp] theorem Dec.produced_b2 (d : Dec) (v : Byte) : (d.produced v).b2 = d.b2 := rfl
@[simp] theorem Dec.produced_cause (d : Dec) (v : Byte) : (d.produced v).cause = d.cause := rfl
@[simp] theorem Dec.produced_faultIp (d : Dec) (v : Byte) : (d.produced v).faultIp = d.faultIp := rfl
@[simp] theorem Dec.produced_faultOp (d : Dec) (v : Byte) : (d.produced v).faultOp = d.faultOp := rfl
@[simp] theorem Dec.produced_inLen (d : Dec) (v : Byte) : (d.produced v).inLen = d.inLen := rfl
@[simp] theorem Dec.produced_input (d : Dec) (v : Byte) : (d.produced v).input = d.input := rfl
@[simp] theorem Dec.produced_output (d : Dec) (v : Byte) : (d.produced v).output = memWrite .output d.output d.op v := rfl
@[simp] theorem Dec.produced_window (d : Dec) (v : Byte) : (d.produced v).window = memWrite .window d.window (d.wp.toNat % windowSize) v := rfl

/-! ### `raise` -/

@[simp] theorem Dec.raise_phase (k : Cause) (d : Dec) : (Dec.raise k d).phase = .fault := rfl
@[simp] theorem Dec.raise_ip (k : Cause) (d : Dec) : (Dec.raise k d).ip = d.ip := rfl
@[simp] theorem Dec.raise_outLen (k : Cause) (d : Dec) : (Dec.raise k d).outLen = d.outLen := rfl
@[simp] theorem Dec.raise_version (k : Cause) (d : Dec) : (Dec.raise k d).version = d.version := rfl
@[simp] theorem Dec.raise_op (k : Cause) (d : Dec) : (Dec.raise k d).op = d.op := rfl
@[simp] theorem Dec.raise_wp (k : Cause) (d : Dec) : (Dec.raise k d).wp = d.wp := rfl
@[simp] theorem Dec.raise_rp (k : Cause) (d : Dec) : (Dec.raise k d).rp = d.rp := rfl
@[simp] theorem Dec.raise_ctrl (k : Cause) (d : Dec) : (Dec.raise k d).ctrl = d.ctrl := rfl
@[simp] theorem Dec.raise_bits (k : Cause) (d : Dec) : (Dec.raise k d).bits = d.bits := rfl
@[simp] theorem Dec.raise_cnt (k : Cause) (d : Dec) : (Dec.raise k d).cnt = d.cnt := rfl
@[simp] theorem Dec.raise_b1 (k : Cause) (d : Dec) : (Dec.raise k d).b1 = d.b1 := rfl
@[simp] theorem Dec.raise_b2 (k : Cause) (d : Dec) : (Dec.raise k d).b2 = d.b2 := rfl
@[simp] theorem Dec.raise_cause (k : Cause) (d : Dec) : (Dec.raise k d).cause = k := rfl
@[simp] theorem Dec.raise_faultIp (k : Cause) (d : Dec) : (Dec.raise k d).faultIp = d.ip := rfl
@[simp] theorem Dec.raise_faultOp (k : Cause) (d : Dec) : (Dec.raise k d).faultOp = d.op := rfl
@[simp] theorem Dec.raise_inLen (k : Cause) (d : Dec) : (Dec.raise k d).inLen = d.inLen := rfl
@[simp] theorem Dec.raise_input (k : Cause) (d : Dec) : (Dec.raise k d).input = d.input := rfl
@[simp] theorem Dec.raise_output (k : Cause) (d : Dec) : (Dec.raise k d).output = [] := rfl
@[simp] theorem Dec.raise_window (k : Cause) (d : Dec) : (Dec.raise k d).window = d.window := rfl

/-! ### `DEC_DONE` -/

@[simp] theorem Dec.finish_phase (d : Dec) : (d.finish).phase = .done := rfl
@[simp] theorem Dec.finish_ip (d : Dec) : (d.finish).ip = d.ip := rfl
@[simp] theorem Dec.finish_outLen (d : Dec) : (d.finish).outLen = d.outLen := rfl
@[simp] theorem Dec.finish_version (d : Dec) : (d.finish).version = d.version := rfl
@[simp] theorem Dec.finish_op (d : Dec) : (d.finish).op = d.op := rfl
@[simp] theorem Dec.finish_wp (d : Dec) : (d.finish).wp = d.wp := rfl
@[simp] theorem Dec.finish_rp (d : Dec) : (d.finish).rp = d.rp := rfl
@[simp] theorem Dec.finish_ctrl (d : Dec) : (d.finish).ctrl = d.ctrl := rfl
@[simp] theorem Dec.finish_bits (d : Dec) : (d.finish).bits = d.bits := rfl
@[simp] theorem Dec.finish_cnt (d : Dec) : (d.finish).cnt = d.cnt := rfl
@[simp] theorem Dec.finish_b1 (d : Dec) : (d.finish).b1 = d.b1 := rfl
@[simp] theorem Dec.finish_b2 (d : Dec) : (d.finish).b2 = d.b2 := rfl
@[simp] theorem Dec.finish_cause (d : Dec) : (d.finish).cause = d.cause := rfl
@[simp] theorem Dec.finish_faultIp (d : Dec) : (d.finish).faultIp = d.faultIp := rfl
@[simp] theorem Dec.finish_faultOp (d : Dec) : (d.finish).faultOp = d.faultOp := rfl
@[simp] theorem Dec.finish_inLen (d : Dec) : (d.finish).inLen = d.inLen := rfl
@[simp] theorem Dec.finish_input (d : Dec) : (d.finish).input = d.input := rfl
@[simp] theorem Dec.finish_output (d : Dec) : (d.finish).output = d.output := rfl
@[simp] theorem Dec.finish_window (d : Dec) : (d.finish).window = d.window := rfl

/-! ### `ACC_SHIFT_IN` -/

@[simp] theorem Enc.accShiftIn_phase (e : Enc) (isLit : Bool) : (e.accShiftIn isLit).phase = e.phase := rfl
@[simp] theorem Enc.accShiftIn_sp (e : Enc) (isLit : Bool) : (e.accShiftIn isLit).sp = e.sp := rfl
@[simp] theorem Enc.accShiftIn_inLen (e : Enc) (isLit : Bool) : (e.accShiftIn isLit).inLen = e.inLen := rfl
@[simp] theorem Enc.accShiftIn_acc (e : Enc) (isLit : Bool) : (e.accShiftIn isLit).acc = if isLit then (e.acc >>> 1) ||| 0x80#8 else e.acc >>> 1 := rfl
@[simp] theorem Enc.accShiftIn_g (e : Enc) (isLit : Bool) : (e.accShiftIn isLit).g = e.g + 1#4 := rfl
@[simp] theorem Enc.accShiftIn_gbuf (e : Enc) (isLit : Bool) : (e.accShiftIn isLit).gbuf = e.gbuf := rfl
@[simp] theorem Enc.accShiftIn_n (e : Enc) (isLit : Bool) : (e.accShiftIn isLit).n = e.n := rfl
@[simp] theorem Enc.accShiftIn_curLen (e : Enc) (isLit : Bool) : (e.accShiftIn isLit).curLen = e.curLen := rfl
@[simp] theorem Enc.accShiftIn_bestLen (e : Enc) (isLit : Bool) : (e.accShiftIn isLit).bestLen = e.bestLen := rfl
@[simp] theorem Enc.accShiftIn_bestOff (e : Enc) (isLit : Bool) : (e.accShiftIn isLit).bestOff = e.bestOff := rfl
@[simp] theorem Enc.accShiftIn_source (e : Enc) (isLit : Bool) : (e.accShiftIn isLit).source = e.source := rfl
@[simp] theorem Enc.accShiftIn_stream (e : Enc) (isLit : Bool) : (e.accShiftIn isLit).stream = e.stream := rfl

/-! ### `GROUP_CLOSE` -/

@[simp] theorem Enc.groupClose_phase (e : Enc) : (e.groupClose).phase = e.phase := rfl
@[simp] theorem Enc.groupClose_sp (e : Enc) : (e.groupClose).sp = e.sp := rfl
@[simp] theorem Enc.groupClose_inLen (e : Enc) : (e.groupClose).inLen = e.inLen := rfl
@[simp] theorem Enc.groupClose_acc (e : Enc) : (e.groupClose).acc = 0#8 := rfl
@[simp] theorem Enc.groupClose_g (e : Enc) : (e.groupClose).g = 0#4 := rfl
@[simp] theorem Enc.groupClose_gbuf (e : Enc) : (e.groupClose).gbuf = [] := rfl
@[simp] theorem Enc.groupClose_n (e : Enc) : (e.groupClose).n = e.n := rfl
@[simp] theorem Enc.groupClose_curLen (e : Enc) : (e.groupClose).curLen = e.curLen := rfl
@[simp] theorem Enc.groupClose_bestLen (e : Enc) : (e.groupClose).bestLen = e.bestLen := rfl
@[simp] theorem Enc.groupClose_bestOff (e : Enc) : (e.groupClose).bestOff = e.bestOff := rfl
@[simp] theorem Enc.groupClose_source (e : Enc) : (e.groupClose).source = e.source := rfl
@[simp] theorem Enc.groupClose_stream (e : Enc) : (e.groupClose).stream = e.stream ++ e.acc :: e.gbuf := rfl

/-! ### `SEARCH, the registers` -/

@[simp] theorem Enc.loadSearch_phase (e : Enc) (best : Nat × Nat) : (e.loadSearch best).phase = e.phase := rfl
@[simp] theorem Enc.loadSearch_sp (e : Enc) (best : Nat × Nat) : (e.loadSearch best).sp = e.sp := rfl
@[simp] theorem Enc.loadSearch_inLen (e : Enc) (best : Nat × Nat) : (e.loadSearch best).inLen = e.inLen := rfl
@[simp] theorem Enc.loadSearch_acc (e : Enc) (best : Nat × Nat) : (e.loadSearch best).acc = e.acc := rfl
@[simp] theorem Enc.loadSearch_g (e : Enc) (best : Nat × Nat) : (e.loadSearch best).g = e.g := rfl
@[simp] theorem Enc.loadSearch_gbuf (e : Enc) (best : Nat × Nat) : (e.loadSearch best).gbuf = e.gbuf := rfl
@[simp] theorem Enc.loadSearch_n (e : Enc) (best : Nat × Nat) : (e.loadSearch best).n =
    BitVec.ofNat 11 (Config.freeCandidate e.source e.inLen.toNat e.sp).val := rfl
@[simp] theorem Enc.loadSearch_curLen (e : Enc) (best : Nat × Nat) : (e.loadSearch best).curLen =
    BitVec.ofNat 7 (Config.freeRunLength e.source e.inLen.toNat e.sp).val := rfl
@[simp] theorem Enc.loadSearch_bestLen (e : Enc) (best : Nat × Nat) : (e.loadSearch best).bestLen = BitVec.ofNat 7 best.1 := rfl
@[simp] theorem Enc.loadSearch_bestOff (e : Enc) (best : Nat × Nat) : (e.loadSearch best).bestOff = BitVec.ofNat 10 best.2 := rfl
@[simp] theorem Enc.loadSearch_source (e : Enc) (best : Nat × Nat) : (e.loadSearch best).source = e.source := rfl
@[simp] theorem Enc.loadSearch_stream (e : Enc) (best : Nat × Nat) : (e.loadSearch best).stream = e.stream := rfl

/-! ### `EMIT_LIT` -/

@[simp] theorem Enc.emitLit_phase (e : Enc) (v : Byte) : (e.emitLit v).phase = e.phase := rfl
@[simp] theorem Enc.emitLit_sp (e : Enc) (v : Byte) : (e.emitLit v).sp = e.sp + 1 := rfl
@[simp] theorem Enc.emitLit_inLen (e : Enc) (v : Byte) : (e.emitLit v).inLen = e.inLen := rfl
@[simp] theorem Enc.emitLit_acc (e : Enc) (v : Byte) : (e.emitLit v).acc = (e.acc >>> 1) ||| 0x80#8 := rfl
@[simp] theorem Enc.emitLit_g (e : Enc) (v : Byte) : (e.emitLit v).g = e.g + 1#4 := rfl
@[simp] theorem Enc.emitLit_gbuf (e : Enc) (v : Byte) : (e.emitLit v).gbuf = e.gbuf ++ [v] := rfl
@[simp] theorem Enc.emitLit_n (e : Enc) (v : Byte) : (e.emitLit v).n = e.n := rfl
@[simp] theorem Enc.emitLit_curLen (e : Enc) (v : Byte) : (e.emitLit v).curLen = e.curLen := rfl
@[simp] theorem Enc.emitLit_bestLen (e : Enc) (v : Byte) : (e.emitLit v).bestLen = e.bestLen := rfl
@[simp] theorem Enc.emitLit_bestOff (e : Enc) (v : Byte) : (e.emitLit v).bestOff = e.bestOff := rfl
@[simp] theorem Enc.emitLit_source (e : Enc) (v : Byte) : (e.emitLit v).source = e.source := rfl
@[simp] theorem Enc.emitLit_stream (e : Enc) (v : Byte) : (e.emitLit v).stream = e.stream := rfl

/-! ### `EMIT_MATCH` -/

@[simp] theorem Enc.emitMatch_phase (e : Enc) : (e.emitMatch).phase = e.phase := rfl
@[simp] theorem Enc.emitMatch_sp (e : Enc) : (e.emitMatch).sp = e.sp + e.bestLen.toNat := rfl
@[simp] theorem Enc.emitMatch_inLen (e : Enc) : (e.emitMatch).inLen = e.inLen := rfl
@[simp] theorem Enc.emitMatch_acc (e : Enc) : (e.emitMatch).acc = e.acc >>> 1 := rfl
@[simp] theorem Enc.emitMatch_g (e : Enc) : (e.emitMatch).g = e.g + 1#4 := rfl
@[simp] theorem Enc.emitMatch_gbuf (e : Enc) : (e.emitMatch).gbuf = e.gbuf ++ [emittedFirstByte (emittedOffset e.bestOff e.wo), emittedSecondByte (emittedOffset e.bestOff e.wo) (lengthCode e.bestLen)] := rfl
@[simp] theorem Enc.emitMatch_n (e : Enc) : (e.emitMatch).n = e.n := rfl
@[simp] theorem Enc.emitMatch_curLen (e : Enc) : (e.emitMatch).curLen = e.curLen := rfl
@[simp] theorem Enc.emitMatch_bestLen (e : Enc) : (e.emitMatch).bestLen = e.bestLen := rfl
@[simp] theorem Enc.emitMatch_bestOff (e : Enc) : (e.emitMatch).bestOff = e.bestOff := rfl
@[simp] theorem Enc.emitMatch_source (e : Enc) : (e.emitMatch).source = e.source := rfl
@[simp] theorem Enc.emitMatch_stream (e : Enc) : (e.emitMatch).stream = e.stream := rfl

/-! ### `HDR_WRITE` -/

@[simp] theorem Enc.writeHeader_phase (e : Enc) : (e.writeHeader).phase = .search := rfl
@[simp] theorem Enc.writeHeader_sp (e : Enc) : (e.writeHeader).sp = e.sp := rfl
@[simp] theorem Enc.writeHeader_inLen (e : Enc) : (e.writeHeader).inLen = e.inLen := rfl
@[simp] theorem Enc.writeHeader_acc (e : Enc) : (e.writeHeader).acc = e.acc := rfl
@[simp] theorem Enc.writeHeader_g (e : Enc) : (e.writeHeader).g = e.g := rfl
@[simp] theorem Enc.writeHeader_gbuf (e : Enc) : (e.writeHeader).gbuf = e.gbuf := rfl
@[simp] theorem Enc.writeHeader_n (e : Enc) : (e.writeHeader).n = e.n := rfl
@[simp] theorem Enc.writeHeader_curLen (e : Enc) : (e.writeHeader).curLen = e.curLen := rfl
@[simp] theorem Enc.writeHeader_bestLen (e : Enc) : (e.writeHeader).bestLen = e.bestLen := rfl
@[simp] theorem Enc.writeHeader_bestOff (e : Enc) : (e.writeHeader).bestOff = e.bestOff := rfl
@[simp] theorem Enc.writeHeader_source (e : Enc) : (e.writeHeader).source = e.source := rfl
@[simp] theorem Enc.writeHeader_stream (e : Enc) : (e.writeHeader).stream = e.stream ++ (be32Bytes e.inLen ++ be32Bytes formatVersionOne) := rfl

end Sys2Proof.Machine
end

