-- ==== Sys2Proof/Laws/Ops.lean ====
section
/-! SUPPORT. One lemma per shared operation that says once what it can do; proofs cite these instead of unfolding. -/

namespace Sys2Proof.Machine

open Sys2Proof

/-! ### Arithmetic of the cursors -/

theorem inc10_toNat (x : Addr10) : (inc10 x).toNat = (x.toNat + 1) % windowSize := by
  simp [inc10, BitVec.toNat_add]

theorem readPosition_toNat (raw : Addr10) : (readPosition raw).toNat = (raw.toNat + offsetBias) % windowSize := by
  simp [readPosition]

theorem matchLength_toNat (lencode : BitVec 6) : (matchLength lencode).toNat = lencode.toNat + minMatch := by
  have := lencode.isLt
  simp [matchLength, BitVec.toNat_add, minMatch]
  omega

theorem emittedOffset_toNat (bestOff : Addr10) (wo : Nat) :
    (emittedOffset bestOff wo).toNat = (bestOff.toNat + wo + 958) % windowSize := by
  simp only [emittedOffset, BitVec.toNat_ofInt]
  simp only [windowSize, offsetBias]
  omega

/-! ### `IN` -/

theorem inByteAt_isSome (d : Dec) (a : Nat) : (d.inByteAt a).isSome ↔ a < d.inLen := by
  unfold Dec.inByteAt
  split
  · next h => simp [h, memRead_isSome d.input a (sp := .input) rfl]
  · next h => simp [h]

theorem inByteAt_eq_none (d : Dec) (a : Nat) : d.inByteAt a = none ↔ d.inLen ≤ a := by
  have := inByteAt_isSome d a
  cases h : d.inByteAt a <;> simp_all

/-- `InByte()` fails exactly at the end of the input, and else gives the byte at `ip` and advances `ip` (R62). -/
theorem inByte_spec (d : Dec) :
    (d.inLen ≤ d.ip ∧ d.inByte = none) ∨
      ∃ v, d.ip < d.inLen ∧ d.inByteAt d.ip = some v ∧ d.inByte = some (v, d.advance 1) := by
  unfold Dec.inByte
  cases h : d.inByteAt d.ip with
  | none => exact .inl ⟨(inByteAt_eq_none d d.ip).1 h, rfl⟩
  | some v => exact .inr ⟨v, (inByteAt_isSome d d.ip).1 (by simp [h]), rfl, rfl⟩

/-- The started decoder's `IN` is the frame the host gave (R40, R291). -/
theorem inByteAt_start (frame : List Byte) (a : Nat) : (Dec.start frame).inByteAt a = frame[a]? := by
  unfold Dec.inByteAt
  simp only [Dec.start, memRead_memOfBytes]
  split
  · next h => simp [h]
  · next h => exact (List.getElem?_eq_none (by omega)).symm

/-- `W` of a started encoder: 1024 zero bytes, then the input (R44). -/
theorem workByte_start (src : List Byte) (a : Nat) :
    workByte (memOfBytes .source 0 src) src.length a =
      if a < windowSize then some 0#8 else src[a - windowSize]? := by
  unfold workByte
  split
  · rfl
  · split
    · next h1 h2 => simp [memRead_memOfBytes, show a - windowSize < src.length by omega]
    · next h1 h2 => exact (List.getElem?_eq_none (by omega)).symm

/-! ### The window -/

theorem memRead_window_eq (m : Memory) (a : Nat) : memRead .window m a = some ((memRead .window m a).getD 0#8) := by
  have := memRead_isSome m a (sp := .window) rfl
  cases h : memRead .window m a <;> simp_all

/-- A window read after a window write (R122, R123). -/
theorem winRead_winWrite (d : Dec) (pos : Nat) (v : Byte) (a : Nat) (h : Memory.wf .window d.window) :
    (d.winWrite pos v).winRead a = if a % windowSize = pos % windowSize then v else d.winRead a := by
  unfold Dec.winRead
  rw [Dec.winWrite_window, memRead_memWrite _ _ _ h]
  split <;> rfl

/-- `WIN_RESET` makes every byte zero (R121). -/
theorem winRead_winReset (d : Dec) (a : Nat) : d.winReset.winRead a = 0#8 := rfl

/-! ### Producing a byte -/

/-- What producing a byte can do: inside `OUT` it succeeds, past it the address does not exist. -/
theorem produce_spec (d : Dec) (v : Byte) :
    (d.op < d.outLen.toNat ∧ d.produce v = .ok (d.produced v)) ∨
      (d.outLen.toNat ≤ d.op ∧ d.produce v = .error (.outAddress d.op)) := by
  unfold Dec.produce
  split
  · next h => exact .inl ⟨h, rfl⟩
  · next h => exact .inr ⟨by omega, rfl⟩

/-- The window after a produced byte: the byte at `wp`, all else as before. -/
theorem produced_winRead (d : Dec) (v : Byte) (a : Nat) (h : Memory.wf .window d.window) :
    (d.produced v).winRead a = if a % windowSize = d.wp.toNat then v else d.winRead a := by
  have := winRead_winWrite d d.wp.toNat v a h
  rwa [Nat.mod_eq_of_lt d.wp.isLt] at this

/-- `OUT` after a produced byte: the byte at `op`, all else as before. -/
theorem produced_outByte (d : Dec) (v : Byte) (a : Nat) (h : Memory.wf .output d.output) :
    (d.produced v).outByte a = if a = d.op then some v else d.outByte a :=
  memRead_memWrite d.op a v h

/-! ### Faults, refusals, turns -/

/-- After a fault no address of `OUT` holds a specified value (R266). -/
theorem raise_outByte (k : Cause) (d : Dec) (a : Nat) : (d.raise k).outByte a = none := rfl

theorem passTurn_dec (s : State) : s.passTurn.dec = s.dec := by unfold State.passTurn; split <;> rfl
theorem passTurn_enc (s : State) : s.passTurn.enc = s.enc := by unfold State.passTurn; split <;> rfl
theorem passTurn_pending (s : State) : s.passTurn.pending = s.pending := by unfold State.passTurn; split <;> rfl
theorem passTurn_decRefused (s : State) : s.passTurn.decRefused = s.decRefused := by
  unfold State.passTurn; split <;> rfl
theorem passTurn_encRefused (s : State) : s.passTurn.encRefused = s.encRefused := by
  unfold State.passTurn; split <;> rfl
theorem passTurn_cfg (s : State) : s.passTurn.cfg = s.cfg := by unfold State.passTurn; split <;> rfl
theorem passTurn_busy (s : State) (e : Engine) : s.passTurn.busy e = s.busy e := by
  cases e <;> simp only [State.busy, passTurn_dec, passTurn_enc]
theorem passTurn_moves (s : State) (e : Engine) : s.passTurn.moves e = s.moves e := by
  cases e <;> simp only [State.moves, State.refusal, passTurn_busy, passTurn_decRefused, passTurn_encRefused]

/-- The turn passes to the other engine when that one has a step to take. -/
theorem passTurn_passes {s : State} (h : s.moves s.turn.other = true) :
    s.passTurn = { s with turn := s.turn.other } := by
  simp [State.passTurn, h]

/-- The turn stays where it is when the other engine has no step to take. -/
theorem passTurn_alone {s : State} (h : s.moves s.turn.other = false) : s.passTurn = s := by
  simp [State.passTurn, h]

end Sys2Proof.Machine
end

