-- ==== Sys2Proof/Laws/PerInstr.lean ====
section
/-! SUPPORT. A law of every element as syntax, one lemma per constructor: an element's encoding has the length its
position gives it (30_encoding.md R91). -/

namespace Sys2Proof.Laws

open Sys2Proof

/-- The encoding of an element has the length of R91. -/
def EncodedLength.Statement (i : Instr) : Prop := (encode i).length = i.position.byteLength

theorem EncodedLength.hdr (uncompressedLength formatVersion : Word32) :
    EncodedLength.Statement (.hdr uncompressedLength formatVersion) := rfl

theorem EncodedLength.ctrl (flags : Byte) : EncodedLength.Statement (.ctrl flags) := rfl

theorem EncodedLength.lit (d : Byte) : EncodedLength.Statement (.lit d) := rfl

theorem EncodedLength.matchTok (offLo : Byte) (offHi : BitVec 2) (lencode : BitVec 6) :
    EncodedLength.Statement (.matchTok offLo offHi lencode) := rfl

end Sys2Proof.Laws
end

