-- ==== Sys2Proof/Laws/Step.lean ====
section
/-! SUPPORT. What a step can do, said once: the fetch at each position, every case of the decoder's step, of the
encoder's step, and of the machine's. -/

namespace Sys2Proof.Machine

open Sys2Proof

/-! ### Fetching -/

theorem bytesAt_length_le (d : Dec) : ∀ (k a : Nat), (d.bytesAt a k).length ≤ d.inLen - a := by
  intro k
  induction k with
  | zero => intros; simp [Dec.bytesAt]
  | succ k ih =>
    intro a
    simp only [Dec.bytesAt]
    rcases hb : d.inByteAt a with _ | v
    · simp
    · have hlt := (inByteAt_isSome d a).1 (by simp [hb])
      have := ih (a + 1)
      simp only [List.length_cons]
      omega

theorem decodeHeader_short {bs : List Byte} (h : bs.length < 8) : decodeHeader bs = .error .truncated := by
  unfold decodeHeader
  split
  · simp only [List.length_cons] at h
    omega
  · rfl

/-- The header's fetch (R162 sub-steps 1 to 5). -/
theorem fetch_header (s : State) :
    (s.dec.inLen < headerLength ∧
      fetch .header s = .settled (.next (s.setDec (s.dec.raise .truncatedStream)))) ∨
    ∃ b0 b1 b2 b3 b4 b5 b6 b7 : Byte, headerLength ≤ s.dec.inLen ∧
      s.dec.inByteAt 0 = some b0 ∧ s.dec.inByteAt 1 = some b1 ∧ s.dec.inByteAt 2 = some b2 ∧
      s.dec.inByteAt 3 = some b3 ∧ s.dec.inByteAt 4 = some b4 ∧ s.dec.inByteAt 5 = some b5 ∧
      s.dec.inByteAt 6 = some b6 ∧ s.dec.inByteAt 7 = some b7 ∧
      fetch .header s =
        if be32 b4 b5 b6 b7 = 1#32 then .run (.hdr (be32 b0 b1 b2 b3) (be32 b4 b5 b6 b7))
        else .settled (rejectHeader (be32 b4 b5 b6 b7) s) := by
  by_cases h : s.dec.inLen < headerLength
  · refine .inl ⟨h, ?_⟩
    have hl := bytesAt_length_le s.dec 8 0
    have hd : decode .header (s.dec.elementBytes .header) = .error .truncated :=
      decodeHeader_short (by simp only [Dec.elementBytes, headerLength] at *; omega)
    simp [fetch, hd, Dec.atTruncation]
  · refine .inr ?_
    have hall : ∀ a, a < 8 → ∃ b, s.dec.inByteAt a = some b := fun a ha =>
      Option.isSome_iff_exists.1 ((inByteAt_isSome s.dec a).2 (by simp only [headerLength] at h; omega))
    obtain ⟨b0, h0⟩ := hall 0 (by omega)
    obtain ⟨b1, h1⟩ := hall 1 (by omega)
    obtain ⟨b2, h2⟩ := hall 2 (by omega)
    obtain ⟨b3, h3⟩ := hall 3 (by omega)
    obtain ⟨b4, h4⟩ := hall 4 (by omega)
    obtain ⟨b5, h5⟩ := hall 5 (by omega)
    obtain ⟨b6, h6⟩ := hall 6 (by omega)
    obtain ⟨b7, h7⟩ := hall 7 (by omega)
    refine ⟨b0, b1, b2, b3, b4, b5, b6, b7, by omega, h0, h1, h2, h3, h4, h5, h6, h7, ?_⟩
    have hb : s.dec.elementBytes .header = [b0, b1, b2, b3, b4, b5, b6, b7] := by
      simp [Dec.elementBytes, Dec.bytesAt, h0, h1, h2, h3, h4, h5, h6, h7]
    simp only [fetch, hb, decode, decodeHeader]
    split_ifs <;> rfl

theorem takeBytes_one_none {d : Dec} (h : d.inByte = none) : (Dec.takeBytes 1 d).1 = [] := by
  simp [Dec.takeBytes, h]

theorem takeBytes_one_some {d d' : Dec} {v : Byte} (h : d.inByte = some (v, d')) : (Dec.takeBytes 1 d).1 = [v] := by
  simp [Dec.takeBytes, h]

/-- The control byte's fetch (R141, R62). -/
theorem fetch_groupHead (s : State) :
    (s.dec.inLen ≤ s.dec.ip ∧
      fetch .groupHead s = .settled (.next (s.setDec (s.dec.raise .truncatedStream)))) ∨
    ∃ c, s.dec.ip < s.dec.inLen ∧ s.dec.inByteAt s.dec.ip = some c ∧ fetch .groupHead s = .run (.ctrl c) := by
  rcases inByte_spec s.dec with ⟨h, hn⟩ | ⟨v, h, hv, hs⟩
  · exact .inl ⟨h, by
      simp [fetch, Dec.elementBytes, Position.byteLength, takeBytes_one_none hn, decode, decodeControl,
        Dec.atTruncation]⟩
  · exact .inr ⟨v, h, hv, by
      simp [fetch, Dec.elementBytes, Position.byteLength, takeBytes_one_some hs, decode, decodeControl]⟩

/-- The literal's fetch (R182 sub-step 1). -/
theorem fetch_literal (s : State) :
    (s.dec.inLen ≤ s.dec.ip ∧
      fetch (.token true) s = .settled (.next (s.setDec (s.dec.raise .truncatedStream)))) ∨
    ∃ d, s.dec.ip < s.dec.inLen ∧ s.dec.inByteAt s.dec.ip = some d ∧ fetch (.token true) s = .run (.lit d) := by
  rcases inByte_spec s.dec with ⟨h, hn⟩ | ⟨v, h, hv, hs⟩
  · exact .inl ⟨h, by
      simp [fetch, Dec.elementBytes, Position.byteLength, takeBytes_one_none hn, decode, decodeLiteral,
        Dec.atTruncation]⟩
  · exact .inr ⟨v, h, hv, by
      simp [fetch, Dec.elementBytes, Position.byteLength, takeBytes_one_some hs, decode, decodeLiteral]⟩

/-- The match's fetch (R184 sub-steps 1, 2): nothing left, only `b1` left, or both bytes there. -/
theorem fetch_match (s : State) :
    (s.dec.inLen ≤ s.dec.ip ∧
      fetch (.token false) s = .settled (.next (s.setDec (s.dec.raise .truncatedStream)))) ∨
    (∃ b1, s.dec.ip + 1 = s.dec.inLen ∧ s.dec.inByteAt s.dec.ip = some b1 ∧
      fetch (.token false) s =
        .settled (.next (s.setDec (Dec.raise .truncatedStream { s.dec.advance 1 with b1 := b1 })))) ∨
    ∃ b1 b2, s.dec.ip + 1 < s.dec.inLen ∧ s.dec.inByteAt s.dec.ip = some b1 ∧
      s.dec.inByteAt (s.dec.ip + 1) = some b2 ∧
      fetch (.token false) s = .run (.matchTok b1 (b2.extractLsb' 6 2) (b2.extractLsb' 0 6)) := by
  rcases inByte_spec s.dec with ⟨h, hn⟩ | ⟨v, h, hv, hs⟩
  · refine .inl ⟨h, ?_⟩
    simp [fetch, Dec.elementBytes, Position.byteLength, Dec.takeBytes, hn, decode, decodeMatch, Dec.atTruncation]
  · rcases inByte_spec (s.dec.advance 1) with ⟨h2, hn2⟩ | ⟨v2, h2, hv2, hs2⟩
    · refine .inr (.inl ⟨v, by simp only [Dec.advance_ip, Dec.advance_inLen] at h2; omega, hv, ?_⟩)
      simp [fetch, Dec.elementBytes, Position.byteLength, Dec.takeBytes, hs, hn2, decode, decodeMatch,
        Dec.atTruncation]
    · refine .inr (.inr ⟨v, v2, h2, hv, hv2, ?_⟩)
      simp [fetch, Dec.elementBytes, Position.byteLength, Dec.takeBytes, hs, hs2, decode, decodeMatch]

/-! ### The decoder's step -/

/-- Every case of the decoder's step, with the rule it follows and its outcome. -/
inductive DecCase (s : State) : Result → Prop where
  /-- Nothing to do (R30, R290). -/
  | idle : s.dec.phase = .idle ∨ s.dec.phase = .done ∨ s.dec.phase = .fault → DecCase s (.next s)
  /-- R162 sub-step 1. -/
  | shortHeader : s.dec.phase = .hdr → s.dec.inLen < headerLength →
      DecCase s (.next (s.setDec (s.dec.raise .truncatedStream)))
  /-- R162 sub-steps 4, 5. -/
  | badVersion (len v : Word32) : s.dec.phase = .hdr → headerLength ≤ s.dec.inLen → s.dec.headerHolds len v →
      v ≠ 1#32 →
      DecCase s (.next (s.setDec (Dec.raise .formatError { s.dec with version := v })))
  /-- R162 sub-step 6. -/
  | tooLong (len : Word32) : s.dec.phase = .hdr → headerLength ≤ s.dec.inLen → s.dec.headerHolds len 1#32 →
      s.cfg.decMaxOut < len →
      DecCase s (.next (s.refuse .dec (.declaredLengthTooLarge len)))
  /-- R162 sub-step 7. -/
  | header (len : Word32) : s.dec.phase = .hdr → headerLength ≤ s.dec.inLen → s.dec.headerHolds len 1#32 →
      ¬ s.cfg.decMaxOut < len →
      DecCase s (.next (s.setDec { s.dec with version := 1#32, outLen := len, ip := headerLength, phase := .ctrl }))
  /-- R141, R181: the output is full. -/
  | full : s.dec.phase = .ctrl ∨ s.dec.phase = .token → s.dec.op = s.dec.outLen.toNat →
      DecCase s (.next (s.setDec s.dec.finish))
  /-- R141, R182, R184: no byte left. -/
  | truncated : s.dec.phase = .ctrl ∨ s.dec.phase = .token → s.dec.op ≠ s.dec.outLen.toNat →
      s.dec.inLen ≤ s.dec.ip → DecCase s (.next (s.setDec (s.dec.raise .truncatedStream)))
  /-- R141. -/
  | control (c : Byte) : s.dec.phase = .ctrl → s.dec.op ≠ s.dec.outLen.toNat → s.dec.ip < s.dec.inLen →
      s.dec.inByteAt s.dec.ip = some c →
      DecCase s (.next (s.setDec { s.dec.advance 1 with ctrl := c, bits := 8#4, phase := .token }))
  /-- R181: all flags used. -/
  | nextGroup : s.dec.phase = .token → s.dec.op ≠ s.dec.outLen.toNat → s.dec.bits = 0#4 →
      DecCase s (.next (s.setDec { s.dec with phase := .ctrl }))
  /-- R182. -/
  | literal (v : Byte) : s.dec.phase = .token → s.dec.op ≠ s.dec.outLen.toNat → s.dec.bits ≠ 0#4 →
      s.dec.flag = true → s.dec.ip < s.dec.inLen → s.dec.inByteAt s.dec.ip = some v →
      (s.dec.advance 1).op < s.dec.outLen.toNat →
      DecCase s (.next (s.setDec ((s.dec.advance 1).produced v).ctrlShift))
  /-- R184: `b2` is missing. -/
  | halfMatch (b1 : Byte) : s.dec.phase = .token → s.dec.op ≠ s.dec.outLen.toNat → s.dec.bits ≠ 0#4 →
      s.dec.flag = false → s.dec.ip + 1 = s.dec.inLen → s.dec.inByteAt s.dec.ip = some b1 →
      DecCase s (.next (s.setDec (Dec.raise .truncatedStream { s.dec.advance 1 with b1 := b1 })))
  /-- R184. -/
  | matchFetch (b1 b2 : Byte) : s.dec.phase = .token → s.dec.op ≠ s.dec.outLen.toNat → s.dec.bits ≠ 0#4 →
      s.dec.flag = false → s.dec.ip + 1 < s.dec.inLen → s.dec.inByteAt s.dec.ip = some b1 →
      s.dec.inByteAt (s.dec.ip + 1) = some b2 →
      DecCase s (execMatch b1 (b2.extractLsb' 6 2) (b2.extractLsb' 0 6) s)
  /-- R186: the match is complete. -/
  | close : s.dec.phase = .copy → s.dec.cnt = 0#7 →
      DecCase s (.next (s.setDec { s.dec.ctrlShift with phase := .token }))
  /-- R186, R263. -/
  | overrun : s.dec.phase = .copy → s.dec.cnt ≠ 0#7 → s.dec.op = s.dec.outLen.toNat →
      DecCase s (.next (s.setDec (s.dec.raise .outputOverrun)))
  /-- R186: one byte. -/
  | copy : s.dec.phase = .copy → s.dec.cnt ≠ 0#7 → s.dec.op < s.dec.outLen.toNat →
      DecCase s (.next (s.setDec
        { s.dec.produced (s.dec.winRead s.dec.rp.toNat) with rp := inc10 s.dec.rp, cnt := s.dec.cnt - 1#7 }))
  /-- A literal or a copy past `OUT` (log entry 6). -/
  | pastOut : s.dec.phase = .token ∨ s.dec.phase = .copy → s.dec.outLen.toNat < s.dec.op →
      DecCase s (.fault (.outAddress s.dec.op))

theorem headerCase (s : State) (hp : s.dec.phase = .hdr) : DecCase s (decStep s) := by
  have hm : decStep s = (fetch .header s).perform s := by
    simp only [decStep, decMove, hp]
  rcases fetch_header s with ⟨h, he⟩ | ⟨b0, b1, b2, b3, b4, b5, b6, b7, h, h0, h1, h2, h3, h4, h5, h6, h7, he⟩
  · rw [hm, he]
    exact .shortHeader hp h
  · have hf : s.dec.headerHolds (be32 b0 b1 b2 b3) (be32 b4 b5 b6 b7) :=
      ⟨b0, b1, b2, b3, b4, b5, b6, b7, h0, h1, h2, h3, h4, h5, h6, h7, rfl, rfl⟩
    rw [hm, he]
    by_cases hv : be32 b4 b5 b6 b7 = 1#32
    · simp only [hv, if_true, DecMove.perform, exec, execHdr, formatVersionOne]
      split
      · next hl => exact .tooLong _ hp h (hv ▸ hf) hl
      · next hl => exact .header _ hp h (hv ▸ hf) hl
    · simp only [hv, if_false, DecMove.perform, rejectHeader]
      exact .badVersion _ _ hp h hf hv

theorem ctrlCase (s : State) (hp : s.dec.phase = .ctrl) : DecCase s (decStep s) := by
  have hm : decStep s = (ctrlMove s).perform s := by
    simp only [decStep, decMove, hp]
  rw [hm, ctrlMove]
  by_cases hf : s.dec.op = s.dec.outLen.toNat
  · rw [if_pos hf]
    exact .full (.inl hp) hf
  · rcases fetch_groupHead s with ⟨h, he⟩ | ⟨c, h, hc, he⟩
    · simp only [hf, if_false, he, DecMove.perform]
      exact .truncated (.inl hp) hf h
    · simp only [hf, if_false, he, DecMove.perform, exec, execCtrl]
      exact .control c hp hf h hc

theorem tokenCase (s : State) (hp : s.dec.phase = .token) : DecCase s (decStep s) := by
  have hm : decStep s = (tokenMove s).perform s := by
    simp only [decStep, decMove, hp]
  rw [hm, tokenMove]
  by_cases hf : s.dec.op = s.dec.outLen.toNat
  · rw [if_pos hf]
    exact .full (.inr hp) hf
  by_cases hb : s.dec.bits = 0#4
  · rw [if_neg hf, if_pos hb]
    exact .nextGroup hp hf hb
  rw [if_neg hf, if_neg hb]
  cases hl : s.dec.flag with
  | true =>
    rcases fetch_literal s with ⟨h, he⟩ | ⟨v, h, hv, he⟩
    · rw [he]
      exact .truncated (.inr hp) hf h
    · rw [he]
      simp only [DecMove.perform, exec, execLit]
      rcases produce_spec (s.dec.advance 1) v with ⟨hlt, hq⟩ | ⟨hle, hq⟩
      · rw [hq]
        exact .literal v hp hf hb hl h hv hlt
      · rw [hq]
        exact .pastOut (.inl hp) (by simp only [Dec.advance_op, Dec.advance_outLen] at hle; omega)
  | false =>
    rcases fetch_match s with ⟨h, he⟩ | ⟨b1, h, h1, he⟩ | ⟨b1, b2, h, h1, h2, he⟩
    · rw [he]
      exact .truncated (.inr hp) hf h
    · rw [he]
      exact .halfMatch b1 hp hf hb hl h h1
    · rw [he]
      exact .matchFetch b1 b2 hp hf hb hl h h1 h2

theorem copyCase (s : State) (hp : s.dec.phase = .copy) : DecCase s (decStep s) := by
  have hm : decStep s = copyStep s := by simp only [decStep, decMove, hp, DecMove.perform]
  rw [hm, copyStep]
  by_cases hc : s.dec.cnt = 0#7
  · rw [if_pos hc]
    exact .close hp hc
  by_cases hf : s.dec.op = s.dec.outLen.toNat
  · rw [if_neg hc, if_pos hf]
    exact .overrun hp hc hf
  rw [if_neg hc, if_neg hf]
  rcases produce_spec s.dec (s.dec.winRead s.dec.rp.toNat) with ⟨hlt, hq⟩ | ⟨hle, hq⟩
  · rw [hq]
    exact .copy hp hc hlt
  · rw [hq]
    exact .pastOut (.inr hp) (by omega)

/-- Said once: what the decoder's step can do. -/
theorem decStep_case (s : State) : DecCase s (decStep s) := by
  cases hp : s.dec.phase with
  | idle => simpa only [decStep, decMove, hp, DecMove.perform] using DecCase.idle (.inl hp)
  | hdr => exact headerCase s hp
  | ctrl => exact ctrlCase s hp
  | token => exact tokenCase s hp
  | copy => exact copyCase s hp
  | done => simpa only [decStep, decMove, hp, DecMove.perform] using DecCase.idle (.inr (.inl hp))
  | fault => simpa only [decStep, decMove, hp, DecMove.perform] using DecCase.idle (.inr (.inr hp))

/-! ### The encoder's step -/

/-- Every case of the encoder's step, with the rule it follows and its outcome. -/
inductive EncCase (s : State) : Result → Prop where
  /-- Nothing to do (R38, R290). -/
  | idle : s.enc.phase = .idle ∨ s.enc.phase = .done → EncCase s (.next s)
  /-- R166. -/
  | header : s.enc.phase = .hdr → EncCase s (.next (s.setEnc s.enc.writeHeader))
  /-- R211: end of the input. -/
  | inputEnd : s.enc.phase = .search → s.enc.sp = windowSize + s.enc.inLen.toNat →
      EncCase s (.next (s.setEnc { s.enc with phase := .final }))
  /-- R211, R214. -/
  | search : s.enc.phase = .search → s.enc.sp ≠ windowSize + s.enc.inLen.toNat →
      EncCase s (.next (s.setEnc { s.enc.search with phase := .emit }))
  /-- R241, R243. -/
  | emitMatch : s.enc.phase = .emit → minMatch ≤ s.enc.bestLen.toNat →
      EncCase s (.next (s.setEnc s.enc.emitMatch.endToken))
  /-- R241, R242. -/
  | emitLit (v : Byte) : s.enc.phase = .emit → s.enc.bestLen.toNat < minMatch → s.enc.work s.enc.sp = some v →
      EncCase s (.next (s.setEnc (s.enc.emitLit v).endToken))
  /-- A literal past `W` (log entry 6). -/
  | pastWork : s.enc.phase = .emit → s.enc.bestLen.toNat < minMatch → s.enc.work s.enc.sp = none →
      EncCase s (.fault (.workAddress s.enc.sp))
  /-- R246. -/
  | final : s.enc.phase = .final → EncCase s (.next (s.setEnc s.enc.finalStep))

/-- Said once: what the encoder's step can do. -/
theorem encStep_case (s : State) : EncCase s (encStep s) := by
  cases hp : s.enc.phase with
  | idle => simpa only [encStep, hp] using EncCase.idle (.inl hp)
  | hdr => simpa only [encStep, hp] using EncCase.header hp
  | search =>
    simp only [encStep, hp, Enc.searchStep]
    split
    · next h => exact .inputEnd hp h
    · next h => exact .search hp h
  | emit =>
    simp only [encStep, hp, Enc.emitStep]
    by_cases hb : minMatch ≤ s.enc.bestLen.toNat
    · simp only [hb, if_true]
      exact .emitMatch hp hb
    · simp only [hb, if_false]
      cases hw : s.enc.work s.enc.sp with
      | some v => exact .emitLit v hp (by omega) hw
      | none => exact .pastWork hp (by omega) hw
  | final => simpa only [encStep, hp] using EncCase.final hp
  | done => simpa only [encStep, hp] using EncCase.idle (.inr hp)

/-! ### The machine's step -/

theorem step_command {s : State} {c : Command} {cs : List Command} (h : s.pending = c :: cs) :
    step s = performCommand c { s with pending := cs } := by
  simp only [step, machineStep, h]

theorem step_dec {s : State} (hp : s.pending = []) (ht : s.turn = .dec) (hr : s.decRefused = none) :
    step s = decStep s.passTurn := by
  simp only [step, machineStep, hp, engineStep, ht, State.refusal, hr]

theorem step_enc {s : State} (hp : s.pending = []) (ht : s.turn = .enc) (hr : s.encRefused = none) :
    step s = encStep s.passTurn := by
  simp only [step, machineStep, hp, engineStep, ht, State.refusal, hr]

/-- A turn of a refused engine (R281, log entry 7). -/
theorem step_refused {s : State} {r : Refusal} (hp : s.pending = []) (hr : s.refusal s.turn = some r) :
    step s = if s.moves s.turn.other then .next s.passTurn else .refused r := by
  simp only [step, machineStep, hp, engineStep, hr]

/-- Said once: a command always has a next state. -/
theorem performCommand_next (c : Command) (s : State) : ∃ t, performCommand c s = .next t := by
  cases c <;> exact ⟨_, rfl⟩

/-- Said once: a step of the machine is a command, a decoder's step, an encoder's step or a refused engine's turn. -/
theorem step_cases (s : State) :
    (∃ c cs, s.pending = c :: cs ∧ step s = performCommand c { s with pending := cs }) ∨
    (s.pending = [] ∧ s.turn = .dec ∧ s.decRefused = none ∧ DecCase s.passTurn (step s)) ∨
    (s.pending = [] ∧ s.turn = .enc ∧ s.encRefused = none ∧ EncCase s.passTurn (step s)) ∨
    ∃ r, s.pending = [] ∧ s.refusal s.turn = some r ∧
      step s = if s.moves s.turn.other then .next s.passTurn else .refused r := by
  cases hp : s.pending with
  | cons c cs => exact .inl ⟨c, cs, rfl, step_command hp⟩
  | nil =>
    refine .inr ?_
    cases hr : s.refusal s.turn with
    | some r => exact .inr (.inr ⟨r, rfl, rfl, step_refused hp hr⟩)
    | none =>
      cases ht : s.turn with
      | dec =>
        have hd : s.decRefused = none := by simpa only [State.refusal, ht] using hr
        exact .inl ⟨rfl, rfl, hd, step_dec hp ht hd ▸ decStep_case s.passTurn⟩
      | enc =>
        have he : s.encRefused = none := by simpa only [State.refusal, ht] using hr
        exact .inr (.inl ⟨rfl, rfl, he, step_enc hp ht he ▸ encStep_case s.passTurn⟩)

/-! ### Runs -/

theorem reaches_zero {s t : State} : State.reaches 0 s t ↔ t = s :=
  ⟨fun h => (Host.Outcome.next.inj h).symm, fun h => h ▸ rfl⟩

/-- A run of one step more begins with a step. -/
theorem reaches_succ {k : Nat} {s t : State} :
    State.reaches (k + 1) s t ↔ ∃ u, step s = .next u ∧ State.reaches k u t := by
  have e : core.step s = step s := rfl
  simp only [State.reaches, Host.Core.run]
  split
  · next u hu =>
    rw [e] at hu
    refine ⟨fun h => ⟨u, hu, h⟩, fun ⟨v, hv, h⟩ => ?_⟩
    rw [hu] at hv
    exact Host.Outcome.next.inj hv ▸ h
  · next f hf => exact ⟨nofun, fun ⟨v, hv, _⟩ => nomatch (e.symm.trans hf).symm.trans hv⟩
  · next r hr => exact ⟨nofun, fun ⟨v, hv, _⟩ => nomatch (e.symm.trans hr).symm.trans hv⟩

/-- A run of one step more ends with a step. -/
theorem reaches_snoc {k : Nat} {s t : State} :
    State.reaches (k + 1) s t ↔ ∃ u, State.reaches k s u ∧ step u = .next t := by
  induction k generalizing s with
  | zero => simp only [reaches_succ, reaches_zero, exists_eq_right, exists_eq_left, eq_comm (a := t)]
  | succ k ih =>
    rw [reaches_succ]
    constructor
    · rintro ⟨u, hu, h⟩
      obtain ⟨v, hv, ht⟩ := ih.1 h
      exact ⟨v, reaches_succ.2 ⟨u, hu, hv⟩, ht⟩
    · rintro ⟨v, hv, ht⟩
      obtain ⟨u, hu, h⟩ := reaches_succ.1 hv
      exact ⟨u, hu, ih.2 ⟨v, h, ht⟩⟩

end Sys2Proof.Machine
end

