-- ==== Sys2Proof/Tests/Slice0.lean ====
section
/-! SUPPORT. Small tests, each from an example or a sentence of `spec/`, and for every statement of
`Certificates/Slice0/Obligations.lean` that has hypotheses a concrete case that meets them. -/

namespace Sys2Proof.Tests

open Sys2Proof Sys2Proof.Machine

/-! ### Helpers -/

/-- The frame of 95_test_vectors.md V3.11: ten bytes 0x41 as a literal and a match. -/
def frame41 : List Byte :=
  [0x00#8, 0x00#8, 0x00#8, 0x0A#8, 0x00#8, 0x00#8, 0x00#8, 0x01#8, 0x01#8, 0x41#8, 0xBE#8, 0xC6#8]

/-- The machine of reset with another decoder. -/
def decState (d : Dec) : State := { State.reset with dec := d }

/-- The machine of reset with another encoder, whose turn it is. -/
def encState (e : Enc) : State := { State.reset with enc := e, turn := .enc }

/-- The decoder of `frame41` before its control byte. -/
def atControl : Dec := { Dec.start frame41 with phase := .ctrl, outLen := 10#32, version := 1#32, ip := 8 }

/-- Before its literal. -/
def atLiteral : Dec := { atControl with phase := .token, ip := 9, ctrl := 0x01#8, bits := 8#4 }

/-- Before its match. -/
def atMatch : Dec :=
  { atLiteral with
      ip := 10, op := 1, wp := 1#10, ctrl := 0x00#8, bits := 7#4, output := [(0, 0x41#8)], window := [(0, 0x41#8)] }

/-- Before the first copy step of the match. -/
def atCopy : Dec := { atMatch with phase := .copy, ip := 12, b1 := 0xBE#8, b2 := 0xC6#8, rp := 0#10, cnt := 9#7 }

/-- A started encoder of the one byte 0x41, whose first search is due. -/
def atSearch : Enc := { Enc.start [0x41#8] with phase := .search }

/-- What a field of the next state is. -/
def after {α : Type} (r : Result) (f : State → α) : Option α :=
  match r with
  | .next s => some (f s)
  | .fault _ => none
  | .refused _ => none

/-! ### Well-formedness -/

/-- R100: a header of version 2 is ill-formed, one of version 1 is not. -/
theorem test_wellFormed_refuses_other_version :
    (Instr.hdr 10#32 2#32).wellFormed = false ∧ (Instr.hdr 10#32 1#32).wellFormed = true := by decide

/-- R163: 1 in the wrong byte order is another version. -/
theorem test_wellFormed_refuses_swapped_version : (Instr.hdr 10#32 0x01000000#32).wellFormed = false := by decide

/-! ### Decoding, the words written out from R93 to R96 -/

/-- R93: length 200, version 1 (R166's example). -/
theorem test_decode_header :
    decode .header [0x00#8, 0x00#8, 0x00#8, 0xC8#8, 0x00#8, 0x00#8, 0x00#8, 0x01#8, 0x55#8] =
      .ok (.hdr 200#32 1#32, [0x55#8]) := rfl

/-- R93: the first byte is the most significant. -/
theorem test_decode_header_byte_order :
    decode .header [0x12#8, 0x34#8, 0x56#8, 0x78#8, 0x00#8, 0x00#8, 0x00#8, 0x01#8] =
      .ok (.hdr 0x12345678#32 1#32, []) := rfl

/-- R100, R163: `01 00 00 00` is refused by name, and seven bytes are too few. -/
theorem test_decode_refuses_header :
    decode .header [0x00#8, 0x00#8, 0x00#8, 0xC8#8, 0x01#8, 0x00#8, 0x00#8, 0x00#8] =
      .error (.illegalVersion 0x01000000#32) ∧
    decode .header [0x00#8, 0x00#8, 0x00#8, 0xC8#8, 0x00#8, 0x00#8, 0x00#8] = .error .truncated := ⟨rfl, rfl⟩

/-- R94. -/
theorem test_decode_control : decode .groupHead [0x2F#8, 0x41#8] = .ok (.ctrl 0x2F#8, [0x41#8]) := rfl

/-- R95. -/
theorem test_decode_literal : decode (.token true) [0x41#8, 0xBE#8] = .ok (.lit 0x41#8, [0xBE#8]) := rfl

/-- R96, R184: `BE C6` is raw offset 958, length code 6; one byte is too few. -/
theorem test_decode_match :
    decode (.token false) [0xBE#8, 0xC6#8] = .ok (.matchTok 0xBE#8 3#2 6#6, []) ∧
    decode (.token false) [0xBE#8] = .error .truncated := ⟨rfl, rfl⟩

/-- R92, R108: the four rows' words, flag bit on top of the payload. -/
theorem test_decodeTableWord :
    decodeTableWord 64 0x000000C800000001 = some (.hdr 200#32 1#32) ∧
    decodeTableWord 8 0x2F = some (.ctrl 0x2F#8) ∧
    decodeTableWord 16 0x141 = some (.lit 0x41#8) ∧
    decodeTableWord 24 0x0BEC6 = some (.matchTok 0xBE#8 3#2 6#6) := by decide

/-- R96, R98: the encoder's bytes of the same match. -/
theorem test_encode_match : encode (Instr.ofOffset 958#10 6#6) = [0xBE#8, 0xC6#8] := by decide

/-! ### The elements executed as the first instruction after reset -/

/-- R162's example: length 10. -/
theorem test_step_header :
    after (step (State.reset.withFetchWord 64 0x0000000A00000001))
      (fun s => (s.dec.outLen, s.dec.version, s.dec.ip, s.dec.phase)) = some (10#32, 1#32, 8, .ctrl) := by decide

/-- R163, R264: version 2 faults with the record of R260. -/
theorem test_step_header_version :
    after (step (State.reset.withFetchWord 64 0x0000000A00000002))
      (fun s => (s.dec.phase, s.dec.status, s.dec.version, s.dec.faultIp, s.dec.faultOp)) =
        some (.fault, 0b0111#4, 2#32, 0, 0) := by decide

/-- R141's example. -/
theorem test_step_control :
    after (step (decState atControl)) (fun s => (s.dec.ctrl, s.dec.bits, s.dec.ip, s.dec.phase)) =
      some (0x01#8, 8#4, 9, .token) := by decide

/-- R141: with the output full nothing is read. -/
theorem test_step_control_full :
    after (step (decState { atControl with outLen := 0#32 })) (fun s => (s.dec.ip, s.dec.ctrl, s.dec.phase)) =
      some (8, 0x00#8, .done) := by decide

/-- R182's example. -/
theorem test_step_literal :
    after (step (decState atLiteral))
      (fun s => (s.dec.outByte 0, s.dec.winRead 0, s.dec.op, s.dec.wp)) = some (some 0x41#8, 0x41#8, 1, 1#10) ∧
    after (step (decState atLiteral)) (fun s => (s.dec.ip, s.dec.ctrl, s.dec.bits)) = some (10, 0x00#8, 7#4) := by
  decide

/-- R125, R182: at `wp = 1023` the window cursor wraps and `op` does not. -/
theorem test_step_literal_wraps :
    after (exec (.lit 0x44#8) (decState { atLiteral with op := 1023, wp := 1023#10, outLen := 2000#32 }))
      (fun s => (s.dec.winRead 1023, s.dec.wp, s.dec.op)) = some (0x44#8, 0#10, 1024) := by decide

/-- R184's example. -/
theorem test_step_match :
    after (step (decState atMatch)) (fun s => (s.dec.rp, s.dec.cnt, s.dec.ip, s.dec.phase, s.dec.bits)) =
      some (0#10, 9#7, 12, .copy, 7#4) := by decide

/-- R184: `FF FF` is raw offset 1023, length 66, read position 65. -/
theorem test_step_match_extreme :
    after (step (State.reset.withFetchWord 24 0x0FFFF)) (fun s => (s.dec.rp, s.dec.cnt, s.dec.b2)) =
      some (65#10, 66#7, 0xFF#8) := by decide

/-! ### The other steps -/

/-- R186's example. -/
theorem test_step_copy :
    after (step (decState atCopy))
      (fun s => (s.dec.outByte 1, s.dec.winRead 1, s.dec.rp, s.dec.wp, s.dec.op, s.dec.cnt)) =
        some (some 0x41#8, 0x41#8, 1#10, 2#10, 2, 8#7) := by decide

/-- R186, R143: the closing step consumes the flag. -/
theorem test_step_copy_closes :
    after (step (decState { atCopy with cnt := 0#7, ctrl := 0x2F#8, bits := 8#4 }))
      (fun s => (s.dec.ctrl, s.dec.bits, s.dec.phase)) = some (0x17#8, 7#4, .token) := by decide

/-- R263: a match that runs past the declared length. -/
theorem test_step_copy_overrun :
    after (step (decState { atCopy with outLen := 1#32 })) (fun s => (s.dec.status, s.dec.faultIp, s.dec.faultOp)) =
      some (0b1111#4, 12, 1) := by decide

/-- R146, R149: the examples of the packer. -/
theorem test_packer :
    (Enc.accShiftIn { Enc.reset with acc := 0x80#8, g := 1#4 } false).acc = 0x40#8 ∧
    (Enc.finalClose { Enc.reset with acc := 0x80#8, g := 1#4, gbuf := [0x41#8] }).stream = [0x01#8, 0x41#8] := by
  decide

/-- R213's example: ten bytes 0x41, the candidate just before `sp = 1025`. -/
theorem test_matchLen : matchLen (memOfBytes .source 0 (List.replicate 10 0x41#8)) 10 1025 1023 = 9 := by decide

/-- R243's example. -/
theorem test_emitMatch :
    (Enc.emitMatch { Enc.reset with bestLen := 9#7, bestOff := 1023#10, sp := 1025 }).gbuf = [0xBE#8, 0xC6#8] ∧
    (Enc.emitMatch { Enc.reset with bestLen := 9#7, bestOff := 1023#10, sp := 1025 }).sp = 1034 := by decide

/-- R98: the floor modulo, `matchOffset + wo = 0` gives 958. -/
theorem test_emittedOffset : emittedOffset 0#10 0 = 958#10 ∧ emittedOffset 0#10 65 = 1023#10 := by decide

/-- V3.11: the loop form decodes the frame. -/
theorem test_loopDecode : loopDecode 0xFFFFFFFF#32 frame41 = .done (List.replicate 10 0x41#8) 12 := by decide

/-! ### Good states -/

theorem test_good_resetEncoder : Enc.reset.Ok :=
  ⟨by decide, by decide, by decide, by decide, by decide, by decide, by decide, by decide, nofun, by decide, by decide,
    by decide, by decide⟩

/-- The decoder states used below are good when their decoder is. -/
theorem good_decState {d : Dec} (hm : d.MemoriesOk) (hr : d.RangesOk) (hp : d.PhaseOk) (hw : d.WindowOk) :
    (decState d).Ok where
  memories := hm
  ranges := hr
  phases := hp
  window := hw
  encoder := test_good_resetEncoder
  outputAccepted := by
    have hmax : (decState d).cfg.decMaxOut.toNat = 4294967295 := rfl
    have hlt : (decState d).dec.outLen.toNat < 4294967296 := d.outLen.isLt
    omega
  inputAccepted := Nat.zero_le _
  decRefusal := nofun
  encRefusal := nofun

/-- A decoder whose window holds 0x41 at address 0 only, one byte produced. -/
theorem zeroSeed_one {d : Dec} (hw : d.window = [(0, 0x41#8)]) (ho : d.op = 1) :
    ∀ a, d.op ≤ a → a < windowSize → d.winRead a = 0#8 := by
  intro a h1 h2
  have ha : a % windowSize ≠ 0 := by simp only [windowSize] at *; omega
  simp only [Dec.winRead, hw, memRead, Nat.not_lt_zero, if_false, ha, Space.unlisted, Option.getD_some]

/-- In the middle of a call, before the first copy step of a match. -/
theorem test_good_copying : (decState atCopy).Ok :=
  good_decState ⟨by decide, by decide, by decide, by decide, by decide, by decide⟩
    ⟨by decide, by decide, by decide, by decide, by decide⟩
    ⟨by decide, by decide, by decide, by decide, by decide, by decide, by decide, by decide, by decide,
      by decide⟩
    ⟨by decide, by decide, zeroSeed_one rfl rfl⟩

/-- The same match with no room left. -/
theorem test_good_overrunning : (decState { atCopy with outLen := 1#32 }).Ok :=
  good_decState ⟨by decide, by decide, by decide, by decide, by decide, by decide⟩
    ⟨by decide, by decide, by decide, by decide, by decide⟩
    ⟨by decide, by decide, by decide, by decide, by decide, by decide, by decide, by decide, by decide,
      by decide⟩
    ⟨by decide, by decide, zeroSeed_one rfl rfl⟩

/-- A call whose frame has no byte. -/
theorem test_good_shortHeader : (decState (Dec.start [])).Ok :=
  good_decState ⟨by decide, by decide, by decide, by decide, by decide, by decide⟩
    ⟨by decide, by decide, by decide, by decide, by decide⟩
    ⟨by decide, by decide, by decide, by decide, by decide, by decide, by decide, by decide, by decide,
      by decide⟩
    ⟨by decide, by decide, fun _ _ _ => rfl⟩

/-- Eight bytes of header with version 2. -/
def frameVersion2 : List Byte := [0x00#8, 0x00#8, 0x00#8, 0x0A#8, 0x00#8, 0x00#8, 0x00#8, 0x02#8]

/-- A call whose frame has another version. -/
theorem test_good_badVersion : (decState (Dec.start frameVersion2)).Ok :=
  good_decState ⟨by decide, by decide, by decide, by decide, by decide, by decide⟩
    ⟨by decide, by decide, by decide, by decide, by decide⟩
    ⟨by decide, by decide, by decide, by decide, by decide, by decide, by decide, by decide, by decide,
      by decide⟩
    ⟨by decide, by decide, fun _ _ _ => rfl⟩

/-- The header of ten bytes and nothing after it. -/
def cutAtControl : Dec :=
  { Dec.start (frame41.take 8) with phase := .ctrl, outLen := 10#32, version := 1#32, ip := 8 }

theorem test_good_cutAtControl : (decState cutAtControl).Ok :=
  good_decState ⟨by decide, by decide, by decide, by decide, by decide, by decide⟩
    ⟨by decide, by decide, by decide, by decide, by decide⟩
    ⟨by decide, by decide, by decide, by decide, by decide, by decide, by decide, by decide, by decide,
      by decide⟩
    ⟨by decide, by decide, fun _ _ _ => rfl⟩

/-! ### Cases that meet the hypotheses of the statements, by the statement's name -/

theorem test_witness_DecodeInvertsEncode : (Instr.hdr 0xFFFFFFFF#32 1#32).wellFormed = true := by decide

theorem test_witness_EncodeInvertsDecode :
    decode (.token false) [0xFF#8, 0x3F#8, 0x00#8] = .ok (.matchTok 0xFF#8 0#2 63#6, [0x00#8]) := rfl

theorem test_witness_OnlyTheVersionCanBeIllegal :
    Position.token false ≠ .header ∧ (Position.token false).byteLength ≤ [0x00#8, 0x00#8].length := by decide

theorem test_witness_StepRunsTheDecodedElement :
    (decState atMatch).pending = [] ∧ (decState atMatch).turn = .dec ∧
    (decState atMatch).decRefused = none ∧ (decState atMatch).dec.awaits (.token false) ∧
      decode (.token false) ((decState atMatch).dec.elementBytes (.token false)) =
        .ok (.matchTok 0xBE#8 3#2 6#6, []) :=
  ⟨rfl, rfl, rfl, ⟨rfl, by decide, by decide, rfl⟩, rfl⟩

theorem test_witness_PlacedWordRunsFirst :
    decodeTableWord 64 0xFFFFFFFF00000001 = some (.hdr 0xFFFFFFFF#32 1#32) ∧
    decodeTableWord 8 0 = some (.ctrl 0#8) ∧ decodeTableWord 16 0x100 = some (.lit 0#8) ∧
    decodeTableWord 24 0x0FFFF = some (.matchTok 0xFF#8 3#2 63#6) := by decide

theorem test_witness_ReadPositionIsTheBiasedOffset :
    (957#10).toNat ≤ 957 ∧ 958 ≤ (958#10).toNat ∧ readPosition 957#10 = 1023#10 ∧ readPosition 958#10 = 0#10 := by
  decide

theorem test_witness_EmittedMatchDecodesBack : 3 ≤ (3#7).toNat ∧ (64#7).toNat ≤ 64 := by decide

theorem test_witness_ListingPseudoElementsExpand :
    1 ≤ [ListedToken.lit 0x41#8].length ∧ (List.replicate 8 (ListedToken.matchRp 0#10 6#6)).length ≤ 8 := by decide

theorem test_witness_HdrCompletes :
    (0xFFFFFFFF#32).toNat ≤ State.reset.cfg.decMaxOut.toNat ∧ (0#32).toNat ≤ State.reset.cfg.decMaxOut.toNat := by
  decide

theorem test_witness_HdrOfAnotherVersionTakesFormatError : (0x01000000#32) ≠ 1#32 := by decide

/-- The machine of reset with another `DEC_MAX_OUT`. -/
def smallOut (d : Dec) : State := { decState d with cfg := { Config.default with decMaxOut := 9#32 } }

theorem test_witness_HdrTooLongIsRefused : (smallOut Dec.reset).cfg.decMaxOut.toNat < (10#32).toNat := by decide

theorem test_witness_CtrlCompletes :
    (decState atControl).dec.op ≠ (decState atControl).dec.outLen.toNat ∧
    State.reset.dec.op = State.reset.dec.outLen.toNat := by decide

theorem test_witness_LitCompletes :
    Memory.wf .output (decState atLiteral).dec.output ∧ Memory.wf .window (decState atLiteral).dec.window ∧
      (decState atLiteral).dec.op < (decState atLiteral).dec.outLen.toNat := by decide

theorem test_witness_LitPastTheOutputStops : State.reset.dec.outLen.toNat ≤ State.reset.dec.op := by decide

/-- Seven bytes, another version, a length one above `DEC_MAX_OUT`, and the greatest accepted one. -/
theorem test_witness_HeaderStepFollowsHdrRead :
    (decState (Dec.start (frame41.take 7))).dec.inLen < 8 ∧
    (decState (Dec.start frame41)).pending = [] ∧ (decState (Dec.start frame41)).turn = .dec ∧
    (decState (Dec.start frame41)).decRefused = none ∧
    (Dec.start frame41).phase = .hdr ∧ (Dec.start frame41).ip = 0 ∧ (Dec.start frame41).op = 0 ∧
    (Dec.start frame41).inByteAt 0 = some 0x00#8 ∧ (Dec.start frame41).inByteAt 3 = some 0x0A#8 ∧
    (Dec.start frame41).inByteAt 7 = some 0x01#8 ∧ (Dec.start frameVersion2).inByteAt 7 = some 0x02#8 ∧
    (smallOut (Dec.start frame41)).cfg.decMaxOut.toNat < (be32 0x00#8 0x00#8 0x00#8 0x0A#8).toNat ∧
    (be32 0xFF#8 0xFF#8 0xFF#8 0xFF#8).toNat ≤ (decState (Dec.start frame41)).cfg.decMaxOut.toNat := by decide

theorem test_witness_ControlByteStepFollowsCtrlFetch :
    (decState atControl).pending = [] ∧ (decState atControl).turn = .dec ∧
    (decState atControl).decRefused = none ∧ atControl.phase = .ctrl ∧
    atControl.op ≠ atControl.outLen.toNat ∧ atControl.inByteAt atControl.ip = some 0x01#8 ∧
    cutAtControl.phase = .ctrl ∧ cutAtControl.op ≠ cutAtControl.outLen.toNat ∧
    cutAtControl.inLen ≤ cutAtControl.ip ∧
    (Dec.op { cutAtControl with outLen := 0#32 }) = (Dec.outLen { cutAtControl with outLen := 0#32 }).toNat := by
  decide

/-- A literal, a match, the output full, and no flag left with output owed. -/
theorem test_witness_TokenDispatchFollowsTheFlag :
    (decState atLiteral).pending = [] ∧ (decState atLiteral).turn = .dec ∧
    (decState atLiteral).decRefused = none ∧ atLiteral.phase = .token ∧
    atLiteral.op ≠ atLiteral.outLen.toNat ∧ atLiteral.bits ≠ 0#4 ∧ atLiteral.ctrl.getLsbD 0 = true ∧
    atLiteral.inByteAt atLiteral.ip = some 0x41#8 ∧
    atMatch.phase = .token ∧ atMatch.op ≠ atMatch.outLen.toNat ∧ atMatch.bits ≠ 0#4 ∧
    atMatch.ctrl.getLsbD 0 = false ∧ atMatch.inByteAt atMatch.ip = some 0xBE#8 ∧
    atMatch.inByteAt (atMatch.ip + 1) = some 0xC6#8 ∧
    (Dec.phase { atMatch with outLen := 1#32 }) = .token ∧
    (Dec.op { atMatch with outLen := 1#32 }) = (Dec.outLen { atMatch with outLen := 1#32 }).toNat ∧
    (Dec.phase { atMatch with bits := 0#4 }) = .token ∧ (Dec.bits { atMatch with bits := 0#4 }) = 0#4 ∧
    (Dec.op { atMatch with bits := 0#4 }) ≠ (Dec.outLen { atMatch with bits := 0#4 }).toNat := by decide

/-- A literal with its byte, and one whose byte is missing. -/
theorem test_witness_LiteralStepFollowsLit :
    (decState atLiteral).pending = [] ∧ (decState atLiteral).turn = .dec ∧
    (decState atLiteral).decRefused = none ∧ atLiteral.phase = .token ∧
    atLiteral.bits ≠ 0#4 ∧ atLiteral.ctrl.getLsbD 0 = true ∧ atLiteral.op < atLiteral.outLen.toNat ∧
    Memory.wf .output atLiteral.output ∧ Memory.wf .window atLiteral.window ∧
    atLiteral.inByteAt atLiteral.ip = some 0x41#8 ∧
    (Dec.inLen { atLiteral with inLen := 9 }) ≤ (Dec.ip { atLiteral with inLen := 9 }) := by decide

/-- Both bytes there, only `b1` there, none there. -/
theorem test_witness_MatchFetchStepIsPrecise :
    (decState atMatch).pending = [] ∧ (decState atMatch).turn = .dec ∧
    (decState atMatch).decRefused = none ∧ atMatch.phase = .token ∧
    atMatch.bits ≠ 0#4 ∧ atMatch.ctrl.getLsbD 0 = false ∧ atMatch.op ≠ atMatch.outLen.toNat ∧
    atMatch.inByteAt atMatch.ip = some 0xBE#8 ∧ atMatch.inByteAt (atMatch.ip + 1) = some 0xC6#8 ∧
    (Dec.inByteAt { atMatch with inLen := 11 } 10) = some 0xBE#8 ∧
    (Dec.inLen { atMatch with inLen := 11 }) ≤ atMatch.ip + 1 ∧
    (Dec.inLen { atMatch with inLen := 10 }) ≤ atMatch.ip := by decide

/-- A byte to copy, the output full, nothing left. -/
theorem test_witness_CopyStepFollowsCopy :
    (decState atCopy).pending = [] ∧ (decState atCopy).turn = .dec ∧
    (decState atCopy).decRefused = none ∧ atCopy.phase = .copy ∧
    Memory.wf .output atCopy.output ∧ Memory.wf .window atCopy.window ∧
    atCopy.cnt ≠ 0#7 ∧ atCopy.op < atCopy.outLen.toNat ∧
    atCopy.op = (Dec.outLen { atCopy with outLen := 1#32 }).toNat ∧
    (Dec.cnt { atCopy with cnt := 0#7 }) = 0#7 := by decide

/-- The match ends exactly at the end of the output. -/
theorem test_witness_MatchCopiesWithPeriodTheDistance :
    (decState atCopy).decoderAlone ∧ atCopy.phase = .copy ∧ Memory.wf .output atCopy.output ∧
      Memory.wf .window atCopy.window ∧ atCopy.op + atCopy.cnt.toNat = atCopy.outLen.toNat :=
  ⟨⟨rfl, rfl, rfl, rfl⟩, rfl, by decide, by decide, rfl⟩

/-- One entry into `FAULT` of each kind, from good states. -/
theorem test_witness_EachCauseHasItsCondition :
    (∃ t, (decState (Dec.start frameVersion2)).Ok ∧ step (decState (Dec.start frameVersion2)) = .next t ∧
      (Dec.start frameVersion2).phase ≠ .fault ∧ t.dec.phase = .fault ∧ t.dec.cause = .formatError) ∧
    (∃ t, (decState (Dec.start [])).Ok ∧ step (decState (Dec.start [])) = .next t ∧
      (Dec.start []).phase ≠ .fault ∧ t.dec.phase = .fault ∧ t.dec.cause = .truncatedStream) ∧
    (∃ t, (decState cutAtControl).Ok ∧ step (decState cutAtControl) = .next t ∧
      cutAtControl.phase ≠ .fault ∧ t.dec.phase = .fault ∧ t.dec.faultIp = 8) ∧
    (∃ t, (decState { atCopy with outLen := 1#32 }).Ok ∧ step (decState { atCopy with outLen := 1#32 }) = .next t ∧
      atCopy.phase ≠ .fault ∧ t.dec.phase = .fault ∧ t.dec.cause = .outputOverrun) :=
  ⟨⟨_, test_good_badVersion, rfl, nofun, rfl, rfl⟩, ⟨_, test_good_shortHeader, rfl, nofun, rfl, rfl⟩,
    ⟨_, test_good_cutAtControl, rfl, nofun, rfl, rfl⟩, ⟨_, test_good_overrunning, rfl, nofun, rfl, rfl⟩⟩

theorem test_witness_FaultEntryRecordsTheCursors :
    ∃ t, step (decState { atCopy with outLen := 1#32 }) = .next t ∧ atCopy.phase ≠ .fault ∧ t.dec.phase = .fault :=
  ⟨_, rfl, nofun, rfl⟩

/-- A decoder in `FAULT`. -/
def faultedDec : Dec := Dec.raise .outputOverrun atCopy

theorem test_good_faulted : (decState faultedDec).Ok :=
  good_decState ⟨by decide, by decide, by decide, by decide, by decide, by decide⟩
    ⟨by decide, by decide, by decide, by decide, by decide⟩
    ⟨by decide, by decide, by decide, by decide, by decide, by decide, by decide, by decide, by decide, by decide⟩
    ⟨by decide, by decide, zeroSeed_one rfl rfl⟩

/-- In `FAULT`: a step without a command, a start, an abort. -/
theorem test_witness_OnlyTheHostLeavesFault :
    faultedDec.phase = .fault ∧ (∃ t, step (decState faultedDec) = .next t ∧ t.dec = faultedDec) ∧
    (∃ t, step ((decState faultedDec).post (.decStart frame41)) = .next t ∧ t.dec = Dec.start frame41) ∧
    (∃ t, step ((decState faultedDec).post .decAbort) = .next t ∧ t.dec = Dec.reset) :=
  ⟨rfl, ⟨_, rfl, rfl⟩, ⟨_, rfl, rfl⟩, ⟨_, rfl, rfl⟩⟩

theorem test_witness_NothingHappensUntilTheHostStarts :
    (decState faultedDec).pending = [] ∧ (decState faultedDec).refusal (decState faultedDec).turn = none ∧
      (decState faultedDec).busy .dec = false ∧ (decState faultedDec).busy .enc = false := by decide

theorem test_witness_DecoderStartInitialisesTheCall :
    ((decState faultedDec).post (.decStart frame41)).pending = [.decStart frame41] ∧
      ((decState faultedDec).post (.decStart frame41)).busy .dec = false := by decide

/-- The input is as long as `ENC_MAX_IN` allows. -/
theorem test_witness_EncoderStartInitialisesTheCall :
    let s : State := { State.reset.post (.encStart [0x41#8]) with cfg := { Config.default with encMaxIn := 1#32 } }
    s.pending = [.encStart [0x41#8]] ∧ s.busy .enc = false ∧ [0x41#8].length ≤ s.cfg.encMaxIn.toNat := by decide

/-- A start while BUSY of each engine, an input one byte too long, one as long as allowed, and an accepted frame. -/
theorem test_witness_StartsAreRefusedWhenNotAllowed :
    ((decState atCopy).post (.decStart [])).pending = [.decStart []] ∧
    ((decState atCopy).post (.decStart [])).busy .dec = true ∧
    ((encState atSearch).post (.encStart [])).pending = [.encStart []] ∧
    ((encState atSearch).post (.encStart [])).busy .enc = true ∧
    (let s : State := { State.reset.post (.encStart [0x41#8]) with cfg := { Config.default with encMaxIn := 0#32 } }
     s.pending = [.encStart [0x41#8]] ∧ s.busy .enc = false ∧ s.cfg.encMaxIn.toNat < [0x41#8].length) ∧
    (let s : State := { State.reset.post (.encStart [0x41#8]) with cfg := { Config.default with encMaxIn := 1#32 } }
     s.pending = [.encStart [0x41#8]] ∧ s.busy .enc = false ∧ [0x41#8].length ≤ s.cfg.encMaxIn.toNat) ∧
    (State.reset.post (.decStart [])).pending = [.decStart []] ∧
    (State.reset.post (.decStart [])).busy .dec = false := by decide

theorem test_witness_AbortReturnsTheEngineToReset :
    ((decState atCopy).post .decAbort).pending = [.decAbort] ∧
    ((encState atSearch).post .encAbort).pending = [.encAbort] := by decide

/-- A call in its middle, whose fault registers read 0, and one in `FAULT`, whose fault registers read its cursors. -/
theorem test_witness_StatusFieldsFollowThePhase :
    (decState atCopy).Ok ∧ atCopy.status.extractLsb' 0 2 ≠ 3#2 ∧
    (decState faultedDec).Ok ∧ faultedDec.status.extractLsb' 0 2 = 3#2 ∧
    (decState faultedDec).hostRead .decFaultIp = 12 ∧ (decState faultedDec).hostRead .decFaultOp = 1 :=
  ⟨test_good_copying, by decide, test_good_faulted, by decide, rfl, rfl⟩

theorem test_witness_WindowHoldsTheLastPushedBytes :
    [0x41#8][0]? = some 0x41#8 ∧ [0x41#8].length ≤ 0 + 1024 ∧ 1023 < 1024 ∧ [0x41#8].length ≤ 1023 := by decide

theorem test_witness_DistanceNamesTheByteBefore : 1 ≤ 1 ∧ 1 ≤ 1024 ∧ 1024 ≤ 1024 := by decide

/-- The first part at `j = 0` and `j = 8`; the second after the fetch of a control byte, a literal and the fetch of a
match, and after the fetch alone. -/
theorem test_witness_UnpackerSeesLaneByLane :
    ((Dec.ctrl { atLiteral with ctrl := 0xA5#8 }) = 0xA5#8 ∧ atLiteral.bits = 8#4 ∧ 8 ≤ 8 ∧ 0 ≤ 8) ∧
    ((decState atControl).decoderAlone ∧ atControl.phase = .ctrl ∧ atControl.op ≠ atControl.outLen.toNat ∧
      atControl.inByteAt atControl.ip = some 0x01#8) ∧
    (∃ t, State.reaches 1 (decState atControl) t ∧ t.dec.phase = .token) ∧
    (∃ t, State.reaches 2 (decState atControl) t ∧ t.dec.phase = .token) ∧
    ∃ t, State.reaches 3 (decState atControl) t ∧ t.dec.phase = .copy :=
  ⟨by decide, ⟨⟨rfl, rfl, rfl, rfl⟩, rfl, by decide, rfl⟩, ⟨_, rfl, rfl⟩, ⟨_, rfl, rfl⟩, ⟨_, rfl, rfl⟩⟩

/-- So the premise on the states on the way holds as well, for three steps. -/
theorem test_witness_UnpackerSeesLaneByLane_way :
    ∀ m u, m ≤ 2 → State.reaches (m + 1) (decState atControl) u → u.dec.phase = .token ∨ u.dec.phase = .copy := by
  intro m u hm h
  match m, hm with
  | 0, _ => exact .inl (Host.Outcome.next.inj h ▸ rfl)
  | 1, _ => exact .inl (Host.Outcome.next.inj h ▸ rfl)
  | 2, _ => exact .inr (Host.Outcome.next.inj h ▸ rfl)

theorem test_witness_PackedFlagsComeOutInOrder :
    Enc.reset.acc = 0#8 ∧ Enc.reset.g = 0#4 ∧ 1 ≤ [true].length ∧ (List.replicate 8 false).length ≤ 8 := by decide

theorem test_witness_EncoderHeaderStepFollowsHdrWrite :
    (encState (Enc.start [0x41#8])).pending = [] ∧ (encState (Enc.start [0x41#8])).turn = .enc ∧
    (encState (Enc.start [0x41#8])).encRefused = none ∧
      (Enc.start [0x41#8]).phase = .hdr := by decide

/-- A position to search, and the end of the input. -/
theorem test_witness_SearchStepLoadsTheBestMatch :
    (encState atSearch).pending = [] ∧ (encState atSearch).turn = .enc ∧
    (encState atSearch).encRefused = none ∧ atSearch.phase = .search ∧
    atSearch.sp ≠ 1024 + atSearch.inLen.toNat ∧
    (Enc.sp { atSearch with sp := 1025 }) = 1024 + atSearch.inLen.toNat := by decide

/-- The run is shorter than the cap, and as long as the cap. -/
theorem test_witness_MatchLengthIsTheLongestRun :
    matchLen (memOfBytes .source 0 [0x41#8]) 1 1024 0 < min 64 (1024 + 1 - 1024) ∧
    0 < matchLen (memOfBytes .source 0 [0x00#8]) 1 1024 0 := by decide

/-- A zero byte matches the zero prefix at candidate 1023 too, where a byte 0x41 matches nowhere. -/
theorem test_witness_SearchReturnsTheFirstLongest :
    matchLen (memOfBytes .source 0 [0x00#8]) 1 1024 1023 = 1 ∧
    matchLen (memOfBytes .source 0 [0x41#8]) 1 1024 1023 = 0 := by decide

/-- An open group, and its eighth token; the best length is the greatest that gives a literal. -/
theorem test_witness_EmitStepWritesALiteral :
    (encState { atSearch with phase := .emit, bestLen := 2#7 }).pending = [] ∧
    (encState { atSearch with phase := .emit, bestLen := 2#7 }).turn = .enc ∧
    (encState { atSearch with phase := .emit, bestLen := 2#7 }).encRefused = none ∧ (2#7).toNat ≤ 2 ∧
    (Enc.work { atSearch with phase := .emit, bestLen := 2#7 } 1024) = some 0x41#8 ∧
    atSearch.g ≠ 7#4 ∧ (Enc.g { atSearch with g := 7#4 }) = 7#4 := by decide

theorem test_witness_EmitStepWritesAMatch :
    (encState { atSearch with phase := .emit, bestLen := 3#7 }).pending = [] ∧
    (encState { atSearch with phase := .emit, bestLen := 3#7 }).turn = .enc ∧
    (encState { atSearch with phase := .emit, bestLen := 3#7 }).encRefused = none ∧ 2 < (3#7).toNat ∧ (64#7).toNat ≤ 64 ∧
    atSearch.g ≠ 7#4 ∧ (Enc.g { atSearch with g := 7#4 }) = 7#4 := by decide

theorem test_witness_FinalStepFlushesThePartialGroup :
    (encState { atSearch with phase := .final }).pending = [] ∧
    (encState { atSearch with phase := .final }).turn = .enc ∧
    (encState { atSearch with phase := .final }).encRefused = none ∧ atSearch.g = 0#4 ∧
    (Enc.g { atSearch with g := 1#4 }) ≠ 0#4 := by decide

theorem test_witness_CircularWindowReadsTheWorkingBuffer : 1 ≤ [0x41#8].length ∧ 1 ≤ 1025 := by decide

theorem test_witness_EveryStepKeepsTheStateGood :
    (decState atCopy).Ok ∧ ∃ t, step (decState atCopy) = .next t := ⟨test_good_copying, _, rfl⟩

theorem test_witness_GoodStatesNeverFault : (decState atCopy).Ok := test_good_copying

/-- A refusal of each kind: the call refused, the mark set, and the machine's answer at the refused engine's turn. -/
theorem test_witness_OnlyTheSpecsCallsAreRefused :
    after (step (smallOut (Dec.start frame41))) State.decRefused = some (some (.declaredLengthTooLarge 10#32)) ∧
    after (step ((decState atCopy).post (.decStart []))) State.decRefused = some (some (.startWhileBusy .dec)) ∧
    after (step ((encState atSearch).post (.encStart []))) State.encRefused = some (some (.startWhileBusy .enc)) ∧
    after (step { State.reset.post (.encStart [0x41#8]) with cfg := { Config.default with encMaxIn := 0#32 } })
      State.encRefused = some (some (.inputTooLong 1)) ∧
    step ((decState atCopy).refuse .dec (.startWhileBusy .dec)) = .refused (.startWhileBusy .dec) :=
  ⟨rfl, rfl, rfl, rfl, rfl⟩

/-- Both engines BUSY, the decoder before a header that declares too much and the encoder before its header. -/
def bothBusy : State := (smallOut (Dec.start frame41)).setEnc (Enc.start [0x41#8])

/-- R281, R162 sub-step 6: the decoder's call is refused and its turn passes, and the encoder writes its header. -/
theorem test_refused_decoder_leaves_encoder_running :
    after (step bothBusy) (fun s => (s.decRefused, s.turn, s.enc.phase)) =
      some (some (.declaredLengthTooLarge 10#32), .enc, .hdr) ∧
    after (step ((bothBusy.refuse .dec (.declaredLengthTooLarge 10#32)).passTurn)) (fun s => (s.enc.phase, s.turn)) =
      some (.search, .enc) := by decide

/-- R281, R50: a start of the BUSY encoder is refused, and the decoder copies its next byte. -/
theorem test_refused_encoder_leaves_decoder_running :
    after (step (((decState atCopy).setEnc atSearch).refuse .enc (.startWhileBusy .enc)))
      (fun s => (s.dec.op, s.turn)) = some (2, .dec) ∧
    after (step { ((decState atCopy).setEnc atSearch).refuse .enc (.startWhileBusy .enc) with turn := .enc })
      (fun s => (s.dec.op, s.turn)) = some (1, .dec) := by decide

/-- R50: `ABORT` ends the refusal, and so does a start that is accepted. -/
theorem test_refusal_ends :
    after (step (((decState atCopy).refuse .dec (.startWhileBusy .dec)).post .decAbort)) State.decRefused =
      some none ∧
    after (step ((State.reset.refuse .enc (.inputTooLong 5)).post (.encStart []))) State.encRefused = some none := by
  decide

/-- A decoder's step, an encoder's step, a command, and a refused encoder's turn with the decoder BUSY and without. -/
theorem test_witness_EnginesShareNothing :
    (∃ t, step (decState atCopy) = .next t ∧ (decState atCopy).pending = [] ∧ (decState atCopy).turn = .dec) ∧
    (∃ t, step (encState (Enc.start [])) = .next t ∧ (encState (Enc.start [])).turn = .enc) ∧
    (∃ t, step ((decState atCopy).post .encAbort) = .next t) ∧
    (decState atCopy).Ok ∧ (decState atCopy).moves .dec = true ∧
    (let s : State := { (decState atCopy).refuse .enc (.inputTooLong 5) with turn := .enc }
     s.pending = [] ∧ s.refusal s.turn = some (.inputTooLong 5) ∧ s.moves s.turn.other = true) ∧
    (let s : State := (encState Enc.reset).refuse .enc (.inputTooLong 5)
     s.pending = [] ∧ s.refusal s.turn = some (.inputTooLong 5) ∧ s.moves s.turn.other = false) :=
  ⟨⟨_, rfl, rfl, rfl⟩, ⟨_, rfl, rfl⟩, ⟨_, rfl⟩, test_good_copying, rfl, by decide, by decide⟩

/-- Two machines whose decoders are equal and whose encoders are not, a call of the second's encoder refused. -/
theorem test_witness_EachEngineSeesOnlyItself :
    let s' : State := ((decState atCopy).setEnc atSearch).refuse .enc (.startWhileBusy .enc)
    (decState atCopy).dec = s'.dec ∧ (decState atCopy).enc ≠ s'.enc ∧ s'.decRefused = none ∧ s'.turn = .dec ∧
    s'.pending = [] ∧ s'.encRefused ≠ none ∧ (decState atCopy).decRefused = none ∧
    ∃ t, step (decState atCopy) = .next t := ⟨rfl, by decide, rfl, rfl, rfl, nofun, rfl, _, rfl⟩

theorem test_witness_CursorsOnlyMoveForward :
    (decState atCopy).Ok ∧ (decState atCopy).pending = [] ∧ ∃ t, step (decState atCopy) = .next t :=
  ⟨test_good_copying, rfl, _, rfl⟩

theorem test_witness_EveryDecodeCallEnds :
    (decState atCopy).Ok ∧ (decState atCopy).pending = [] ∧ (decState atCopy).decRefused = none ∧
    (decState atCopy).busy .dec = true := ⟨test_good_copying, rfl, rfl, rfl⟩

/-- A call to each outcome: done, fault, refused. -/
theorem test_witness_DecoderEqualsItsLoopForm :
    (State.reset.post (.decStart frame41)).pending = [.decStart frame41] ∧
    (State.reset.post (.decStart frame41)).turn = .dec ∧ State.reset.busy .dec = false ∧
    State.reset.moves .enc = false ∧
    loopDecode State.reset.cfg.decMaxOut frame41 = .done (List.replicate 10 0x41#8) 12 ∧
    loopDecode State.reset.cfg.decMaxOut frameVersion2 = .fault .formatError ∧
    loopDecode 9#32 frame41 = .refused 10#32 := by decide

theorem test_witness_EncoderEqualsItsLoopForm :
    let s : State := { State.reset.post (.encStart [0x41#8]) with turn := .enc }
    s.pending = [.encStart [0x41#8]] ∧ s.turn = .enc ∧ s.busy .enc = false ∧ s.moves .dec = false ∧
      [0x41#8].length ≤ s.cfg.encMaxIn.toNat := by decide

theorem test_witness_TrailingBytesAreNeverRead :
    loopDecode 0xFFFFFFFF#32 (frame41.take 8) = .fault .truncatedStream ∧
    loopDecode 10#32 frame41 = .done (List.replicate 10 0x41#8) 12 := by decide

theorem test_witness_DecodingAnEncodedInputGivesItBack :
    let s : State := { State.reset.post (.encStart [0x41#8]) with turn := .enc }
    s.pending = [.encStart [0x41#8]] ∧ s.turn = .enc ∧ s.busy .enc = false ∧ s.moves .dec = false ∧
      [0x41#8].length ≤ s.cfg.encMaxIn.toNat ∧ [0x41#8].length ≤ s.cfg.decMaxOut.toNat ∧
      (State.reset.post (.decStart frame41)).cfg = s.cfg := by decide

end Sys2Proof.Tests
end

section
/-! PROOFS. The scope of a step (00_scope.md): which engine a step may change, that good states have a next state, and
that within a call the cursors only move forward. -/

namespace Sys2Proof.Machine

open Sys2Proof

/-! ### What a next state of an engine's step leaves alone -/

/-- A decoder's step writes the decoder, or marks its call as refused; nothing else of the state (R20, R281). -/
theorem DecCase.next_frame {s t : State} (h : DecCase s (.next t)) :
    (∃ d, t = s.setDec d) ∨ ∃ r, t = s.refuse .dec r := by
  cases h with
  | idle => exact .inl ⟨s.dec, rfl⟩
  | tooLong => exact .inr ⟨_, rfl⟩
  | _ => exact .inl ⟨_, rfl⟩

/-- An encoder's step writes the encoder and nothing else of the state (R20, R281). -/
theorem EncCase.next_frame {s t : State} (h : EncCase s (.next t)) : ∃ e, t = s.setEnc e := by
  cases h with
  | idle => exact ⟨s.enc, rfl⟩
  | _ => exact ⟨_, rfl⟩

/-- A command acts on its engine alone (R50, log entry 12), and leaves the parameters. -/
theorem performCommand_frame {c : Command} {s t : State} (h : performCommand c s = .next t) :
    (t.dec = s.dec ∧ t.decRefused = s.decRefused ∨ t.enc = s.enc ∧ t.encRefused = s.encRefused) ∧
      t.cfg = s.cfg := by
  cases c with
  | decStart frame =>
    obtain rfl := Host.Outcome.next.inj h
    split <;> exact ⟨.inr ⟨rfl, rfl⟩, rfl⟩
  | encStart src =>
    obtain rfl := Host.Outcome.next.inj h
    split_ifs <;> exact ⟨.inl ⟨rfl, rfl⟩, rfl⟩
  | decAbort =>
    obtain rfl := Host.Outcome.next.inj h
    exact ⟨.inr ⟨rfl, rfl⟩, rfl⟩
  | encAbort =>
    obtain rfl := Host.Outcome.next.inj h
    exact ⟨.inl ⟨rfl, rfl⟩, rfl⟩

/-- With no command waiting, a next state comes from a step of the engine whose turn it is, or is the passing of a
refused engine's turn. -/
theorem step_next_cases {s t : State} (hp : s.pending = []) (h : step s = .next t) :
    (s.turn = .dec ∧ DecCase s.passTurn (.next t)) ∨ (s.turn = .enc ∧ EncCase s.passTurn (.next t)) ∨
      t = s.passTurn := by
  rcases step_cases s with ⟨c, cs, hc, _⟩ | ⟨_, ht, _, hd⟩ | ⟨_, ht, _, he⟩ | ⟨r, _, _, hs⟩
  · simp [hp] at hc
  · exact .inl ⟨ht, h ▸ hd⟩
  · exact .inr (.inl ⟨ht, h ▸ he⟩)
  · rw [hs] at h
    split at h
    · exact .inr (.inr (Host.Outcome.next.inj h).symm)
    · cases h

/-! ### Frames of the machine's step -/

/-- At the decoder's turn the encoder stays as it is, its refused call included. -/
theorem step_keeps_enc {s t : State} (hp : s.pending = []) (ht : s.turn = .dec) (h : step s = .next t) :
    t.enc = s.enc ∧ t.encRefused = s.encRefused := by
  rcases step_next_cases hp h with ⟨_, hd⟩ | ⟨he, _⟩ | rfl
  · rcases hd.next_frame with ⟨d, rfl⟩ | ⟨r, rfl⟩ <;> exact ⟨passTurn_enc s, passTurn_encRefused s⟩
  · simp [ht] at he
  · exact ⟨passTurn_enc s, passTurn_encRefused s⟩

/-- At the encoder's turn the decoder stays as it is, its refused call included. -/
theorem step_keeps_dec {s t : State} (hp : s.pending = []) (ht : s.turn = .enc) (h : step s = .next t) :
    t.dec = s.dec ∧ t.decRefused = s.decRefused := by
  rcases step_next_cases hp h with ⟨hd, _⟩ | ⟨_, he⟩ | rfl
  · simp [ht] at hd
  · obtain ⟨e, rfl⟩ := he.next_frame
    exact ⟨passTurn_dec s, passTurn_decRefused s⟩
  · exact ⟨passTurn_dec s, passTurn_decRefused s⟩

/-- No step writes the parameters (R7, log entry 5). -/
theorem step_keeps_cfg {s t : State} (h : step s = .next t) : t.cfg = s.cfg := by
  cases hp : s.pending with
  | cons c cs =>
    have hcmd := (step_command hp).symm.trans h
    exact (performCommand_frame hcmd).2
  | nil =>
    rcases step_next_cases hp h with ⟨_, hd⟩ | ⟨_, he⟩ | rfl
    · rcases hd.next_frame with ⟨d, rfl⟩ | ⟨r, rfl⟩ <;> exact passTurn_cfg s
    · obtain ⟨e, rfl⟩ := he.next_frame
      exact passTurn_cfg s
    · exact passTurn_cfg s

/-! ### Good states go on -/

/-- Within `OUT` the decoder's step has a next state: past it lies its only stop (R41, log entry 6). -/
theorem DecCase.exists_next {s : State} {r : Result} (h : DecCase s r) (hop : s.dec.op ≤ s.dec.outLen.toNat) :
    ∃ t, r = .next t := by
  cases h with
  | pastOut _ hlt => omega
  | _ => exact ⟨_, rfl⟩

/-- `W` holds a byte at every index below `1024 + N` (R44). -/
theorem work_isSome {e : Enc} {a : Nat} (h : a < windowSize + e.inLen.toNat) : (e.work a).isSome := by
  simp only [Enc.work, workByte, if_pos h]
  split
  · rfl
  · exact memRead_isSome _ _ rfl

/-- The step of a good encoder has a next state: its emission is within `W` (R242, log entry 6). -/
theorem EncCase.exists_next {s : State} {r : Result} (h : EncCase s r) (hok : s.enc.Ok) : ∃ t, r = .next t := by
  cases h with
  | pastWork hemit _ hnone =>
    obtain ⟨hsp, _⟩ := hok.searched hemit
    have hsome := work_isSome hsp
    simp [hnone] at hsome
  | _ => exact ⟨_, rfl⟩

/-- A refused engine has no step to take. -/
theorem moves_of_refused {s : State} {e : Engine} {r : Refusal} (h : s.refusal e = some r) : s.moves e = false := by
  simp [State.moves, h]

/-- If an engine has a step to take and it is not the one whose turn it is, it is the other one. -/
theorem moves_turn_other {s : State} (h : s.moves .dec = true ∨ s.moves .enc = true) (ht : s.moves s.turn = false) :
    s.moves s.turn.other = true := by
  cases hturn : s.turn with
  | dec => exact h.resolve_left (by simpa [hturn] using ht)
  | enc => exact h.resolve_right (by simpa [hturn] using ht)

/-- A good state has a next state while a command waits or an engine has a step to take. -/
theorem State.Ok.exists_next {s : State} (hok : s.Ok)
    (hwork : s.pending ≠ [] ∨ s.moves .dec = true ∨ s.moves .enc = true) : ∃ t, step s = .next t := by
  rcases step_cases s with ⟨c, cs, _, hs⟩ | ⟨_, _, _, hd⟩ | ⟨_, _, _, he⟩ | ⟨r, hp, hr, hs⟩
  · exact hs ▸ performCommand_next c _
  · exact hd.exists_next (by simpa only [passTurn_dec] using hok.ranges.opInside)
  · exact he.exists_next (by simpa only [passTurn_enc] using hok.encoder)
  · have hmoves := moves_turn_other (hwork.resolve_left (not_not_intro hp)) (moves_of_refused hr)
    exact ⟨s.passTurn, by rw [hs, if_pos hmoves]⟩

/-- Settles O52: each way a step is made has its frame, good states have no stop, and a refused engine's turn is
`step_refused`. -/
theorem enginesShareNothing : Obligations.EnginesShareNothing := by
  refine ⟨fun s t h => ⟨fun hp ht => step_keeps_enc hp ht h, fun hp ht => step_keeps_dec hp ht h, ?_,
    step_keeps_cfg h⟩, fun s => State.Ok.exists_next, fun s r hp hr => ⟨fun hm => ?_, fun hm => ?_⟩⟩
  · intro c cs hp
    have hcmd := (step_command hp).symm.trans h
    exact (performCommand_frame hcmd).1
  · rw [step_refused hp hr, if_pos hm, passTurn_passes hm]
  · rw [step_refused hp hr, hm]
    rfl

/-! ### Within a call the cursors only move forward -/

/-- `d'` is `d` further on in the same call: the cursors have not fallen, the input buffer is the same, and a byte of
`OUT` already produced is there unless a fault was taken (R13, R41, R77). -/
structure Dec.Forward (d d' : Dec) : Prop where
  ip_le : d.ip ≤ d'.ip
  op_le : d.op ≤ d'.op
  input_eq : d'.input = d.input
  inLen_eq : d'.inLen = d.inLen
  outByte_eq : d'.phase ≠ .fault → ∀ a, a < d.op → d'.outByte a = d.outByte a

/-- `e'` is `e` further on in the same call: the cursor has not fallen, the input buffer is the same, and `STREAM` has
grown at its end at most (R13, R45, R77, R200). -/
structure Enc.Forward (e e' : Enc) : Prop where
  sp_le : e.sp ≤ e'.sp
  source_eq : e'.source = e.source
  inLen_eq : e'.inLen = e.inLen
  stream_append : ∃ more, e'.stream = e.stream ++ more

theorem Dec.Forward.refl (d : Dec) : d.Forward d := ⟨le_rfl, le_rfl, rfl, rfl, fun _ _ _ => rfl⟩

theorem Enc.Forward.refl (e : Enc) : e.Forward e := ⟨le_rfl, rfl, rfl, [], (List.append_nil _).symm⟩

/-- Taking a fault leaves the cursors and the input; of `OUT` nothing is promised then (R264, R266). -/
theorem Dec.Forward.raise {d d' : Dec} (k : Cause) (hip : d.ip ≤ d'.ip) (hop : d.op ≤ d'.op)
    (hin : d'.input = d.input) (hlen : d'.inLen = d.inLen) : d.Forward (d'.raise k) :=
  ⟨hip, hop, hin, hlen, fun hph => absurd rfl hph⟩

/-- Producing a byte writes `OUT` at `op`, above every byte produced before. -/
theorem produced_outByte_below {d : Dec} {v : Byte} {a : Nat} (hwf : Memory.wf .output d.output) (ha : a < d.op) :
    (d.produced v).outByte a = d.outByte a := by
  rw [produced_outByte d v a hwf, if_neg ha.ne]

/-- The decoder's step moves it forward. -/
theorem DecCase.forward {s t : State} (h : DecCase s (.next t)) (hwf : Memory.wf .output s.dec.output)
    (hhdr : s.dec.phase = .hdr → s.dec.ip = 0) : s.dec.Forward t.dec := by
  cases h with
  | idle | tooLong => exact .refl _
  | shortHeader | badVersion | truncated | overrun => exact .raise _ le_rfl le_rfl rfl rfl
  | halfMatch => exact .raise _ (Nat.le_add_right _ 1) le_rfl rfl rfl
  | header len hph => exact ⟨by simp [hhdr hph], le_rfl, rfl, rfl, fun _ _ _ => rfl⟩
  | full | nextGroup | close => exact ⟨le_rfl, le_rfl, rfl, rfl, fun _ _ _ => rfl⟩
  | control | matchFetch => exact ⟨Nat.le_add_right _ _, le_rfl, rfl, rfl, fun _ _ _ => rfl⟩
  | literal v =>
    exact ⟨Nat.le_add_right _ 1, Nat.le_add_right _ 1, rfl, rfl,
      fun _ _ ha => produced_outByte_below (d := s.dec.advance 1) hwf ha⟩
  | copy => exact ⟨le_rfl, Nat.le_add_right _ 1, rfl, rfl, fun _ _ ha => produced_outByte_below hwf ha⟩

/-- The end of a token moves the encoder forward from wherever the emission has (R241). -/
theorem Enc.Forward.endToken {e e' : Enc} (h : e.Forward e') : e.Forward e'.endToken := by
  obtain ⟨hsp, hsrc, hlen, more, hmore⟩ := h
  rcases endToken_cases e' with ⟨_, he⟩ | ⟨_, he⟩ <;> rw [he]
  · exact ⟨hsp, hsrc, hlen, more ++ e'.acc :: e'.gbuf, by simp [hmore]⟩
  · exact ⟨hsp, hsrc, hlen, more, hmore⟩

/-- The final close appends to `STREAM` at most (R149, R246). -/
theorem finalStep_forward (e : Enc) : e.Forward e.finalStep := by
  rcases finalStep_cases e with ⟨_, he⟩ | ⟨_, he⟩ <;> rw [he]
  · exact ⟨le_rfl, rfl, rfl, [], (List.append_nil _).symm⟩
  · exact ⟨le_rfl, rfl, rfl, _, rfl⟩

/-- The encoder's step moves it forward. -/
theorem EncCase.forward {s t : State} (h : EncCase s (.next t)) : s.enc.Forward t.enc := by
  cases h with
  | idle => exact .refl _
  | header => exact ⟨le_rfl, rfl, rfl, _, rfl⟩
  | inputEnd | search => exact ⟨le_rfl, rfl, rfl, [], (List.append_nil _).symm⟩
  | emitMatch => exact .endToken ⟨Nat.le_add_right _ _, rfl, rfl, [], (List.append_nil _).symm⟩
  | emitLit v => exact .endToken ⟨Nat.le_add_right _ 1, rfl, rfl, [], (List.append_nil _).symm⟩
  | final => exact finalStep_forward _

/-- With no command waiting, a step from a good state moves both engines forward: the one whose turn it is by its own
rule, the other by staying as it is. -/
theorem step_forward {s t : State} (hok : s.Ok) (hp : s.pending = []) (h : step s = .next t) :
    s.dec.Forward t.dec ∧ s.enc.Forward t.enc := by
  rcases step_next_cases hp h with ⟨ht, hd⟩ | ⟨ht, he⟩ | rfl
  · obtain ⟨henc, _⟩ := step_keeps_enc hp ht h
    have hforward := hd.forward (by simpa only [passTurn_dec] using hok.memories.outputForm)
      (by simpa only [passTurn_dec] using fun hph => (hok.phases.headerUnread hph).1)
    exact ⟨by simpa only [passTurn_dec] using hforward, henc ▸ .refl _⟩
  · obtain ⟨hdec, _⟩ := step_keeps_dec hp ht h
    exact ⟨hdec ▸ .refl _, by simpa only [passTurn_enc] using he.forward⟩
  · exact ⟨by simpa only [passTurn_dec] using Dec.Forward.refl s.dec,
      by simpa only [passTurn_enc] using Enc.Forward.refl s.enc⟩

/-- Settles O54: both engines move forward at every step from a good state. -/
theorem cursorsOnlyMoveForward : Obligations.CursorsOnlyMoveForward := by
  intro s t hok hp h
  obtain ⟨hdec, henc⟩ := step_forward hok hp h
  exact ⟨hdec.ip_le, hdec.op_le, henc.sp_le, hdec.input_eq, hdec.inLen_eq, henc.source_eq, henc.inLen_eq,
    hdec.outByte_eq, henc.stream_append⟩

end Sys2Proof.Machine
end

section
/-! PROOFS. The state after reset, the commands of the host and the status registers (10_state.md). -/

namespace Sys2Proof.Machine

open Sys2Proof

/-! ### An engine that is not BUSY -/

/-- IDLE, DONE and FAULT have no step (R30, R290, log entry 9). -/
theorem decStep_of_not_busy {s : State} (h : s.busy .dec = false) : decStep s = .next s := by
  cases hp : s.dec.phase <;> simp_all [State.busy, Dec.callState, decStep, decMove, DecMove.perform]

/-- IDLE and DONE have no step (R38, R290, log entry 9). -/
theorem encStep_of_not_busy {s : State} (h : s.busy .enc = false) : encStep s = .next s := by
  cases hp : s.enc.phase <;> simp_all [State.busy, Enc.callState, encStep]

theorem passTurn_of_not_busy {s : State} (hd : s.busy .dec = false) (he : s.busy .enc = false) : s.passTurn = s := by
  apply passTurn_alone
  cases s.turn <;> simp [State.moves, Engine.other, hd, he]

/-- Settles O30: neither engine takes a step, and the turn has no one to pass to. -/
theorem nothingHappensUntilTheHostStarts : Obligations.NothingHappensUntilTheHostStarts := by
  intro s hp hr hd he
  have hturn := passTurn_of_not_busy hd he
  cases ht : s.turn with
  | dec => rw [step_dec hp ht (by simpa [State.refusal, ht] using hr), hturn, decStep_of_not_busy hd]
  | enc => rw [step_enc hp ht (by simpa [State.refusal, ht] using hr), hturn, encStep_of_not_busy he]

/-! ### The state after reset, and the stop past `OUT` -/

/-- Settles O29: the reset table of R54 by evaluation; the window, the zeros of `W` and the host's reads for all their
addresses and registers. -/
theorem resetLeavesBothEnginesIdle : Obligations.ResetLeavesBothEnginesIdle := by
  have hwindow : ∀ a, State.reset.dec.winRead a = 0#8 := fun _ => rfl
  have hwork : ∀ a, a < 1024 → State.reset.enc.work a = some 0#8 := fun _ ha => if_pos ha
  have hreads : ∀ r : HostRegister, State.reset.hostRead r = 0 := by rintro ⟨⟩ <;> rfl
  exact ⟨rfl, rfl, rfl, rfl, rfl, rfl, rfl, rfl, rfl, rfl, rfl, rfl, rfl, rfl, rfl, hwindow, rfl, rfl, rfl, rfl, rfl,
    rfl, rfl, rfl, rfl, rfl, rfl, rfl, rfl, hwork, hreads⟩

/-- Settles O17: a byte cannot be produced with the output cursor past `OUT` (R41, log entry 6). -/
theorem litPastTheOutputStops : Obligations.LitPastTheOutputStops := by
  intro s v h
  rcases produce_spec (s.dec.advance 1) v with ⟨hlt, _⟩ | ⟨_, hstop⟩
  · exact absurd hlt (Nat.not_lt.2 h)
  · simp only [exec, execLit, hstop, Dec.advance_op]

/-! ### What each command does (R50, R302) -/

theorem performCommand_decStart_busy {s : State} (frame : List Byte) (hb : s.busy .dec = true) :
    performCommand (.decStart frame) s = .next (s.refuse .dec (.startWhileBusy .dec)) :=
  congrArg _ (if_pos hb)

theorem performCommand_decStart {s : State} (frame : List Byte) (hb : s.busy .dec = false) :
    performCommand (.decStart frame) s = .next (s.beginDec (Dec.start frame)) :=
  congrArg _ (if_neg (Bool.not_eq_true _ ▸ hb))

theorem performCommand_encStart_busy {s : State} (src : List Byte) (hb : s.busy .enc = true) :
    performCommand (.encStart src) s = .next (s.refuse .enc (.startWhileBusy .enc)) :=
  congrArg _ (if_pos hb)

theorem performCommand_encStart_tooLong {s : State} {src : List Byte} (hb : s.busy .enc = false)
    (hlong : s.cfg.encMaxIn.toNat < src.length) :
    performCommand (.encStart src) s = .next (s.refuse .enc (.inputTooLong src.length)) :=
  congrArg _ ((if_neg (Bool.not_eq_true _ ▸ hb)).trans (if_pos hlong))

theorem performCommand_encStart {s : State} {src : List Byte} (hb : s.busy .enc = false)
    (hlen : src.length ≤ s.cfg.encMaxIn.toNat) :
    performCommand (.encStart src) s = .next (s.beginEnc (Enc.start src)) :=
  congrArg _ ((if_neg (Bool.not_eq_true _ ▸ hb)).trans (if_neg (Nat.not_lt.2 hlen)))

/-- Every case of a command, with its next state. -/
inductive CommandCase (s : State) : Command → State → Prop where
  /-- R50, D14. -/
  | decBusy (frame : List Byte) : s.busy .dec = true →
      CommandCase s (.decStart frame) (s.refuse .dec (.startWhileBusy .dec))
  /-- R291. -/
  | decStart (frame : List Byte) : s.busy .dec = false → CommandCase s (.decStart frame) (s.beginDec (Dec.start frame))
  /-- R50, D14. -/
  | encBusy (src : List Byte) : s.busy .enc = true →
      CommandCase s (.encStart src) (s.refuse .enc (.startWhileBusy .enc))
  /-- R302, D11. -/
  | encTooLong (src : List Byte) : s.busy .enc = false → s.cfg.encMaxIn.toNat < src.length →
      CommandCase s (.encStart src) (s.refuse .enc (.inputTooLong src.length))
  /-- R292. -/
  | encStart (src : List Byte) : s.busy .enc = false → src.length ≤ s.cfg.encMaxIn.toNat →
      CommandCase s (.encStart src) (s.beginEnc (Enc.start src))
  /-- R290. -/
  | decAbort : CommandCase s .decAbort (s.beginDec Dec.reset)
  /-- R290. -/
  | encAbort : CommandCase s .encAbort (s.beginEnc Enc.reset)

/-- Said once: what a command can do. -/
theorem performCommand_case {c : Command} {s t : State} (h : performCommand c s = .next t) : CommandCase s c t := by
  cases c with
  | decStart frame =>
    cases hb : s.busy .dec with
    | true => exact Host.Outcome.next.inj ((performCommand_decStart_busy frame hb).symm.trans h) ▸ .decBusy frame hb
    | false => exact Host.Outcome.next.inj ((performCommand_decStart frame hb).symm.trans h) ▸ .decStart frame hb
  | encStart src =>
    cases hb : s.busy .enc with
    | true => exact Host.Outcome.next.inj ((performCommand_encStart_busy src hb).symm.trans h) ▸ .encBusy src hb
    | false =>
      rcases Nat.lt_or_ge s.cfg.encMaxIn.toNat src.length with hlong | hlen
      · exact Host.Outcome.next.inj ((performCommand_encStart_tooLong hb hlong).symm.trans h) ▸ .encTooLong src hb hlong
      · exact Host.Outcome.next.inj ((performCommand_encStart hb hlen).symm.trans h) ▸ .encStart src hb hlen
  | decAbort => exact Host.Outcome.next.inj h ▸ .decAbort
  | encAbort => exact Host.Outcome.next.inj h ▸ .encAbort

/-- Settles O33: a start is refused by the engine's own BUSY, then by the length of its input; else it is accepted. -/
theorem startsAreRefusedWhenNotAllowed : Obligations.StartsAreRefusedWhenNotAllowed :=
  ⟨fun _ frame _ hp hb => (step_command hp).trans (performCommand_decStart_busy frame hb),
    fun _ src _ hp hb => (step_command hp).trans (performCommand_encStart_busy src hb),
    fun _ _ _ hp hb hlong => (step_command hp).trans (performCommand_encStart_tooLong hb hlong),
    fun _ frame _ hp hb => ⟨_, (step_command hp).trans (performCommand_decStart frame hb), rfl, rfl, rfl⟩,
    fun _ _ _ hp hb hlen => ⟨_, (step_command hp).trans (performCommand_encStart hb hlen), rfl, rfl, rfl⟩⟩

/-- Settles O34: `ABORT` puts its engine's reset state in place and touches nothing of the other engine (R290). -/
theorem abortReturnsTheEngineToReset : Obligations.AbortReturnsTheEngineToReset :=
  ⟨fun _ _ hp => ⟨_, step_command hp, rfl, rfl, rfl, rfl, rfl, rfl⟩,
    fun _ _ hp => ⟨_, step_command hp, rfl, rfl, rfl, rfl, rfl, rfl⟩⟩

/-! ### The status registers -/

/-- The `state` field of `DEC.STATUS` (R47). -/
theorem dec_status_state (d : Dec) : d.status.extractLsb' 0 2 = d.callState.code := by
  have hfield : ∀ cause state : BitVec 2,
      ((cause.setWidth 4 <<< 2) ||| state.setWidth 4).extractLsb' 0 2 = state := by decide
  exact hfield _ _

/-- The `cause` field of `DEC.STATUS` (R47). -/
theorem dec_status_cause (d : Dec) : d.status.extractLsb' 2 2 = d.cause.code := by
  have hfield : ∀ cause state : BitVec 2,
      ((cause.setWidth 4 <<< 2) ||| state.setWidth 4).extractLsb' 2 2 = cause := by decide
  exact hfield _ _

theorem CallState.code_inj {x y : CallState} : x.code = y.code ↔ x = y := by
  cases x <;> cases y <;> decide

theorem Cause.code_inj {x y : Cause} : x.code = y.code ↔ x = y := by
  cases x <;> cases y <;> decide

theorem dec_callState_iff (d : Dec) :
    (d.callState = .idle ↔ d.phase = .idle) ∧
    (d.callState = .busy ↔ d.phase = .hdr ∨ d.phase = .ctrl ∨ d.phase = .token ∨ d.phase = .copy) ∧
    (d.callState = .done ↔ d.phase = .done) ∧ (d.callState = .fault ↔ d.phase = .fault) := by
  cases hp : d.phase <;> simp [Dec.callState, hp]

theorem enc_callState_iff (e : Enc) :
    (e.callState = .idle ↔ e.phase = .idle) ∧
    (e.callState = .busy ↔ e.phase = .hdr ∨ e.phase = .search ∨ e.phase = .emit ∨ e.phase = .final) ∧
    (e.callState = .done ↔ e.phase = .done) ∧ e.callState ≠ .fault := by
  cases hp : e.phase <;> simp [Enc.callState, hp]

/-- Settles O35: each field is the number of the engine's call state or of its cause, those numbers are distinct, and
the record of a fault is the invariant's. -/
theorem statusFieldsFollowThePhase : Obligations.StatusFieldsFollowThePhase := by
  intro s hok
  obtain ⟨hidle, hbusy, hdone, hfault⟩ := dec_callState_iff s.dec
  obtain ⟨heidle, hebusy, hedone, henofault⟩ := enc_callState_iff s.enc
  have hstate (c : CallState) : s.dec.status.extractLsb' 0 2 = c.code ↔ s.dec.callState = c := by
    rw [dec_status_state, CallState.code_inj]
  have hcause (k : Cause) : s.dec.status.extractLsb' 2 2 = k.code ↔ s.dec.cause = k := by
    rw [dec_status_cause, Cause.code_inj]
  have henc (c : CallState) : s.enc.status = c.code ↔ s.enc.callState = c := CallState.code_inj
  have hinfault : s.dec.status.extractLsb' 0 2 = 3#2 ↔ s.dec.phase = .fault := (hstate .fault).trans hfault
  refine ⟨(hstate .idle).trans hidle, (hstate .busy).trans hbusy, (hstate .done).trans hdone, hinfault,
    (not_congr (hcause .noFault)).trans (hok.phases.causeIffFault.trans hinfault.symm), hcause .formatError,
    hcause .truncatedStream, hcause .outputOverrun, (henc .idle).trans heidle, (henc .busy).trans hebusy,
    (henc .done).trans hedone, fun h => henofault ((henc .fault).1 h), rfl, rfl, rfl, rfl, fun h => ?_, fun h => ?_,
    rfl, rfl⟩
  · have hp := hinfault.1 h
    obtain ⟨hip, hop⟩ := hok.phases.recordIsCursors hp
    exact ⟨(if_pos hp).trans hip, (if_pos hp).trans hop⟩
  · have hp := mt hinfault.2 h
    exact ⟨if_neg hp, if_neg hp⟩

end Sys2Proof.Machine
end

section
/-! PROOFS. The ranges of what the search finds (44_encoder_search.md). -/

namespace Sys2Proof.Machine

open Sys2Proof

/-- A comparison of at most `k` more bytes gains at most `k`. -/
theorem matchRun_le (src : Memory) (n start sp k l : Nat) : matchRun src n start sp k l ≤ l + k := by
  induction k generalizing l with
  | zero => exact le_rfl
  | succ k ih =>
    unfold matchRun
    split
    · exact (ih (l + 1)).trans (by omega)
    · omega

/-- No candidate is longer than the cap (R213). -/
theorem matchLen_le_cap (src : Memory) (n sp cand : Nat) : matchLen src n sp cand ≤ matchCap n sp := by
  simpa only [matchLen, Nat.zero_add] using matchRun_le src n (sp - windowSize + cand) sp (matchCap n sp) 0

/-- The best pair of any part of the search is a length within the cap and an offset within the window. -/
theorem searchFrom_bounds {src : Memory} {n sp k cand : Nat} {best : Nat × Nat}
    (hbest : best.1 ≤ matchCap n sp ∧ best.2 < windowSize) (hcand : cand + k ≤ windowSize) :
    (searchFrom src n sp k cand best).1 ≤ matchCap n sp ∧ (searchFrom src n sp k cand best).2 < windowSize := by
  induction k generalizing cand best with
  | zero => exact hbest
  | succ k ih =>
    refine ih ?_ (by omega)
    unfold betterMatch
    split
    · exact ⟨matchLen_le_cap src n sp cand, by omega⟩
    · exact hbest

/-- What a search finds is in the ranges of its registers (R37, R213, R214). -/
theorem bestMatch_bounds (src : Memory) (n sp : Nat) :
    (bestMatch src n sp).1 ≤ matchCap n sp ∧ (bestMatch src n sp).2 < windowSize :=
  searchFrom_bounds ⟨Nat.zero_le _, by decide⟩ (by decide)

theorem bestMatch_length_le (src : Memory) (n sp : Nat) : (bestMatch src n sp).1 ≤ encMaxMatch :=
  (bestMatch_bounds src n sp).1.trans (Nat.min_le_left _ _)

/-- A match never reaches past the end of the input (R213). -/
theorem bestMatch_length_inside {src : Memory} {n sp : Nat} (hsp : sp ≤ windowSize + n) :
    sp + (bestMatch src n sp).1 ≤ windowSize + n := by
  have hlen : (bestMatch src n sp).1 ≤ windowSize + n - sp :=
    (bestMatch_bounds src n sp).1.trans (Nat.min_le_right _ _)
  omega

end Sys2Proof.Machine
end

section
/-! PROOFS. Good states of the decoder: what each phase tells, and that its operations and steps keep it good
(10_state.md, 40_window.md R126). -/

namespace Sys2Proof.Machine

open Sys2Proof

/-! ### What each phase tells -/

/-- No fault is on record (R47, R48). -/
def Dec.Unfaulted (d : Dec) : Prop := d.cause = .noFault ∧ d.faultIp = 0 ∧ d.faultOp = 0

/-- What `Dec.PhaseOk` says, phase by phase. -/
abbrev Dec.PhaseFacts (d : Dec) : DecPhase → Prop
  | .idle => d = Dec.reset
  | .hdr => d.ip = 0 ∧ d.op = 0 ∧ d.outLen = 0#32 ∧ d.version = 0#32 ∧ d.bits = 0#4 ∧ d.cnt = 0#7 ∧ d.Unfaulted
  | .ctrl => d.version = 1#32 ∧ d.bits = 0#4 ∧ d.cnt = 0#7 ∧ d.Unfaulted
  | .token => d.version = 1#32 ∧ d.cnt = 0#7 ∧ d.Unfaulted
  | .copy => d.version = 1#32 ∧ d.bits ≠ 0#4 ∧ d.Unfaulted
  | .done => d.version = 1#32 ∧ d.op = d.outLen.toNat ∧ d.Unfaulted
  | .fault => d.cause ≠ .noFault ∧ d.faultIp = d.ip ∧ d.faultOp = d.op

theorem Dec.PhaseOk.unfaulted {d : Dec} (h : d.PhaseOk) (hp : d.phase ≠ .fault) : d.Unfaulted :=
  ⟨not_not.1 fun hc => hp (h.causeIffFault.1 hc), h.recordOnlyInFault hp⟩

/-- `Dec.PhaseOk`, read and built by the phase alone. -/
theorem Dec.phaseOk_iff {d : Dec} {p : DecPhase} (hp : d.phase = p) : d.PhaseOk ↔ d.PhaseFacts p := by
  constructor
  · intro h
    have hu : p ≠ .fault → d.Unfaulted := hp ▸ h.unfaulted
    cases p with
    | idle => exact h.idleIsReset hp
    | hdr =>
      obtain ⟨hip, hop, hlen, hver⟩ := h.headerUnread hp
      exact ⟨hip, hop, hlen, hver, h.flagsUsedUp (.inl hp), h.countZero (.inl hp), hu nofun⟩
    | ctrl =>
      exact ⟨h.versionKnown (.inl hp), h.flagsUsedUp (.inr hp), h.countZero (.inr (.inl hp)), hu nofun⟩
    | token => exact ⟨h.versionKnown (.inr (.inl hp)), h.countZero (.inr (.inr hp)), hu nofun⟩
    | copy => exact ⟨h.versionKnown (.inr (.inr (.inl hp))), h.flagOpen hp, hu nofun⟩
    | done => exact ⟨h.versionKnown (.inr (.inr (.inr hp))), h.doneIsFull hp, hu nofun⟩
    | fault => exact ⟨h.causeIffFault.2 hp, h.recordIsCursors hp⟩
  · intro h
    cases p with
    | idle =>
      obtain rfl := h
      constructor <;> decide
    | _ => constructor <;> simp_all [PhaseFacts, Unfaulted]

/-! ### Operations keep the decoder good -/

/-- The decoder's part of `State.Ok`. -/
structure Dec.Ok (d : Dec) : Prop where
  memories : d.MemoriesOk
  ranges : d.RangesOk
  phases : d.PhaseOk
  window : d.WindowOk

theorem dec_reset_ok : Dec.reset.Ok where
  memories := ⟨memWf_nil _, memWf_nil _, memWf_nil _, nofun, nofun, nofun⟩
  ranges := by constructor <;> decide
  phases := (Dec.phaseOk_iff rfl).2 rfl
  window := ⟨fun _ _ => nofun, fun _ _ => nofun, fun _ _ _ => rfl⟩

theorem dec_start_ok (frame : List Byte) : (Dec.start frame).Ok where
  memories :=
    { dec_reset_ok.memories with
      inputForm := memOfBytes_wf _ _ _
      inputInside := fun _ hc => (mem_memOfBytes hc).2.trans_eq (Nat.zero_add _) }
  ranges := { dec_reset_ok.ranges with ipInside := Nat.zero_le _ }
  phases := (Dec.phaseOk_iff rfl).2 ⟨rfl, rfl, rfl, rfl, rfl, rfl, rfl, rfl, rfl⟩
  window := ⟨fun _ _ => nofun, fun _ _ => nofun, fun _ _ _ => rfl⟩

/-- Taking a fault keeps the registers and the window, and gives up `OUT` (R264, R266). -/
theorem raise_ok {d : Dec} {k : Cause} (hk : k ≠ .noFault) (hm : d.MemoriesOk) (hr : d.RangesOk)
    (hzero : ∀ a, d.op ≤ a → a < windowSize → d.winRead a = 0#8) : (d.raise k).Ok where
  memories := { hm with outputForm := memWf_nil _, outputInside := nofun }
  ranges := { hr with }
  phases := (Dec.phaseOk_iff rfl).2 ⟨hk, rfl, rfl⟩
  window := ⟨fun hp => absurd rfl hp, fun hp => absurd rfl hp, hzero⟩

theorem Dec.MemoriesOk.produced {d : Dec} (h : d.MemoriesOk) (v : Byte) : (d.produced v).MemoriesOk where
  inputForm := h.inputForm
  outputForm := memWrite_wf _ _ h.outputForm
  windowForm := memWrite_wf _ _ h.windowForm
  inputInside := h.inputInside
  outputInside c hc := by
    rcases mem_memWrite hc with hold | rfl
    · exact Nat.lt_succ_of_lt (h.outputInside c hold)
    · exact Nat.lt_succ_self _
  windowInside c hc := by
    rcases mem_memWrite hc with hold | rfl
    · exact h.windowInside c hold
    · exact Nat.mod_lt _ (by decide)

theorem Dec.RangesOk.produced {d : Dec} (h : d.RangesOk) (v : Byte) (hroom : d.op < d.outLen.toNat) :
    (d.produced v).RangesOk :=
  { h with
    opInside := hroom
    wpFollowsOp := by rw [Dec.produced_wp, inc10_toNat, h.wpFollowsOp, Nat.mod_add_mod, Dec.produced_op] }

/-- The window stays the mirror of the most recent 1024 bytes: the byte at `wp` is the one that falls out (R126). -/
theorem Dec.WindowOk.produced {d : Dec} (h : d.WindowOk) (v : Byte) (hp : d.phase ≠ .fault) (hm : d.MemoriesOk)
    (hwp : d.wp.toNat = d.op % windowSize) : (d.produced v).WindowOk where
  mirrors _ q hq hrecent := by
    rw [produced_outByte d v q hm.outputForm, produced_winRead d v q hm.windowForm, hwp]
    simp only [Dec.produced_op] at hq hrecent
    by_cases hnew : q = d.op
    · rw [if_pos hnew, if_pos (by rw [hnew])]
    · rw [if_neg hnew, if_neg (by simp only [windowSize] at *; omega)]
      exact h.mirrors hp q (by omega) (by omega)
  outWritten _ q hq := by
    rw [produced_outByte d v q hm.outputForm]
    split
    · rfl
    · next hold => exact h.outWritten hp q (by simp only [Dec.produced_op] at hq; omega)
  zeroSeed a ha hlt := by
    simp only [Dec.produced_op] at ha
    rw [produced_winRead d v a hm.windowForm, hwp, if_neg (by simp only [windowSize] at *; omega)]
    exact h.zeroSeed a (by omega) hlt

/-- The window's part of a good decoder is about the two memories and `op` only. -/
theorem Dec.WindowOk.of_eq {d d' : Dec} (h : d.WindowOk) (hp : d.phase ≠ .fault) (hop : d'.op = d.op)
    (hout : d'.output = d.output) (hwin : d'.window = d.window) : d'.WindowOk where
  mirrors _ q := by simpa only [Dec.outByte, Dec.winRead, hop, hout, hwin] using h.mirrors hp q
  outWritten _ q := by simpa only [Dec.outByte, hop, hout] using h.outWritten hp q
  zeroSeed a := by simpa only [Dec.winRead, hop, hwin] using h.zeroSeed a

/-- A counter decremented where it is not 0 stays within its range (R27, R28, R201). -/
theorem toNat_sub_one_le {w : Nat} {x : BitVec w} (hx : x ≠ 0#w) : (x - 1#w).toNat ≤ x.toNat := by
  have hpos : 0 < x.toNat := Nat.pos_of_ne_zero (BitVec.toNat_ne.1 hx)
  have hle : 1#w ≤ x := BitVec.le_def.2 ((Nat.mod_le 1 _).trans hpos)
  exact (BitVec.toNat_sub_of_le hle).trans_le (Nat.sub_le _ _)

/-- A match is at most 66 bytes long (R97). -/
theorem matchLength_le (lencode : BitVec 6) : (matchLength lencode).toNat ≤ decMaxMatch := by
  have := lencode.isLt
  simp only [matchLength_toNat, minMatch, decMaxMatch]
  omega

/-- The decoder's step keeps it good. -/
theorem DecCase.keeps_ok {s t : State} (h : DecCase s (.next t)) (hok : s.dec.Ok) : t.dec.Ok := by
  obtain ⟨hm, hr, hph, hw⟩ := hok
  have hwindow {d : Dec} (hne : s.dec.phase ≠ .fault) (hop : d.op = s.dec.op) (hout : d.output = s.dec.output)
    (hwin : d.window = s.dec.window) : d.WindowOk := hw.of_eq hne hop hout hwin
  cases h with
  | idle | tooLong => exact ⟨hm, hr, hph, hw⟩
  | shortHeader | truncated | overrun => exact raise_ok nofun hm hr hw.zeroSeed
  | badVersion => exact raise_ok nofun { hm with } { hr with } hw.zeroSeed
  | halfMatch b1 _ _ _ _ hlast => exact raise_ok nofun { hm with } { hr with ipInside := hlast.le } hw.zeroSeed
  | header len hp hlen =>
    obtain ⟨_, hop, _, _, hbits, hcnt, hclear⟩ := (Dec.phaseOk_iff hp).1 hph
    exact ⟨{ hm with }, { hr with ipInside := hlen, opInside := hop ▸ Nat.zero_le _ },
      (Dec.phaseOk_iff rfl).2 ⟨rfl, hbits, hcnt, hclear⟩, hwindow (by simp [hp]) rfl rfl rfl⟩
  | full hp hop =>
    have hne : s.dec.phase ≠ .fault := by rcases hp with hp | hp <;> simp [hp]
    have hver : s.dec.version = 1#32 := hph.versionKnown (hp.imp_right .inl)
    exact ⟨{ hm with }, { hr with }, (Dec.phaseOk_iff rfl).2 ⟨hver, hop, hph.unfaulted hne⟩, hwindow hne rfl rfl rfl⟩
  | control c hp _ hip =>
    obtain ⟨hver, _, hcnt, hclear⟩ := (Dec.phaseOk_iff hp).1 hph
    exact ⟨{ hm with }, { hr with ipInside := hip, bitsInside := le_rfl },
      (Dec.phaseOk_iff rfl).2 ⟨hver, hcnt, hclear⟩, hwindow (by simp [hp]) rfl rfl rfl⟩
  | nextGroup hp _ hbits =>
    obtain ⟨hver, hcnt, hclear⟩ := (Dec.phaseOk_iff hp).1 hph
    exact ⟨{ hm with }, { hr with }, (Dec.phaseOk_iff rfl).2 ⟨hver, hbits, hcnt, hclear⟩,
      hwindow (by simp [hp]) rfl rfl rfl⟩
  | literal v hp _ hbits _ hip _ hroom =>
    obtain ⟨hver, hcnt, hclear⟩ := (Dec.phaseOk_iff hp).1 hph
    have hne : s.dec.phase ≠ .fault := by simp [hp]
    have hm₁ : (s.dec.advance 1).MemoriesOk := { hm with }
    have hr₁ : (s.dec.advance 1).RangesOk := { hr with ipInside := hip }
    have hw₁ : (s.dec.advance 1).WindowOk := hwindow hne rfl rfl rfl
    have hm' := hm₁.produced v
    have hr' := hr₁.produced v hroom
    have hw' := hw₁.produced v hne hm₁ hr.wpFollowsOp
    exact ⟨{ hm' with }, { hr' with bitsInside := (toNat_sub_one_le hbits).trans hr.bitsInside },
      (Dec.phaseOk_iff (p := .token) (by exact hp)).2 ⟨hver, hcnt, hclear⟩, hw'.of_eq hne rfl rfl rfl⟩
  | matchFetch b1 b2 hp _ hbits _ hip =>
    obtain ⟨hver, _, hclear⟩ := (Dec.phaseOk_iff hp).1 hph
    exact ⟨{ hm with }, { hr with ipInside := hip, cntInside := matchLength_le _ },
      (Dec.phaseOk_iff rfl).2 ⟨hver, hbits, hclear⟩, hwindow (by simp [hp]) rfl rfl rfl⟩
  | close hp hcnt =>
    obtain ⟨hver, hbits, hclear⟩ := (Dec.phaseOk_iff hp).1 hph
    exact ⟨{ hm with }, { hr with bitsInside := (toNat_sub_one_le hbits).trans hr.bitsInside },
      (Dec.phaseOk_iff rfl).2 ⟨hver, hcnt, hclear⟩, hwindow (by simp [hp]) rfl rfl rfl⟩
  | copy hp hcnt hroom =>
    have hne : s.dec.phase ≠ .fault := by simp [hp]
    have hm' := hm.produced (s.dec.winRead s.dec.rp.toNat)
    have hr' := hr.produced (s.dec.winRead s.dec.rp.toNat) hroom
    have hw' := hw.produced (s.dec.winRead s.dec.rp.toNat) hne hm hr.wpFollowsOp
    exact ⟨{ hm' with }, { hr' with cntInside := (toNat_sub_one_le hcnt).trans hr.cntInside },
      (Dec.phaseOk_iff (p := .copy) (by exact hp)).2 ((Dec.phaseOk_iff hp).1 hph), hw'.of_eq hne rfl rfl rfl⟩

end Sys2Proof.Machine
end

section
/-! PROOFS. Good states of the encoder: what each phase tells, and that its operations and steps keep it good
(10_state.md R31 to R38). -/

namespace Sys2Proof.Machine

open Sys2Proof

/-- The encoder's registers and buffers in their ranges, in every phase; the group may be full, as it is between the
emission of a token and the end of it (R31 to R37, R147, R241). -/
structure Enc.RegistersOk (e : Enc) : Prop where
  sourceForm : Memory.wf .source e.source
  sourceInside : ∀ c ∈ e.source, c.1 < e.inLen.toNat
  spInside : windowSize ≤ e.sp ∧ e.sp ≤ windowSize + e.inLen.toNat
  groupFilled : e.g.toNat ≤ groupSize
  payloadHeld : e.g.toNat ≤ e.gbuf.length ∧ e.gbuf.length ≤ 2 * e.g.toNat
  accLowZero : ∀ i, i < groupSize - e.g.toNat → e.acc.getLsbD i = false
  bestInside : e.bestLen.toNat ≤ encMaxMatch
  temporariesInside : e.n.toNat ≤ windowSize ∧ e.curLen.toNat ≤ encMaxMatch

/-- What `Enc.Ok` says of each phase. -/
abbrev Enc.PhaseFacts (e : Enc) : EncPhase → Prop
  | .idle => e = Enc.reset
  | .hdr => e.stream = [] ∧ e.sp = windowSize ∧ e.g = 0#4
  | .search => True
  | .emit => e.sp < windowSize + e.inLen.toNat ∧
      (e.bestLen.toNat, e.bestOff.toNat) = bestMatch e.source e.inLen.toNat e.sp
  | .final => e.sp = windowSize + e.inLen.toNat
  | .done => e.sp = windowSize + e.inLen.toNat ∧ e.g = 0#4

theorem Enc.Ok.registers {e : Enc} (h : e.Ok) : e.RegistersOk :=
  { h with groupFilled := h.groupOpen.le }

theorem Enc.Ok.phaseFacts {e : Enc} {p : EncPhase} (h : e.Ok) (hp : e.phase = p) : e.PhaseFacts p := by
  cases p with
  | idle => exact h.idleIsReset hp
  | hdr => exact h.beforeStream hp
  | search => trivial
  | emit => exact h.searched hp
  | final => exact h.atEnd (.inl hp)
  | done => exact ⟨h.atEnd (.inr hp), h.groupClosed hp⟩

/-- A good encoder from its registers and what its phase tells. -/
theorem Enc.RegistersOk.ok {e : Enc} {p : EncPhase} (h : e.RegistersOk) (hp : e.phase = p)
    (hg : e.g.toNat < groupSize) (hph : e.PhaseFacts p) : e.Ok :=
  { h with
    groupOpen := hg
    searched := fun hq => by obtain rfl := hp.symm.trans hq; exact hph
    atEnd := by
      rintro (hq | hq)
      · obtain rfl := hp.symm.trans hq; exact hph
      · obtain rfl := hp.symm.trans hq; exact hph.1
    groupClosed := fun hq => by obtain rfl := hp.symm.trans hq; exact hph.2
    idleIsReset := fun hq => by obtain rfl := hp.symm.trans hq; exact hph
    beforeStream := fun hq => by obtain rfl := hp.symm.trans hq; exact hph }

theorem enc_reset_registers : Enc.reset.RegistersOk where
  sourceForm := memWf_nil _
  sourceInside := nofun
  spInside := by decide
  groupFilled := by decide
  payloadHeld := by decide
  accLowZero _ _ := BitVec.getLsbD_zero
  bestInside := by decide
  temporariesInside := by decide

theorem enc_reset_ok : Enc.reset.Ok := enc_reset_registers.ok rfl (by decide) rfl

theorem enc_start_ok (src : List Byte) (hlen : src.length < 2 ^ 32) : (Enc.start src).Ok := by
  have hregisters : (Enc.start src).RegistersOk :=
    { enc_reset_registers with
      sourceForm := memOfBytes_wf _ _ _
      sourceInside := fun c hc => by
        have hinside := (mem_memOfBytes hc).2
        simpa only [Enc.start, BitVec.toNat_ofNat, Nat.mod_eq_of_lt hlen, Nat.zero_add] using hinside
      spInside := ⟨le_rfl, Nat.le_add_right _ _⟩ }
  exact hregisters.ok rfl (by decide : (0#4).toNat < groupSize) ⟨rfl, rfl, rfl⟩

/-- A group that is closed leaves an empty one (R148). -/
theorem Enc.RegistersOk.closed {e : Enc} (h : e.RegistersOk) (stream : List Byte) (p : EncPhase) :
    Enc.RegistersOk { e with stream := stream, acc := 0#8, g := 0#4, gbuf := [], phase := p } :=
  { h with
    groupFilled := Nat.zero_le _
    payloadHeld := ⟨le_rfl, le_rfl⟩
    accLowZero := fun _ _ => BitVec.getLsbD_zero }

/-- A shift of the accumulator leaves its unused low bits zero (R146, R147). -/
theorem accShiftIn_lowZero {e : Enc} (isLit : Bool) (hg : e.g.toNat < groupSize)
    (hlow : ∀ i, i < groupSize - e.g.toNat → e.acc.getLsbD i = false) :
    ∀ i, i < groupSize - (e.accShiftIn isLit).g.toNat → (e.accShiftIn isLit).acc.getLsbD i = false := by
  intro i hi
  rw [accShiftIn_count e isLit hg] at hi
  simp only [groupSize] at hi hlow
  have hshift : (e.acc >>> 1).getLsbD i = false := by
    rw [BitVec.getLsbD_ushiftRight]
    exact hlow (1 + i) (by omega)
  have htop : ∀ j < 7, (0x80#8).getLsbD j = false := by decide
  cases isLit with
  | false => exact hshift
  | true => rw [Enc.accShiftIn_acc, if_pos rfl, BitVec.getLsbD_or, hshift, htop i (by omega), Bool.or_self]

/-- A token counted, with its one or two payload bytes, is within the ranges; the group may now be full (R146, R242,
R243). -/
theorem Enc.Ok.token {e : Enc} (h : e.Ok) (isLit : Bool) {payload : List Byte} {sp : Nat}
    (hbytes : 1 ≤ payload.length ∧ payload.length ≤ 2) (hsp : e.sp ≤ sp) (hend : sp ≤ windowSize + e.inLen.toNat) :
    Enc.RegistersOk { e.accShiftIn isLit with gbuf := e.gbuf ++ payload, sp := sp } := by
  have hcount := accShiftIn_count e isLit h.groupOpen
  exact
    { sourceForm := h.sourceForm
      sourceInside := h.sourceInside
      spInside := ⟨h.spInside.1.trans hsp, hend⟩
      groupFilled := hcount.trans_le h.groupOpen
      payloadHeld := by
        have hheld := h.payloadHeld
        simp only [hcount, List.length_append]
        omega
      accLowZero := accShiftIn_lowZero isLit h.groupOpen h.accLowZero
      bestInside := h.bestInside
      temporariesInside := h.temporariesInside }

/-- The end of a token closes a full group, so that a group is open again (R241). -/
theorem Enc.RegistersOk.endToken {e : Enc} (h : e.RegistersOk) : e.endToken.Ok := by
  rcases endToken_cases e with ⟨_, he⟩ | ⟨hg, he⟩ <;> rw [he]
  · exact (h.closed _ .search).ok rfl (by decide : (0#4).toNat < groupSize) trivial
  · have hopen : e.g.toNat < groupSize := lt_of_le_of_ne h.groupFilled (BitVec.toNat_ne.1 hg)
    have hregisters : Enc.RegistersOk { e with phase := .search } := { h with }
    exact hregisters.ok rfl hopen trivial

/-- The final close leaves an empty group at the end of the input (R149, R246). -/
theorem Enc.Ok.finalStep {e : Enc} (h : e.Ok) (hp : e.phase = .final) : e.finalStep.Ok := by
  have hend := h.phaseFacts hp
  rcases finalStep_cases e with ⟨hg, he⟩ | ⟨_, he⟩ <;> rw [he]
  · have hregisters : Enc.RegistersOk { e with phase := .done } := { h.registers with }
    exact hregisters.ok rfl h.groupOpen ⟨hend, hg⟩
  · exact (h.registers.closed _ .done).ok rfl (by decide : (0#4).toNat < groupSize) ⟨hend, rfl⟩

/-- A search loads the pair it found, within the ranges (R211, R213, R214). -/
theorem Enc.Ok.search {e : Enc} (h : e.Ok) (hsp : e.sp ≠ windowSize + e.inLen.toNat) :
    Enc.Ok { e.search with phase := .emit } := by
  have hlen := bestMatch_length_le e.source e.inLen.toNat e.sp
  have hbest := loadSearch_best e _ hlen (bestMatch_bounds e.source e.inLen.toNat e.sp).2
  have hregisters : Enc.RegistersOk { e.search with phase := .emit } :=
    { h.registers with
      bestInside := (congrArg Prod.fst hbest).trans_le hlen
      temporariesInside := loadSearch_temporaries e (bestMatch e.source e.inLen.toNat e.sp) }
  exact hregisters.ok rfl h.groupOpen ⟨lt_of_le_of_ne h.spInside.2 hsp, hbest⟩

/-- The encoder's step keeps it good. -/
theorem EncCase.keeps_ok {s t : State} (h : EncCase s (.next t)) (hok : s.enc.Ok) : t.enc.Ok := by
  cases h with
  | idle => exact hok
  | header =>
    have hregisters : s.enc.writeHeader.RegistersOk := { hok.registers with }
    exact hregisters.ok rfl hok.groupOpen trivial
  | inputEnd _ hend =>
    have hregisters : Enc.RegistersOk { s.enc with phase := .final } := { hok.registers with }
    exact hregisters.ok rfl hok.groupOpen hend
  | search _ hsp => exact hok.search hsp
  | emitMatch hp =>
    obtain ⟨_, hbest⟩ := hok.phaseFacts hp
    have hend := bestMatch_length_inside (src := s.enc.source) hok.spInside.2
    rw [← hbest] at hend
    exact (hok.token false (by simp) (Nat.le_add_right _ _) hend).endToken
  | emitLit v hp =>
    obtain ⟨hroom, _⟩ := hok.phaseFacts hp
    exact (hok.token true (by simp) (Nat.le_add_right _ 1) hroom).endToken
  | final hp => exact hok.finalStep hp

end Sys2Proof.Machine
end

section
/-! PROOFS. Good states of the machine: reset is one, every step keeps them, and none of them stops (10_state.md). -/

namespace Sys2Proof.Machine

open Sys2Proof

/-- The decoder's step changes the decoder alone, but for a header that declares too much: that marks the call as
refused (R162 sub-step 6). -/
theorem DecCase.next_refusal {s t : State} (h : DecCase s (.next t)) :
    (∃ d, t = s.setDec d) ∨ ∃ len, t = s.refuse .dec (.declaredLengthTooLarge len) ∧ s.dec.phase = .hdr ∧
      s.dec.headerHolds len 1#32 ∧ s.cfg.decMaxOut.toNat < len.toNat := by
  cases h with
  | idle => exact .inl ⟨s.dec, rfl⟩
  | tooLong len hp _ hheader hmax => exact .inr ⟨len, rfl, hp, hheader, hmax⟩
  | _ => exact .inl ⟨_, rfl⟩

/-! ### Another engine in a good machine -/

theorem State.Ok.dec_ok {s : State} (h : s.Ok) : s.dec.Ok := ⟨h.memories, h.ranges, h.phases, h.window⟩

/-- Neither the waiting commands nor the turn are part of what is good. -/
theorem State.Ok.withPending {s : State} (h : s.Ok) (cs : List Command) :
    State.Ok { s with pending := cs } := { h with }

theorem State.Ok.passTurn {s : State} (h : s.Ok) : s.passTurn.Ok := by
  unfold State.passTurn
  split
  · exact { h with }
  · exact h

/-- Another good decoder, no call of it refused, in a good machine. -/
theorem State.Ok.withDec {s t : State} (h : s.Ok) (hd : t.dec.Ok)
    (hlen : t.dec.outLen.toNat ≤ s.cfg.decMaxOut.toNat) (hr : t.decRefused = none) (he : t.enc = s.enc)
    (her : t.encRefused = s.encRefused) (hcfg : t.cfg = s.cfg) : t.Ok where
  memories := hd.memories
  ranges := hd.ranges
  phases := hd.phases
  window := hd.window
  encoder := he ▸ h.encoder
  outputAccepted := hcfg ▸ hlen
  inputAccepted := he ▸ hcfg ▸ h.inputAccepted
  decRefusal := by simp [hr]
  encRefusal := by simpa only [her, State.busy, he, hcfg] using h.encRefusal

/-- Another good encoder, no call of it refused, in a good machine. -/
theorem State.Ok.withEnc {s t : State} (h : s.Ok) (he : t.enc.Ok)
    (hlen : t.enc.inLen.toNat ≤ s.cfg.encMaxIn.toNat) (hr : t.encRefused = none) (hd : t.dec = s.dec)
    (hdr : t.decRefused = s.decRefused) (hcfg : t.cfg = s.cfg) : t.Ok where
  memories := hd ▸ h.memories
  ranges := hd ▸ h.ranges
  phases := hd ▸ h.phases
  window := hd ▸ h.window
  encoder := he
  outputAccepted := hd ▸ hcfg ▸ h.outputAccepted
  inputAccepted := hcfg ▸ hlen
  decRefusal := by simpa only [hdr, State.busy, hd, hcfg] using h.decRefusal
  encRefusal := by simp [hr]

theorem State.Ok.refuseDec {s : State} {r : Refusal} (h : s.Ok) (hb : s.busy .dec = true)
    (hr : r = .startWhileBusy .dec ∨ ∃ len, r = .declaredLengthTooLarge len ∧ s.cfg.decMaxOut.toNat < len.toNat) :
    (s.refuse .dec r).Ok :=
  { h with decRefusal := fun _ hr' => Option.some.inj hr' ▸ ⟨hb, hr⟩ }

theorem State.Ok.refuseEnc {s : State} {r : Refusal} (h : s.Ok)
    (hr : (s.busy .enc = true ∧ r = .startWhileBusy .enc) ∨
      (s.busy .enc = false ∧ ∃ n, r = .inputTooLong n ∧ s.cfg.encMaxIn.toNat < n)) :
    (s.refuse .enc r).Ok :=
  { h with encRefusal := fun _ hr' => Option.some.inj hr' ▸ hr }

/-! ### Each kind of step -/

/-- A command keeps the machine good: it begins a call, returns an engine to reset, or marks a refused call. -/
theorem CommandCase.keeps_ok {c : Command} {s t : State} (h : CommandCase s c t) (hok : s.Ok) : t.Ok := by
  cases h with
  | decBusy _ hb => exact hok.refuseDec hb (.inl rfl)
  | decStart frame => exact hok.withDec (dec_start_ok frame) (Nat.zero_le _) rfl rfl rfl rfl
  | encBusy _ hb => exact hok.refuseEnc (.inl ⟨hb, rfl⟩)
  | encTooLong _ hb hlong => exact hok.refuseEnc (.inr ⟨hb, _, rfl, hlong⟩)
  | encStart src _ hlen =>
    have hinLen : (Enc.start src).inLen.toNat ≤ s.cfg.encMaxIn.toNat :=
      (BitVec.toNat_ofNat _ _).trans_le ((Nat.mod_le _ _).trans hlen)
    exact hok.withEnc (enc_start_ok src (hlen.trans_lt s.cfg.encMaxIn.isLt)) hinLen rfl rfl rfl rfl
  | decAbort => exact hok.withDec dec_reset_ok (Nat.zero_le _) rfl rfl rfl rfl
  | encAbort => exact hok.withEnc enc_reset_ok (Nat.zero_le _) rfl rfl rfl rfl

/-- A length is accepted by the header step only within `DEC_MAX_OUT` (R162). -/
theorem DecCase.outLen_accepted {s t : State} (h : DecCase s (.next t))
    (hlen : s.dec.outLen.toNat ≤ s.cfg.decMaxOut.toNat) : t.dec.outLen.toNat ≤ s.cfg.decMaxOut.toNat := by
  cases h with
  | header len _ _ _ hmax => exact Nat.not_lt.1 hmax
  | _ => exact hlen

/-- The decoder's step from a good machine with no refused call of the decoder. -/
theorem State.Ok.decCase {s t : State} (hok : s.Ok) (hr : s.decRefused = none) (h : DecCase s (.next t)) : t.Ok := by
  rcases h.next_refusal with ⟨d, rfl⟩ | ⟨len, rfl, hp, _, hmax⟩
  · exact hok.withDec (h.keeps_ok hok.dec_ok) (h.outLen_accepted hok.outputAccepted) hr rfl rfl rfl
  · exact hok.refuseDec (by simp [State.busy, Dec.callState, hp]) (.inr ⟨len, rfl, hmax⟩)

/-- The encoder's step from a good machine with no refused call of the encoder. -/
theorem State.Ok.encCase {s t : State} (hok : s.Ok) (hr : s.encRefused = none) (h : EncCase s (.next t)) : t.Ok := by
  have henc := h.keeps_ok hok.encoder
  have hlen := h.forward.inLen_eq ▸ hok.inputAccepted
  obtain ⟨e, rfl⟩ := h.next_frame
  exact hok.withEnc henc hlen hr rfl rfl rfl

/-- Settles O48: both engines are good after reset, and no call is refused. -/
theorem resetIsAGoodState : Obligations.ResetIsAGoodState where
  memories := dec_reset_ok.memories
  ranges := dec_reset_ok.ranges
  phases := dec_reset_ok.phases
  window := dec_reset_ok.window
  encoder := enc_reset_ok
  outputAccepted := Nat.zero_le _
  inputAccepted := Nat.zero_le _
  decRefusal := nofun
  encRefusal := nofun

/-- Settles O49: a command, a step of either engine and the passing of a refused turn each keep the machine good. -/
theorem everyStepKeepsTheStateGood : Obligations.EveryStepKeepsTheStateGood := by
  intro s t hok h
  rcases step_cases s with ⟨c, cs, _, hs⟩ | ⟨_, _, hr, hd⟩ | ⟨_, _, hr, he⟩ | ⟨r, _, _, hs⟩
  · exact (performCommand_case (hs.symm.trans h)).keeps_ok (hok.withPending cs)
  · exact hok.passTurn.decCase ((passTurn_decRefused s).trans hr) (h ▸ hd)
  · exact hok.passTurn.encCase ((passTurn_encRefused s).trans hr) (h ▸ he)
  · rw [hs] at h
    split at h
    · exact Host.Outcome.next.inj h ▸ hok.passTurn
    · cases h

/-- Settles O50: a good decoder's `op` is within `OUT` and a good encoder emits within `W`, so each step has a next
state (log entry 6). -/
theorem goodStatesNeverFault : Obligations.GoodStatesNeverFault := by
  intro s f hok h
  rcases step_cases s with ⟨c, cs, _, hs⟩ | ⟨_, _, _, hd⟩ | ⟨_, _, _, he⟩ | ⟨r, _, _, hs⟩
  · obtain ⟨t, ht⟩ := performCommand_next c { s with pending := cs }
    exact nomatch (hs.trans ht).symm.trans h
  · obtain ⟨t, ht⟩ := hd.exists_next (passTurn_dec s ▸ hok.ranges.opInside)
    exact nomatch ht.symm.trans h
  · obtain ⟨t, ht⟩ := he.exists_next (passTurn_enc s ▸ hok.encoder)
    exact nomatch ht.symm.trans h
  · rw [hs] at h
    split at h <;> cases h

end Sys2Proof.Machine
end

section
/-! PROOFS. Which calls are refused, and when a refusal is answered (R50, R162, R302; log entry 7). -/

namespace Sys2Proof.Machine

open Sys2Proof

theorem DecCase.not_refused {s : State} {r : Refusal} : ¬ DecCase s (.refused r) := nofun

theorem EncCase.not_refused {s : State} {r : Refusal} : ¬ EncCase s (.refused r) := nofun

/-- A step answers a refusal only at the refused engine's turn, with no step of the other engine (log entry 7). -/
theorem step_eq_refused {s : State} {r : Refusal} (h : step s = .refused r) :
    s.pending = [] ∧ s.refusal s.turn = some r ∧ s.moves s.turn.other = false := by
  rcases step_cases s with ⟨c, cs, _, hs⟩ | ⟨_, _, _, hd⟩ | ⟨_, _, _, he⟩ | ⟨r', hp, hr, hs⟩
  · obtain ⟨t, ht⟩ := performCommand_next c { s with pending := cs }
    exact nomatch (hs.trans ht).symm.trans h
  · exact absurd (h ▸ hd) DecCase.not_refused
  · exact absurd (h ▸ he) EncCase.not_refused
  · rw [hs] at h
    split at h
    · cases h
    · next hm => exact ⟨hp, Host.Outcome.refused.inj h ▸ hr, Bool.not_eq_true _ ▸ hm⟩

/-- The refused call of the decoder after a command: an old one, or a start while it is BUSY (R50). -/
theorem CommandCase.decRefused {c : Command} {s t : State} {r : Refusal} (h : CommandCase s c t)
    (hr : t.decRefused = some r) :
    s.decRefused = some r ∨ ∃ frame, c = .decStart frame ∧ r = .startWhileBusy .dec ∧ s.busy .dec = true := by
  cases h with
  | decBusy frame hb => exact .inr ⟨frame, rfl, (Option.some.inj hr).symm, hb⟩
  | decStart | decAbort => cases hr
  | encBusy | encTooLong | encStart | encAbort => exact .inl hr

/-- The refused call of the encoder after a command: an old one, a start while it is BUSY (R50), or an input that is
too long (R302). -/
theorem CommandCase.encRefused {c : Command} {s t : State} {r : Refusal} (h : CommandCase s c t)
    (hr : t.encRefused = some r) :
    s.encRefused = some r ∨ ∃ src, c = .encStart src ∧ (s.busy .enc = true ∧ r = .startWhileBusy .enc ∨
      s.busy .enc = false ∧ r = .inputTooLong src.length ∧ s.cfg.encMaxIn.toNat < src.length) := by
  cases h with
  | encBusy src hb => exact .inr ⟨src, rfl, .inl ⟨hb, (Option.some.inj hr).symm⟩⟩
  | encTooLong src hb hlong => exact .inr ⟨src, rfl, .inr ⟨hb, (Option.some.inj hr).symm, hlong⟩⟩
  | encStart | encAbort => cases hr
  | decBusy | decStart | decAbort => exact .inl hr

/-- The refused call of the decoder after a step: an old one, or one of R50 and R162. -/
theorem step_decRefused {s t : State} {r : Refusal} (h : step s = .next t) (hr : t.decRefused = some r) :
    s.decRefused = some r ∨
    (∃ len, r = .declaredLengthTooLarge len ∧ s.pending = [] ∧ s.turn = .dec ∧ s.dec.phase = .hdr ∧
      s.dec.headerHolds len 1#32 ∧ s.cfg.decMaxOut.toNat < len.toNat) ∨
    ∃ frame cs, r = .startWhileBusy .dec ∧ s.pending = .decStart frame :: cs ∧ s.busy .dec = true := by
  cases hp : s.pending with
  | cons c cs =>
    rcases (performCommand_case ((step_command hp).symm.trans h)).decRefused hr with hold | ⟨frame, rfl, rfl, hb⟩
    · exact .inl hold
    · exact .inr (.inr ⟨frame, cs, rfl, rfl, hb⟩)
  | nil =>
    rcases step_next_cases hp h with ⟨ht, hd⟩ | ⟨ht, _⟩ | rfl
    · rcases hd.next_refusal with ⟨d, rfl⟩ | ⟨len, rfl, hph, hheader, hmax⟩
      · exact .inl ((passTurn_decRefused s).symm.trans hr)
      · rw [passTurn_dec] at hph hheader
        rw [passTurn_cfg] at hmax
        exact .inr (.inl ⟨len, (Option.some.inj hr).symm, rfl, ht, hph, hheader, hmax⟩)
    · exact .inl ((step_keeps_dec hp ht h).2.symm.trans hr)
    · exact .inl ((passTurn_decRefused s).symm.trans hr)

/-- The refused call of the encoder after a step: an old one, or one of R50 and R302. -/
theorem step_encRefused {s t : State} {r : Refusal} (h : step s = .next t) (hr : t.encRefused = some r) :
    s.encRefused = some r ∨
    (∃ src cs, r = .startWhileBusy .enc ∧ s.pending = .encStart src :: cs ∧ s.busy .enc = true) ∨
    ∃ src cs, r = .inputTooLong src.length ∧ s.pending = .encStart src :: cs ∧ s.busy .enc = false ∧
      s.cfg.encMaxIn.toNat < src.length := by
  cases hp : s.pending with
  | cons c cs =>
    rcases (performCommand_case ((step_command hp).symm.trans h)).encRefused hr with
      hold | ⟨src, rfl, ⟨hb, rfl⟩ | ⟨hb, rfl, hlong⟩⟩
    · exact .inl hold
    · exact .inr (.inl ⟨src, cs, rfl, rfl, hb⟩)
    · exact .inr (.inr ⟨src, cs, rfl, rfl, hb, hlong⟩)
  | nil =>
    rcases step_next_cases hp h with ⟨ht, _⟩ | ⟨_, he⟩ | rfl
    · exact .inl ((step_keeps_enc hp ht h).2.symm.trans hr)
    · obtain ⟨e, rfl⟩ := he.next_frame
      exact .inl ((passTurn_encRefused s).symm.trans hr)
    · exact .inl ((passTurn_encRefused s).symm.trans hr)

/-- Settles O51: the answer of a refusal, and where a mark of each engine comes from. -/
theorem onlyTheSpecsCallsAreRefused : Obligations.OnlyTheSpecsCallsAreRefused :=
  ⟨fun _ _ => step_eq_refused, fun _ _ _ => step_decRefused, fun _ _ _ => step_encRefused⟩

end Sys2Proof.Machine
end

section
/-! PROOFS. An engine's step depends on that engine alone (R39, R75, R281). -/

namespace Sys2Proof.Machine

open Sys2Proof

/-- An outcome with its next state, if it has one, carried over by `f`. -/
def carryOutcome (f : State → State) : Result → Result
  | .next t => .next (f t)
  | .fault x => .fault x
  | .refused r => .refused r

/-- The machine `r` with the decoder of `s`, the refused call of it included. -/
def State.adoptDec (r s : State) : State := { r with dec := s.dec, decRefused := s.decRefused }

/-- The machine `r` with the encoder of `s`, the refused call of it included. -/
def State.adoptEnc (r s : State) : State := { r with enc := s.enc, encRefused := s.encRefused }

/-- An element reads and writes the decoder and the parameters only. -/
theorem exec_adoptDec (i : Instr) {r s : State} (hcfg : r.cfg = s.cfg) :
    exec i (r.adoptDec s) = carryOutcome r.adoptDec (exec i s) := by
  cases i with
  | hdr len ver =>
    have hmax : (r.adoptDec s).cfg = s.cfg := hcfg
    simp only [exec, execHdr, hmax]
    split_ifs <;> rfl
  | ctrl flags =>
    have hdec : (r.adoptDec s).dec = s.dec := rfl
    simp only [exec, execCtrl, hdec]
    split_ifs <;> rfl
  | lit d =>
    have hdec : (r.adoptDec s).dec = s.dec := rfl
    simp only [exec, execLit, hdec]
    split <;> rfl
  | matchTok offLo offHi lencode => rfl

theorem copyStep_adoptDec (r s : State) : copyStep (r.adoptDec s) = carryOutcome r.adoptDec (copyStep s) := by
  have hdec : (r.adoptDec s).dec = s.dec := rfl
  simp only [copyStep, hdec]
  split_ifs
  · rfl
  · rfl
  · split <;> rfl

theorem fetch_adoptDec (p : Position) {r s : State} (hcfg : r.cfg = s.cfg) :
    (fetch p (r.adoptDec s)).perform (r.adoptDec s) = carryOutcome r.adoptDec ((fetch p s).perform s) := by
  have hdec : (r.adoptDec s).dec = s.dec := rfl
  simp only [fetch, hdec]
  split
  · exact exec_adoptDec _ hcfg
  · rfl
  · rfl

/-- The decoder's step commutes with putting its decoder into another machine of the same parameters (R39, R281). -/
theorem decStep_adoptDec {r s : State} (hcfg : r.cfg = s.cfg) :
    decStep (r.adoptDec s) = carryOutcome r.adoptDec (decStep s) := by
  have hdec : (r.adoptDec s).dec = s.dec := rfl
  cases hp : s.dec.phase with
  | hdr =>
    simp only [decStep, decMove, hdec, hp]
    exact fetch_adoptDec .header hcfg
  | ctrl =>
    simp only [decStep, decMove, ctrlMove, hdec, hp]
    split_ifs
    · rfl
    · exact fetch_adoptDec .groupHead hcfg
  | token =>
    simp only [decStep, decMove, tokenMove, hdec, hp]
    split_ifs
    · rfl
    · rfl
    · exact fetch_adoptDec (.token s.dec.flag) hcfg
  | copy =>
    simp only [decStep, decMove, hdec, hp]
    exact copyStep_adoptDec r s
  | idle | done | fault =>
    simp only [decStep, decMove, hdec, hp]
    rfl

/-- The encoder's step commutes with putting its encoder into another machine (R39, R281). -/
theorem encStep_adoptEnc (r s : State) : encStep (r.adoptEnc s) = carryOutcome r.adoptEnc (encStep s) := by
  have henc : (r.adoptEnc s).enc = s.enc := rfl
  cases hp : s.enc.phase with
  | emit =>
    simp only [encStep, henc, hp]
    split <;> rfl
  | _ =>
    simp only [encStep, henc, hp]
    rfl

theorem adoptDec_self {r s : State} (hd : s.dec = r.dec) (hr : s.decRefused = r.decRefused) : r.adoptDec s = r := by
  simp only [State.adoptDec, hd, hr]

theorem adoptEnc_self {r s : State} (he : s.enc = r.enc) (hr : s.encRefused = r.encRefused) : r.adoptEnc s = r := by
  simp only [State.adoptEnc, he, hr]

/-- Settles O53: the second machine is itself with the first one's engine put in, so its step is the first one's,
carried over. -/
theorem eachEngineSeesOnlyItself : Obligations.EachEngineSeesOnlyItself := by
  refine ⟨fun s s' t hp hp' ht ht' hr hr' hdec hcfg h => ?_, fun s s' t hp hp' ht ht' hr hr' henc _ h => ?_⟩
  · have hself : s'.passTurn.adoptDec s.passTurn = s'.passTurn :=
      adoptDec_self (by simp only [passTurn_dec, hdec]) (by simp only [passTurn_decRefused, hr, hr'])
    have hstep := decStep_adoptDec (r := s'.passTurn) (s := s.passTurn) (by simp only [passTurn_cfg, hcfg])
    rw [hself, ← step_dec hp' ht' hr', ← step_dec hp ht hr, h] at hstep
    exact ⟨_, hstep, rfl, rfl⟩
  · have hself : s'.passTurn.adoptEnc s.passTurn = s'.passTurn :=
      adoptEnc_self (by simp only [passTurn_enc, henc]) (by simp only [passTurn_encRefused, hr, hr'])
    have hstep := encStep_adoptEnc s'.passTurn s.passTurn
    rw [hself, ← step_enc hp' ht' hr', ← step_enc hp ht hr, h] at hstep
    exact ⟨_, hstep, rfl, rfl⟩

end Sys2Proof.Machine
end

section
/-! PROOFS. The size of the frame of the loop form (45_encoder_emit.md R247, R249). -/

namespace Sys2Proof.Machine

open Sys2Proof

/-- A token appended to the open group: its flag is in `acc`, its payload is added, and it covers `covered` bytes of the
input. -/
def LoopEnc.withToken (l : LoopEnc) (acc : Byte) (payload : List Byte) (covered : Nat) : LoopEnc :=
  { l with acc := acc, gbuf := l.gbuf ++ payload, sp := l.sp + covered, g := l.g + 1 }

/-- A full group is closed (R148, R247). -/
def LoopEnc.closeFull (l : LoopEnc) : LoopEnc :=
  if l.g = groupSize then { l with stream := l.stream ++ l.acc :: l.gbuf, acc := 0#8, g := 0, gbuf := [] } else l

/-- The token of one turn of the loop of R247, whatever pair the search found. -/
def LoopEnc.addToken (src : Memory) (n : Nat) (l : LoopEnc) (best : Nat × Nat) : LoopEnc :=
  if minMatch ≤ best.1 then
    l.withToken (l.acc >>> 1)
      [emittedFirstByte (emittedOffset (BitVec.ofNat 10 best.2) (l.sp - windowSize)),
        emittedSecondByte (emittedOffset (BitVec.ofNat 10 best.2) (l.sp - windowSize))
          (lengthCode (BitVec.ofNat 7 best.1))]
      best.1
  else l.withToken ((l.acc >>> 1) ||| 0x80#8) [(workByte src n l.sp).getD 0#8] 1

/-- One turn of the loop of R247: the token, and the closing of a full group. -/
theorem loopEncodeToken_eq (src : Memory) (n : Nat) (l : LoopEnc) :
    loopEncodeToken src n l = (l.addToken src n (bestMatch src n l.sp)).closeFull := by
  unfold loopEncodeToken
  generalize bestMatch src n l.sp = best
  rfl

/-- A token's payload has no more bytes than the input bytes it covers, and it covers one at least. -/
theorem addToken_cases (src : Memory) (n : Nat) (l : LoopEnc) (best : Nat × Nat) :
    ∃ acc payload covered, l.addToken src n best = l.withToken acc payload covered ∧
      payload.length ≤ covered ∧ 1 ≤ covered ∧ covered ≤ max 1 best.1 := by
  unfold LoopEnc.addToken
  split
  · next hm =>
    exact ⟨_, _, _, rfl, (by decide : 2 ≤ minMatch).trans hm, (by decide : 1 ≤ minMatch).trans hm, le_max_right _ _⟩
  · exact ⟨_, _, _, rfl, le_rfl, le_rfl, le_max_left _ _⟩

/-- The size of the frame so far, for an input of `n` bytes: `closed` groups of eight tokens are closed, every token
covers an input byte at least, and its payload takes no more bytes than it covers. -/
structure LoopEnc.Sized (n closed : Nat) (l : LoopEnc) : Prop where
  header : headerLength ≤ l.stream.length
  spInside : l.sp ≤ windowSize + n
  payload : l.stream.length + l.gbuf.length + windowSize ≤ headerLength + closed + l.sp
  tokens : groupSize * closed + l.g + windowSize ≤ l.sp

/-- A token stays within the bounds: its payload is paid for by the bytes it covers. -/
theorem LoopEnc.Sized.withToken {n closed : Nat} {l : LoopEnc} (h : l.Sized n closed) {acc : Byte}
    {payload : List Byte} {covered : Nat} (hpayload : payload.length ≤ covered) (hcovered : 1 ≤ covered)
    (hend : l.sp + covered ≤ windowSize + n) : (l.withToken acc payload covered).Sized n closed where
  header := h.header
  spInside := hend
  payload := by
    have := h.payload
    simp only [LoopEnc.withToken, List.length_append]
    omega
  tokens := by
    have := h.tokens
    simp only [LoopEnc.withToken]
    omega

/-- Closing a full group keeps the size and leaves a group open. -/
theorem LoopEnc.Sized.closeFull {n closed : Nat} {l : LoopEnc} (h : l.Sized n closed) (hg : l.g ≤ groupSize) :
    (∃ closed', l.closeFull.Sized n closed') ∧ l.closeFull.g < groupSize := by
  obtain ⟨hheader, hsp, hpayload, htokens⟩ := h
  unfold LoopEnc.closeFull
  split
  · next hfull =>
    refine ⟨⟨closed + 1, ?_, hsp, ?_, ?_⟩, (by decide : 0 < groupSize)⟩
    · simp only [List.length_append]
      omega
    · simp only [List.length_append, List.length_cons, List.length_nil]
      omega
    · simp only [groupSize] at *
      omega
  · next hopen => exact ⟨⟨closed, hheader, hsp, hpayload, htokens⟩, by omega⟩

/-- The loop of R247 keeps the bounds, whatever the fuel. -/
theorem loopEncodeTokens_sized {src : Memory} {n k : Nat} {l : LoopEnc} (h : ∃ closed, l.Sized n closed)
    (hg : l.g < groupSize) :
    (∃ closed, (loopEncodeTokens src n k l).Sized n closed) ∧ (loopEncodeTokens src n k l).g < groupSize := by
  induction k generalizing l with
  | zero => exact ⟨h, hg⟩
  | succ k ih =>
    unfold loopEncodeTokens
    split
    · next hsp =>
      obtain ⟨closed, hsized⟩ := h
      obtain ⟨acc, payload, covered, htoken, hpayload, hcovered, hmost⟩ :=
        addToken_cases src n l (bestMatch src n l.sp)
      have hinside := bestMatch_length_inside (src := src) hsp.le
      have hend : l.sp + covered ≤ windowSize + n := by omega
      obtain ⟨hclosed, hopen⟩ := (hsized.withToken (acc := acc) hpayload hcovered hend).closeFull hg
      rw [loopEncodeToken_eq, htoken]
      exact ih hclosed hopen
    · exact ⟨h, hg⟩

/-- The final close (R149): nothing for an empty group, else a control byte and the payloads. -/
def LoopEnc.frame (l : LoopEnc) : List Byte :=
  if l.g = 0 then l.stream else l.stream ++ (l.acc >>> (groupSize - l.g)) :: l.gbuf

/-- The variables of the loop of R247 at its start: the header is written, no input byte is covered. -/
def LoopEnc.start (src : List Byte) : LoopEnc :=
  { sp := windowSize, acc := 0#8, g := 0, gbuf := [],
    stream := be32Bytes (BitVec.ofNat 32 src.length) ++ be32Bytes 1#32 }

theorem loopEncode_eq_frame (src : List Byte) :
    loopEncode src =
      (loopEncodeTokens (memOfBytes .source 0 src) src.length src.length (LoopEnc.start src)).frame := rfl

/-- The eight bytes of the header are paid for before the first token. -/
theorem start_sized (src : List Byte) : (LoopEnc.start src).Sized src.length 0 :=
  ⟨le_rfl, Nat.le_add_right _ _, le_rfl, le_rfl⟩

/-- The bound of R249: eight tokens to a control byte, the last group's included. -/
theorem LoopEnc.Sized.frame_length {n closed : Nat} {l : LoopEnc} (h : l.Sized n closed) :
    headerLength ≤ l.frame.length ∧ l.frame.length ≤ headerLength + n + (n + 7) / 8 := by
  obtain ⟨hheader, hsp, hpayload, htokens⟩ := h
  simp only [groupSize] at htokens
  unfold LoopEnc.frame
  split
  · exact ⟨hheader, by omega⟩
  · simp only [List.length_append, List.length_cons]
    omega

/-- Settles O59: the loop keeps the bounds from its start, and they give the size of the frame. -/
theorem frameSizeIsBounded : Obligations.FrameSizeIsBounded := by
  intro src
  have hopen : (LoopEnc.start src).g < groupSize := (by decide : 0 < groupSize)
  obtain ⟨⟨closed, hsized⟩, _⟩ := loopEncodeTokens_sized (src := memOfBytes .source 0 src) (k := src.length)
    ⟨0, start_sized src⟩ hopen
  rw [loopEncode_eq_frame]
  exact hsized.frame_length

end Sys2Proof.Machine
end

section
/-! PROOFS. Byte order: the value of a big-endian field, and the bytes written for a value (20_memory.md R65, R66). -/

namespace Sys2Proof.Machine

open Sys2Proof

/-- The four bytes do not overlap in a big-endian field: it is their concatenation. -/
theorem be32_eq_append (b0 b1 b2 b3 : Byte) : be32 b0 b1 b2 b3 = b0 ++ b1 ++ b2 ++ b3 := by
  rw [← BitVec.setWidth_eq (b0 ++ b1 ++ b2 ++ b3), BitVec.setWidth_append_append_append_eq_shiftLeft_setWidth_or]
  rfl

/-- Appending `n` low bits weighs the bits above them by `2 ^ n`. -/
theorem toNat_append_eq_add {m n : Nat} (x : BitVec m) (y : BitVec n) :
    (x ++ y).toNat = x.toNat * 2 ^ n + y.toNat := by
  rw [BitVec.toNat_append, ← Nat.shiftLeft_add_eq_or_of_lt y.isLt, Nat.shiftLeft_eq]

/-- R66, reading: the bytes weigh `2 ^ 24`, `2 ^ 16`, `2 ^ 8` and 1 in address order. -/
theorem be32_toNat (b0 b1 b2 b3 : Byte) :
    (be32 b0 b1 b2 b3).toNat = b0.toNat * 2 ^ 24 + b1.toNat * 2 ^ 16 + b2.toNat * 2 ^ 8 + b3.toNat := by
  simp only [be32_eq_append, toNat_append_eq_add]
  omega

/-- R66, writing: the byte of the bits from `start` up is a digit of the value in base 256. -/
theorem extractByte_toNat (v : Word32) (start : Nat) :
    (v.extractLsb' start 8).toNat = v.toNat / 2 ^ start % 256 := by
  rw [BitVec.extractLsb'_toNat, Nat.shiftRight_eq_div_pow]

/-- The top byte of a field has no digit above it. -/
theorem extractTopByte_toNat (v : Word32) : (v.extractLsb' 24 8).toNat = v.toNat / 2 ^ 24 := by
  have hv : v.toNat < 2 ^ 24 * 256 := v.isLt
  rw [extractByte_toNat, Nat.mod_eq_of_lt (Nat.div_lt_of_lt_mul hv)]

/-- Settles O7: a field is the concatenation of its bytes, and the bytes written are its digits in base 256. -/
theorem headerFieldsAreBigEndian : Obligations.HeaderFieldsAreBigEndian := by
  refine ⟨be32_toNat, fun v => ⟨_, _, _, _, rfl, extractTopByte_toNat v, extractByte_toNat v 16,
    extractByte_toNat v 8, ?_⟩⟩
  rw [extractByte_toNat, Nat.pow_zero, Nat.div_one]

end Sys2Proof.Machine
end

section
/-! PROOFS. Decoding and encoding are inverse, and the fields of a match on both sides (30_encoding.md R90 to R108). -/

namespace Sys2Proof.Machine

open Sys2Proof

/-! ### Fields that do not overlap are concatenations -/

/-- R96: `b2` is `{off_hi, lencode}`. -/
theorem matchSecondByte_eq_append (offHi : BitVec 2) (lencode : BitVec 6) :
    matchSecondByte offHi lencode = offHi ++ lencode := by
  rw [← BitVec.setWidth_eq (offHi ++ lencode), BitVec.setWidth_append_eq_shiftLeft_setWidth_or]
  rfl

/-- R97: the raw offset is `{off_hi, off_lo}`. -/
theorem rawOffset_eq_append (offLo : Byte) (offHi : BitVec 2) : rawOffset offLo offHi = offHi ++ offLo := by
  rw [← BitVec.setWidth_eq (offHi ++ offLo), BitVec.setWidth_append_eq_shiftLeft_setWidth_or]
  rfl

/-- A raw offset is put together again from its two fields (R96). -/
theorem rawOffset_extract (offset : Addr10) :
    rawOffset (offset.extractLsb' 0 8) (offset.extractLsb' 8 2) = offset := by
  rw [rawOffset_eq_append]
  exact BitVec.extractLsb'_append_extractLsb' (w := 2) (len := 8)

/-- The second byte of a match is put together again from its two fields (R96). -/
theorem matchSecondByte_extract (b2 : Byte) :
    matchSecondByte (b2.extractLsb' 6 2) (b2.extractLsb' 0 6) = b2 := by
  rw [matchSecondByte_eq_append]
  exact BitVec.extractLsb'_append_extractLsb' (w := 2) (len := 6)

/-- The bytes written for a big-endian field read back as the field (R66). -/
theorem be32_be32Bytes (v : Word32) :
    be32 (v.extractLsb' 24 8) (v.extractLsb' 16 8) (v.extractLsb' 8 8) (v.extractLsb' 0 8) = v := by
  apply BitVec.eq_of_toNat_eq
  simp only [be32_toNat, extractByte_toNat]
  omega

/-- The bytes written for a big-endian field are the bytes it was read from (R66). -/
theorem be32Bytes_be32 (b0 b1 b2 b3 : Byte) : be32Bytes (be32 b0 b1 b2 b3) = [b0, b1, b2, b3] := by
  have hvalue := be32_toNat b0 b1 b2 b3
  have hbyte (start : Nat) (b : Byte) (h : (be32 b0 b1 b2 b3).toNat / 2 ^ start % 256 = b.toNat) :
      (be32 b0 b1 b2 b3).extractLsb' start 8 = b :=
    BitVec.eq_of_toNat_eq ((extractByte_toNat _ _).trans h)
  rw [be32Bytes, hbyte 24 b0 (by omega), hbyte 16 b1 (by omega), hbyte 8 b2 (by omega), hbyte 0 b3 (by omega)]

/-! ### Decoding and encoding -/

/-- R100: the bytes of a header decode to it when its version is 1, and are rejected with their version otherwise. -/
theorem decode_encode_hdr (len ver : Word32) (rest : List Byte) :
    decode .header (encode (.hdr len ver) ++ rest) =
      if ver = 1#32 then .ok (.hdr len ver, rest) else .error (.illegalVersion ver) := by
  simp only [encode, be32Bytes, List.cons_append, List.nil_append, decode, decodeHeader, be32_be32Bytes]

/-- The bytes of a match decode to it (R96). -/
theorem decode_encode_matchTok (offLo : Byte) (offHi : BitVec 2) (lencode : BitVec 6) (rest : List Byte) :
    decode (.token false) (encode (.matchTok offLo offHi lencode) ++ rest) =
      .ok (.matchTok offLo offHi lencode, rest) := by
  simp only [encode, List.cons_append, List.nil_append, decode, decodeMatch, matchSecondByte_eq_append,
    BitVec.extractLsb'_append_eq_left, BitVec.extractLsb'_append_eq_right]

/-- Settles O1, by the rows of the element table; a header is well-formed when its version is 1. -/
theorem decodeInvertsEncode : Obligations.DecodeInvertsEncode := by
  intro i rest hi
  cases i with
  | hdr len ver =>
    have hver : ver = 1#32 := eq_of_beq hi
    exact (decode_encode_hdr len ver rest).trans (if_pos hver)
  | ctrl flags => rfl
  | lit d => rfl
  | matchTok offLo offHi lencode => exact decode_encode_matchTok offLo offHi lencode rest

/-- What a header decodes to is legal and has the eight bytes it was read from. -/
theorem decodeHeader_eq_ok {bytes rest : List Byte} {i : Instr} (h : decodeHeader bytes = .ok (i, rest)) :
    i.position = .header ∧ i.wellFormed = true ∧ encode i ++ rest = bytes := by
  unfold decodeHeader at h
  split at h
  · split at h
    · next hver =>
      cases h
      exact ⟨rfl, beq_iff_eq.2 hver, by simp [encode, be32Bytes_be32]⟩
    · cases h
  · cases h

/-- What a match decodes to has the two bytes it was read from. -/
theorem decodeMatch_eq_ok {bytes rest : List Byte} {i : Instr} (h : decodeMatch bytes = .ok (i, rest)) :
    i.position = .token false ∧ i.wellFormed = true ∧ encode i ++ rest = bytes := by
  unfold decodeMatch at h
  split at h
  · cases h
    exact ⟨rfl, rfl, by simp [encode, matchSecondByte_extract]⟩
  · cases h

/-- Settles O2, by the position: the one byte of `CTRL` and of `LIT` is its operand. -/
theorem encodeInvertsDecode : Obligations.EncodeInvertsDecode := by
  intro p bytes i rest h
  match p, bytes, h with
  | .header, _, h => exact decodeHeader_eq_ok h
  | .groupHead, _ :: _, rfl => exact ⟨rfl, rfl, rfl⟩
  | .token true, _ :: _, rfl => exact ⟨rfl, rfl, rfl⟩
  | .token false, _, h => exact decodeMatch_eq_ok h

/-- R101: outside the header, an element's bytes decode as soon as they are there. -/
theorem exists_decode_of_length {p : Position} {bytes : List Byte} (hp : p ≠ .header)
    (hlen : p.byteLength ≤ bytes.length) : ∃ i, decode p bytes = .ok (i, bytes.drop p.byteLength) := by
  match p, bytes, hp, hlen with
  | .groupHead, c :: _, _, _ => exact ⟨.ctrl c, rfl⟩
  | .token true, d :: _, _, _ => exact ⟨.lit d, rfl⟩
  | .token false, b1 :: b2 :: _, _, _ => exact ⟨.matchTok b1 (b2.extractLsb' 6 2) (b2.extractLsb' 0 6), rfl⟩
  | .token false, [_], _, hlen => simp [Position.byteLength] at hlen

/-- Settles O3: the header's two outcomes, and the other positions, which have no check. -/
theorem onlyTheVersionCanBeIllegal : Obligations.OnlyTheVersionCanBeIllegal :=
  ⟨decode_encode_hdr, fun _ _ => exists_decode_of_length⟩

/-- Settles O4, by evaluation of the written words. -/
theorem writtenWordsDecode : Obligations.WrittenWordsDecode := by
  unfold Obligations.WrittenWordsDecode
  decide

/-! ### The fields of a match -/

/-- A mask of the high bits keeps the high field, in its place. -/
theorem and_highMask {m n : Nat} (x : BitVec (m + n)) :
    x &&& (BitVec.allOnes m ++ 0#n) = x.extractLsb' n m ++ 0#n := by
  conv_lhs => rw [← BitVec.extractLsb'_append_extractLsb' (x := x), BitVec.and_append]
  rw [BitVec.and_zero, BitVec.and_allOnes]

/-- The mask `0xC0` keeps `off_hi`. -/
theorem and_offHiMask (b2 : Byte) : b2.toNat &&& 0xC0 = (b2.extractLsb' 6 2).toNat <<< 6 := by
  calc b2.toNat &&& 0xC0 = (b2 &&& 0xC0#8).toNat := (BitVec.toNat_and b2 0xC0#8).symm
    _ = (b2.extractLsb' 6 2 ++ 0#6).toNat := congrArg BitVec.toNat (and_highMask (m := 2) (n := 6) b2)
    _ = (b2.extractLsb' 6 2).toNat <<< 6 ||| 0 := BitVec.toNat_append _ _
    _ = (b2.extractLsb' 6 2).toNat <<< 6 := Nat.or_zero _

/-- The mask `0x3F` keeps `lencode`. -/
theorem and_lencodeMask (b2 : Byte) : b2.toNat &&& 0x3F = (b2.extractLsb' 0 6).toNat := by
  rw [BitVec.extractLsb'_toNat, Nat.shiftRight_zero]
  exact Nat.and_two_pow_sub_one_eq_mod b2.toNat 6

/-- R97's formula for the raw offset, over the two bytes of the match. -/
theorem rawOffset_of_bytes (b1 b2 : Byte) : (rawOffset b1 (b2.extractLsb' 6 2)).toNat =
    (((b2.toNat &&& 0xC0) <<< 2) ||| b1.toNat) &&& 0x3FF := by
  have hlt := (rawOffset b1 (b2.extractLsb' 6 2)).isLt
  rw [and_offHiMask, ← Nat.shiftLeft_add, ← BitVec.toNat_append, ← rawOffset_eq_append]
  exact ((Nat.and_two_pow_sub_one_eq_mod _ 10).trans (Nat.mod_eq_of_lt hlt)).symm

/-- Settles O8: the fields that the decoder reads, put together by R97 and R185. -/
theorem matchFieldsAssemble : Obligations.MatchFieldsAssemble := by
  intro b1 b2 rest
  have hlength : (matchLength (b2.extractLsb' 0 6)).toNat = (b2.extractLsb' 0 6).toNat + 3 := matchLength_toNat _
  have hcode := (b2.extractLsb' 0 6).isLt
  refine ⟨b1, b2.extractLsb' 6 2, b2.extractLsb' 0 6, rfl, rawOffset_of_bytes b1 b2, ?_, readPosition_toNat _, ?_,
    ?_⟩
  · rw [hlength, and_lencodeMask]
  · omega
  · omega

/-! ### What the encoder emits for a match -/

/-- R98: the first byte emitted is `off_lo`. -/
theorem emittedFirstByte_eq (offset : Addr10) : emittedFirstByte offset = offset.extractLsb' 0 8 := by
  rw [emittedFirstByte, BitVec.setWidth_and, show (0xFF#10).setWidth 8 = BitVec.allOnes 8 from rfl,
    BitVec.and_allOnes]
  ext i hi
  simp

/-- R98: the second byte emitted is `{off_hi, lencode}`. -/
theorem emittedSecondByte_eq (offset : Addr10) (code : BitVec 6) :
    emittedSecondByte offset code = matchSecondByte (offset.extractLsb' 8 2) code := by
  have hmask : offset &&& 0x300#10 = offset.extractLsb' 8 2 ++ 0#8 := and_highMask (m := 2) (n := 8) offset
  rw [emittedSecondByte, matchSecondByte, hmask]
  congr 1
  have hoffHi := (offset.extractLsb' 8 2).isLt
  have happend := toNat_append_eq_add (offset.extractLsb' 8 2) 0#8
  apply BitVec.eq_of_toNat_eq
  simp only [BitVec.toNat_setWidth, BitVec.toNat_ushiftRight, BitVec.toNat_shiftLeft, Nat.shiftRight_eq_div_pow,
    Nat.shiftLeft_eq, happend, BitVec.toNat_zero]
  omega

/-- R98: the bytes emitted for a match are those of its element. -/
theorem encode_ofOffset (offset : Addr10) (code : BitVec 6) :
    encode (Instr.ofOffset offset code) = [emittedFirstByte offset, emittedSecondByte offset code] := by
  rw [emittedFirstByte_eq, emittedSecondByte_eq]
  rfl

/-- R98: within the encoder's lengths the subtraction is exact and its result fits the 6 bits. -/
theorem lengthCode_toNat {len : BitVec 7} (hmin : minMatch ≤ len.toNat) (hmax : len.toNat ≤ encMaxMatch) :
    (lengthCode len).toNat = len.toNat - minMatch := by
  rw [lengthCode, BitVec.toNat_ofNat]
  exact Nat.mod_eq_of_lt (by simp only [minMatch, encMaxMatch] at *; omega)

/-- The decoder's addition takes back the encoder's subtraction (R97, R98). -/
theorem matchLength_lengthCode {len : BitVec 7} (hmin : minMatch ≤ len.toNat) (hmax : len.toNat ≤ encMaxMatch) :
    matchLength (lengthCode len) = len := by
  apply BitVec.eq_of_toNat_eq
  rw [matchLength_toNat, lengthCode_toNat hmin hmax, Nat.sub_add_cancel hmin]

/-- Adding the bias takes back the encoder's subtraction of it (R98, R185). -/
theorem readPosition_emittedOffset (bestOff : Addr10) (wo : Nat) :
    (readPosition (emittedOffset bestOff wo)).toNat = (bestOff.toNat + wo) % windowSize := by
  rw [readPosition_toNat, emittedOffset_toNat]
  simp only [offsetBias, windowSize]
  omega

/-- R98, R9: the offset is the exact difference, reduced by floor modulo. -/
theorem emittedOffset_floorMod (bestOff : Addr10) (wo : Nat) :
    ((emittedOffset bestOff wo).toNat : Int) = ((bestOff.toNat : Int) + wo - 66) % 1024 := by
  rw [emittedOffset_toNat]
  simp only [windowSize]
  omega

/-- Settles O10: the emitted bytes are those of the match's element, so they decode to it. -/
theorem emittedMatchDecodesBack : Obligations.EmittedMatchDecodesBack := by
  intro bestOff wo bestLen hmin hmax
  have hdecode := decode_encode_matchTok ((emittedOffset bestOff wo).extractLsb' 0 8)
    ((emittedOffset bestOff wo).extractLsb' 8 2) (lengthCode bestLen) []
  have hbytes := encode_ofOffset (emittedOffset bestOff wo) (lengthCode bestLen)
  refine ⟨emittedOffset_floorMod bestOff wo, lengthCode_toNat hmin hmax, _, _, ?_, rawOffset_extract _,
    matchLength_lengthCode hmin hmax, ?_⟩
  · rw [← hbytes]
    exact hdecode
  · rw [rawOffset_extract]
    exact readPosition_emittedOffset bestOff wo

/-! ### The pseudo-elements of a listing -/

/-- R107: `MATCHRP` names the offset that the encoder emits for the window address at `wo = 0`. -/
theorem rawOffsetOfRead_eq (rp : Addr10) : rawOffsetOfRead rp = emittedOffset rp 0 := by
  simp [rawOffsetOfRead, emittedOffset]

/-- R107: bit `i` of `GROUP`'s control byte is the flag of token `i`, and 0 past the last token. -/
theorem groupControl_getLsbD (ts : List ListedToken) {i : Nat} (hi : i < 8) :
    (groupControl ts).getLsbD i = (ts[i]?.map ListedToken.flag).getD false := by
  induction ts generalizing i with
  | nil => simp [groupControl]
  | cons t ts ih =>
    cases i with
    | zero => cases hf : t.flag <;> simp [groupControl, hf]
    | succ i =>
      have hlt : i < 8 := Nat.lt_of_succ_lt hi
      have htail := ih hlt
      cases hf : t.flag <;> simpa [groupControl, hf, hi, hlt] using htail

/-- Settles O11: `MATCHRP` by the encoder's offset at `wo = 0`, `GROUP` by induction on its tokens. -/
theorem listingPseudoElementsExpand : Obligations.ListingPseudoElementsExpand := by
  refine ⟨fun rp lencode => ⟨_, _, rfl, ?_, ?_⟩, fun ts _ _ => ⟨fun i => groupControl_getLsbD ts, ?_⟩⟩
  · simpa [rawOffset_extract, rawOffsetOfRead_eq] using emittedOffset_floorMod rp 0
  · apply BitVec.eq_of_toNat_eq
    rw [rawOffset_extract, rawOffsetOfRead_eq, readPosition_emittedOffset]
    exact Nat.mod_eq_of_lt rp.isLt
  · rw [← List.flatMap_def]
    rfl

end Sys2Proof.Machine
end

section
/-! PROOFS. The loop form of the decoder reads no byte after the last one it needs (30_encoding.md R104). -/

namespace Sys2Proof.Machine

open Sys2Proof

/-- A byte that the frame has is the same byte when more follow it. -/
theorem frame_append_getElem? {frame : List Byte} (junk : List Byte) {a : Nat} {v : Byte} (h : frame[a]? = some v) :
    (frame ++ junk)[a]? = some v :=
  (List.getElem?_append_left (List.getElem?_eq_some_iff.1 h).1).trans h

/-- A token that decodes does so with more bytes after the frame: it reads its one or two bytes only. -/
theorem loopToken_append {frame : List Byte} {outLen : Nat} {c : Byte} {l l' : LoopDec} (junk : List Byte)
    (h : loopToken frame outLen c l = .ok l') : loopToken (frame ++ junk) outLen c l = .ok l' := by
  unfold loopToken at h ⊢
  split at h
  · next hflag =>
    split at h
    · next d hd => simpa only [if_pos hflag, frame_append_getElem? junk hd] using h
    · cases h
  · next hflag =>
    split at h
    · next b1 b2 h1 h2 =>
      simpa only [if_neg hflag, frame_append_getElem? junk h1, frame_append_getElem? junk h2] using h
    · cases h

/-- So do the tokens of a group. -/
theorem loopTokens_append {frame : List Byte} {outLen k : Nat} {c : Byte} {l l' : LoopDec} (junk : List Byte)
    (h : loopTokens frame outLen k c l = .ok l') : loopTokens (frame ++ junk) outLen k c l = .ok l' := by
  induction k generalizing c l with
  | zero => exact h
  | succ k ih =>
    unfold loopTokens at h ⊢
    split at h
    · next hfull => rwa [if_pos hfull]
    · next howed =>
      split at h
      · next l1 htoken => simpa only [if_neg howed, loopToken_append junk htoken] using ih h
      · cases h

/-- So do the groups, and more fuel changes nothing: it did not run out. -/
theorem loopGroups_append {frame : List Byte} {outLen k k' : Nat} {l l' : LoopDec} (junk : List Byte) (hk : k ≤ k')
    (h : loopGroups frame outLen k l = .ok l') : loopGroups (frame ++ junk) outLen k' l = .ok l' := by
  induction k generalizing k' l with
  | zero => cases h
  | succ k ih =>
    obtain ⟨k', rfl⟩ := Nat.exists_eq_add_of_lt hk
    unfold loopGroups at h ⊢
    split at h
    · next howed =>
      split at h
      · next c hc =>
        split at h
        · next l1 htokens =>
          have hrest := ih (Nat.le_add_right k k') h
          simpa only [if_pos howed, frame_append_getElem? junk hc, loopTokens_append junk htokens] using hrest
        · cases h
      · cases h
    · next hfull => rwa [if_neg hfull]

/-- Settles O58: the header is the same, and the loop over the groups reads the same bytes. -/
theorem trailingBytesAreNeverRead : Obligations.TrailingBytesAreNeverRead := by
  intro decMaxOut frame bytes junk ip h
  unfold loopDecode at h
  split at h
  · next b0 b1 b2 b3 b4 b5 b6 b7 tail =>
    split_ifs at h with hversion hlength
    split at h
    · next l hgroups =>
      have hfuel : (b0 :: b1 :: b2 :: b3 :: b4 :: b5 :: b6 :: b7 :: tail).length + 1 ≤
          (b0 :: b1 :: b2 :: b3 :: b4 :: b5 :: b6 :: b7 :: tail ++ junk).length + 1 := by simp
      have hmore := loopGroups_append junk hfuel hgroups
      rw [← h]
      simp only [List.cons_append] at hmore ⊢
      simp only [loopDecode, if_neg hversion, if_neg hlength, hmore]
    · cases h
  · cases h

end Sys2Proof.Machine
end

section
/-! PROOFS. A table word placed where the decoder fetches next is what the next step runs (30_encoding.md R91, R92,
R99; log entry 10). -/

namespace Sys2Proof.Machine

open Sys2Proof

/-! ### The bytes written are the bytes fetched -/

/-- Bytes written leave what is below them. -/
theorem memRead_memWriteBytes_below {sp : Space} (vs : List Byte) {m : Memory} {a b : Nat} (hm : Memory.wf sp m)
    (hb : b < a) : memRead sp (memWriteBytes sp m a vs) b = memRead sp m b := by
  induction vs generalizing m a with
  | nil => rfl
  | cons v vs ih =>
    rw [memWriteBytes, ih (memWrite_wf a v hm) (by omega), memRead_memWrite a b v hm, if_neg (by omega)]

/-- Bytes written are read back in order. -/
theorem memRead_memWriteBytes {sp : Space} {vs : List Byte} {m : Memory} {a j : Nat} (hm : Memory.wf sp m)
    (hj : j < vs.length) : memRead sp (memWriteBytes sp m a vs) (a + j) = vs[j]? := by
  induction vs generalizing m a j with
  | nil => simp at hj
  | cons v vs ih =>
    have hm' := memWrite_wf a v hm
    cases j with
    | zero =>
      rw [memWriteBytes, memRead_memWriteBytes_below vs hm' (by omega), Nat.add_zero, memRead_memWrite_same a v hm]
      rfl
    | succ j =>
      have hj' : j < vs.length := Nat.lt_of_succ_lt_succ hj
      rw [memWriteBytes, show a + (j + 1) = a + 1 + j by omega, ih hm' hj', List.getElem?_cons_succ]

/-- The bytes at an address, where `IN` holds given bytes from there on. -/
theorem bytesAt_eq_take {d : Dec} {vs : List Byte} {a : Nat} (h : ∀ j < vs.length, d.inByteAt (a + j) = vs[j]?)
    {k : Nat} (hk : k ≤ vs.length) : d.bytesAt a k = vs.take k := by
  induction k generalizing vs a with
  | zero => simp [Dec.bytesAt]
  | succ k ih =>
    cases vs with
    | nil => simp at hk
    | cons v vs =>
      have hhead : d.inByteAt a = some v := h 0 (Nat.succ_pos _)
      have htail : ∀ j < vs.length, d.inByteAt (a + 1 + j) = vs[j]? := fun j hj => by
        rw [show a + 1 + j = a + (j + 1) by omega, h (j + 1) (Nat.succ_lt_succ hj), List.getElem?_cons_succ]
      simp only [Dec.bytesAt, hhead, List.take_succ_cons, ih htail (Nat.le_of_succ_le_succ hk)]

/-- Moving the cursor leaves `IN`. -/
theorem advance_bytesAt (d : Dec) (n k a : Nat) : (d.advance n).bytesAt a k = d.bytesAt a k := by
  induction k generalizing a with
  | zero => rfl
  | succ k ih =>
    have hbyte : (d.advance n).inByteAt a = d.inByteAt a := rfl
    simp only [Dec.bytesAt, ih, hbyte]

/-- Bytes taken one by one are those from `ip` on (R62). -/
theorem takeBytes_fst (k : Nat) (d : Dec) : (Dec.takeBytes k d).1 = d.bytesAt d.ip k := by
  induction k generalizing d with
  | zero => rfl
  | succ k ih =>
    rcases inByte_spec d with ⟨hend, hnone⟩ | ⟨v, _, hv, hsome⟩
    · simp only [Dec.takeBytes, Dec.bytesAt, hnone, (inByteAt_eq_none d d.ip).2 hend]
    · simp only [Dec.takeBytes, Dec.bytesAt, hsome, hv, ih, Dec.advance_ip, advance_bytesAt]

/-- The address an element is fetched from (R161, R181). -/
def Dec.fetchAddress (d : Dec) : Position → Nat
  | .header => 0
  | .groupHead => d.ip
  | .token _ => d.ip

theorem elementBytes_eq_bytesAt (d : Dec) (p : Position) :
    d.elementBytes p = d.bytesAt (d.fetchAddress p) p.byteLength := by
  cases p with
  | header => rfl
  | groupHead => exact takeBytes_fst _ d
  | token literal => exact takeBytes_fst _ d

/-- No element is longer than the header (R91). -/
theorem byteLength_le_headerLength (p : Position) : p.byteLength ≤ headerLength := by
  match p with
  | .header | .groupHead | .token true | .token false => decide

/-- An encoded element has the length of its position (R91). -/
theorem encode_length (i : Instr) : (encode i).length = i.position.byteLength := by
  cases i with
  | hdr len ver => exact Laws.EncodedLength.hdr len ver
  | ctrl flags => exact Laws.EncodedLength.ctrl flags
  | lit d => exact Laws.EncodedLength.lit d
  | matchTok offLo offHi lencode => exact Laws.EncodedLength.matchTok offLo offHi lencode

/-! ### The placing of a table word -/

/-- The eight bytes placed: those of the word, zeros after them. -/
def placedBytes (nbits w : Nat) : List Byte :=
  (tableBytes nbits w ++ List.replicate headerLength 0#8).take headerLength

theorem placedBytes_length (nbits w : Nat) : (placedBytes nbits w).length = headerLength := by
  simp [placedBytes]

/-- The placed bytes stand in `IN` where the element is fetched from. -/
theorem placeWord_input (d : Dec) (nbits w : Nat) : (d.placeWord nbits w).input =
    memWriteBytes .input d.input (d.fetchAddress (tablePosition nbits w)) (placedBytes nbits w) := by
  unfold Dec.placeWord
  cases tablePosition nbits w <;> rfl

/-- Room is made in `IN` for them. -/
theorem placeWord_inLen (d : Dec) (nbits w : Nat) : (d.placeWord nbits w).inLen =
    max d.inLen (d.fetchAddress (tablePosition nbits w) + headerLength) := by
  unfold Dec.placeWord
  cases tablePosition nbits w <;> rfl

/-- The cursor stays, and so does the address of the fetch. -/
theorem placeWord_fetchAddress (d : Dec) (nbits w : Nat) :
    (d.placeWord nbits w).fetchAddress (tablePosition nbits w) = d.fetchAddress (tablePosition nbits w) := by
  unfold Dec.placeWord
  cases tablePosition nbits w <;> rfl

/-- The next fetch reads the placed bytes, as many as the element takes. -/
theorem placeWord_elementBytes {d : Dec} (hwf : Memory.wf .input d.input) (nbits w : Nat) :
    (d.placeWord nbits w).elementBytes (tablePosition nbits w) =
      (placedBytes nbits w).take (tablePosition nbits w).byteLength := by
  rw [elementBytes_eq_bytesAt, placeWord_fetchAddress]
  refine bytesAt_eq_take (fun j hj => ?_) ?_
  · rw [Dec.inByteAt, placeWord_inLen, placeWord_input, memRead_memWriteBytes hwf hj, if_pos]
    rw [placedBytes_length] at hj
    omega
  · rw [placedBytes_length]
    exact byteLength_le_headerLength _

/-- The placed decoder awaits the element at the word's position, while `OUT` can have one byte more. -/
theorem placeWord_awaits {d : Dec} (hroom : d.op + 1 < 2 ^ 32) (nbits w : Nat) :
    (d.placeWord nbits w).awaits (tablePosition nbits w) := by
  have howed : d.op ≠ (if d.op < d.outLen.toNat then d.outLen else BitVec.ofNat 32 (d.op + 1)).toNat := by
    split
    · omega
    · rw [BitVec.toNat_ofNat, Nat.mod_eq_of_lt hroom]
      omega
  have hopen : (if d.bits = 0#4 then 1#4 else d.bits) ≠ 0#4 := by
    split
    · decide
    · assumption
  unfold Dec.placeWord
  match tablePosition nbits w with
  | .header => rfl
  | .groupHead => exact ⟨rfl, howed⟩
  | .token true => exact ⟨rfl, howed, hopen, by simp [Dec.flag]⟩
  | .token false => exact ⟨rfl, howed, hopen, by simp [Dec.flag]⟩

/-! ### What the next step does -/

/-- A word that decodes to an element is that element's bytes, at its position (R92). -/
theorem decodeTableWord_eq_some {nbits w : Nat} {i : Instr} (h : decodeTableWord nbits w = some i) :
    decode (tablePosition nbits w) (tableBytes nbits w) = .ok (i, []) := by
  unfold decodeTableWord at h
  split at h
  · next hdecode => rwa [← Option.some.inj h]
  · cases h
  · cases h

/-- Such a word has as many bytes as its element takes (R91). -/
theorem tableBytes_length {nbits w : Nat} {i : Instr} (h : decodeTableWord nbits w = some i) :
    (tableBytes nbits w).length = (tablePosition nbits w).byteLength := by
  obtain ⟨hposition, _, hbytes⟩ := encodeInvertsDecode _ _ i [] (decodeTableWord_eq_some h)
  rw [← hbytes, List.append_nil, encode_length, hposition]

/-- Where the decoder awaits an element, its step is that element's fetch, performed (R141, R162, R181). -/
theorem decStep_of_awaits {s : State} {p : Position} (h : s.dec.awaits p) : decStep s = (fetch p s).perform s := by
  cases p with
  | header =>
    have hphase : s.dec.phase = .hdr := h
    simp only [decStep, decMove, hphase]
  | groupHead =>
    obtain ⟨hphase, howed⟩ := h
    simp only [decStep, decMove, hphase, ctrlMove, if_neg howed]
  | token literal =>
    obtain ⟨hphase, howed, hopen, hflag⟩ := h
    simp only [decStep, decMove, hphase, tokenMove, if_neg howed, if_neg hopen, hflag]

/-- A fetch whose bytes decode performs the execution of the element. -/
theorem fetch_of_decode {s : State} {p : Position} {i : Instr} {rest : List Byte}
    (h : decode p (s.dec.elementBytes p) = .ok (i, rest)) : fetch p s = .run i := by
  simp only [fetch, h]

/-- Settles O6: the placed decoder awaits the word's element, fetches its bytes, and the idle encoder takes no turn. -/
theorem placedWordRunsFirst : Obligations.PlacedWordRunsFirst := by
  intro nbits w i h
  have hwf : Memory.wf .input State.reset.dec.input := memWf_nil _
  have hdecode : decode (tablePosition nbits w)
      ((State.reset.withFetchWord nbits w).dec.elementBytes (tablePosition nbits w)) = .ok (i, []) := by
    refine Eq.trans (congrArg _ ?_) (decodeTableWord_eq_some h)
    have hle := byteLength_le_headerLength (tablePosition nbits w)
    refine (placeWord_elementBytes hwf nbits w).trans ?_
    rw [placedBytes, List.take_take, Nat.min_eq_left hle, ← tableBytes_length h, List.take_left]
  have hawaits : (State.reset.withFetchWord nbits w).dec.awaits (tablePosition nbits w) :=
    placeWord_awaits (by decide) nbits w
  have hturn : (State.reset.withFetchWord nbits w).passTurn = State.reset.withFetchWord nbits w := passTurn_alone rfl
  rw [step_dec rfl rfl rfl, hturn, decStep_of_awaits hawaits, fetch_of_decode hdecode]
  rfl

end Sys2Proof.Machine
end

section
/-! PROOFS. What the window holds after any number of pushed bytes, and the distance view of it (40_window.md R126,
R127). -/

namespace Sys2Proof.Machine

open Sys2Proof

/-! ### One push -/

/-- The address is reduced, so equal residues read the same byte (R122). -/
theorem winRead_congr (d : Dec) {a b : Nat} (h : a % windowSize = b % windowSize) : d.winRead a = d.winRead b := by
  unfold Dec.winRead
  rw [h]

/-- `WIN_PUSH` changes the byte at `wp` and no other (R125). -/
theorem winPush_winRead (d : Dec) (v : Byte) (a : Nat) (h : Memory.wf .window d.window) :
    (d.winPush v).winRead a = if a % windowSize = d.wp.toNat then v else d.winRead a :=
  produced_winRead d v a h

/-! ### Any number of pushes onto a reset window (R126) -/

/-- The decoder after `WIN_RESET` and a push of each byte in order. -/
def Dec.pushed (d : Dec) (ys : List Byte) : Dec := ys.foldl Dec.winPush d.winReset

theorem pushed_concat (d : Dec) (ys : List Byte) (v : Byte) : d.pushed (ys ++ [v]) = (d.pushed ys).winPush v :=
  List.foldl_concat _ _ _ _

theorem pushed_windowForm (d : Dec) (ys : List Byte) : Memory.wf .window (d.pushed ys).window := by
  induction ys using List.reverseRecOn with
  | nil => exact memWf_nil _
  | append_singleton ys v ih =>
    rw [pushed_concat]
    exact memWrite_wf _ _ ih

/-- The write cursor counts the pushed bytes modulo the window's size. -/
theorem pushed_wp_toNat (d : Dec) (ys : List Byte) : (d.pushed ys).wp.toNat = ys.length % windowSize := by
  induction ys using List.reverseRecOn with
  | nil => rfl
  | append_singleton ys v ih =>
    rw [pushed_concat, Dec.winPush_wp, inc10_toNat, ih, Nat.mod_add_mod, List.length_append, List.length_singleton]

/-- The last byte stands at its number modulo the window's size, over what was there. -/
theorem pushed_concat_winRead (d : Dec) (ys : List Byte) (v : Byte) (a : Nat) :
    (d.pushed (ys ++ [v])).winRead a =
      if a % windowSize = ys.length % windowSize then v else (d.pushed ys).winRead a := by
  rw [pushed_concat, winPush_winRead _ _ _ (pushed_windowForm d ys), pushed_wp_toNat]

/-- A byte stands until the address comes round again: the next push to it is `windowSize` bytes later. -/
theorem pushed_winRead_recent (d : Dec) {ys : List Byte} {j : Nat} {y : Byte} (hj : ys[j]? = some y)
    (hrecent : ys.length ≤ j + windowSize) : (d.pushed ys).winRead j = y := by
  induction ys using List.reverseRecOn with
  | nil => simp at hj
  | append_singleton ys v ih =>
    rw [List.length_append, List.length_singleton] at hrecent
    rw [pushed_concat_winRead]
    rcases Nat.lt_or_ge j ys.length with hold | hnew
    · have hother : j % windowSize ≠ ys.length % windowSize := by simp only [windowSize] at *; omega
      rw [List.getElem?_append_left hold] at hj
      rw [if_neg hother]
      exact ih hj (by omega)
    · obtain ⟨hlt, hy⟩ := List.getElem?_eq_some_iff.1 hj
      obtain rfl : j = ys.length := by simp at hlt; omega
      rw [if_pos rfl, ← hy, List.getElem_concat_length rfl]

/-- An address past the pushed bytes still has the zero of the reset. -/
theorem pushed_winRead_unreached (d : Dec) {ys : List Byte} {a : Nat} (ha : a < windowSize) (hlen : ys.length ≤ a) :
    (d.pushed ys).winRead a = 0#8 := by
  induction ys using List.reverseRecOn with
  | nil => exact winRead_winReset d a
  | append_singleton ys v ih =>
    rw [List.length_append, List.length_singleton] at hlen
    have hother : a % windowSize ≠ ys.length % windowSize := by simp only [windowSize] at *; omega
    rw [pushed_concat_winRead, if_neg hother]
    exact ih (by omega)

/-- Settles O36: by induction on the last pushed byte, for the cursor, the recent bytes and the unreached addresses. -/
theorem windowHoldsTheLastPushedBytes : Obligations.WindowHoldsTheLastPushedBytes := fun d ys =>
  ⟨pushed_wp_toNat d ys, fun _ _ => pushed_winRead_recent d, fun _ => pushed_winRead_unreached d⟩

/-! ### Distances back from the write cursor (R127) -/

/-- The byte `k` positions back, where `k` bytes have been pushed. -/
theorem pushed_winRead_back (d : Dec) {ys : List Byte} {k : Nat} (hpos : 1 ≤ k) (hk : k ≤ windowSize)
    (hlen : k ≤ ys.length) :
    (d.pushed ys).winRead ((d.pushed ys).wp.toNat + windowSize - k) = ys.getD (ys.length - k) 0#8 := by
  have haddress : ((d.pushed ys).wp.toNat + windowSize - k) % windowSize = (ys.length - k) % windowSize := by
    rw [pushed_wp_toNat]
    simp only [windowSize] at *
    omega
  have hin : ys.length - k < ys.length := by omega
  rw [winRead_congr _ haddress, List.getD_eq_getElem _ _ hin]
  exact pushed_winRead_recent d (List.getElem?_eq_getElem hin) (by omega)

/-- Before the first byte the window is zero. -/
theorem pushed_winRead_before_first (d : Dec) {ys : List Byte} {k : Nat} (hk : k ≤ windowSize)
    (hlen : ys.length < k) : (d.pushed ys).winRead ((d.pushed ys).wp.toNat + windowSize - k) = 0#8 := by
  rw [pushed_wp_toNat, Nat.mod_eq_of_lt (by omega)]
  exact pushed_winRead_unreached d (by omega) (by omega)

/-- The decoder's bias takes back the one of the raw offset (R127, R185). -/
theorem readPosition_rawOffsetOfDistance (wp : Addr10) {k : Nat} (hk : k ≤ windowSize) :
    (readPosition (rawOffsetOfDistance wp k)).toNat = (wp.toNat + windowSize - k) % windowSize := by
  rw [readPosition_toNat, rawOffsetOfDistance, BitVec.toNat_ofInt]
  simp only [offsetBias, windowSize] at *
  omega

/-- The distance is the one of 1..1024 that leads from the read position to the write cursor (R127, R187). -/
theorem windowDistance_eq_of_add {wp rp : Addr10} {k : Nat} (hpos : 1 ≤ k) (hk : k ≤ windowSize)
    (h : (rp.toNat + k) % windowSize = wp.toNat) : windowDistance wp rp = k := by
  have hlt := rp.isLt
  unfold windowDistance
  simp only [windowSize] at *
  split
  · next heq =>
    subst heq
    omega
  · next hne =>
    have hne' : wp.toNat ≠ rp.toNat := BitVec.toNat_ne.1 hne
    rw [BitVec.toNat_sub]
    omega

/-- Settles O37: the byte by O36's lemmas at the address `k` back, the raw offset by the bias that cancels. -/
theorem distanceNamesTheByteBefore : Obligations.DistanceNamesTheByteBefore := by
  intro d ys k hpos hk
  refine ⟨?_, fun wp => ?_⟩
  · split
    · next hlen => exact pushed_winRead_back d hpos hk hlen
    · next hlen => exact pushed_winRead_before_first d hk (Nat.not_le.1 hlen)
  · have haddress := readPosition_rawOffsetOfDistance wp hk
    refine ⟨haddress, windowDistance_eq_of_add hpos hk ?_⟩
    have hlt := wp.isLt
    rw [haddress]
    simp only [windowSize] at *
    omega

end Sys2Proof.Machine
end

section
/-! PROOFS. The control byte as the decoder unpacks it (41_control_byte.md R140 to R144): its fetch, and the lanes of a
group over a run of the machine. -/

namespace Sys2Proof.Machine

open Sys2Proof

/-! ### The fetched element is run -/

/-- Settles O5: passing the turn leaves the decoder alone, so it still awaits and fetches the same element. -/
theorem stepRunsTheDecodedElement : Obligations.StepRunsTheDecodedElement := by
  intro s p i rest hpending hturn hrefused hawaits hdecode
  rw [← passTurn_dec s] at hawaits hdecode
  rw [step_dec hpending hturn hrefused, decStep_of_awaits hawaits, fetch_of_decode hdecode]
  rfl

/-- Settles O15: the two branches of `CTRL_FETCH`. -/
theorem ctrlCompletes : Obligations.CtrlCompletes := fun _ _ =>
  ⟨fun howed => if_neg howed, fun hfull => if_pos hfull⟩

/-! ### The control-byte step -/

theorem decStep_ctrl_full {s : State} (hphase : s.dec.phase = .ctrl) (hfull : s.dec.op = s.dec.outLen.toNat) :
    decStep s = .next (s.setDec s.dec.finish) := by
  simp only [decStep, decMove, hphase, ctrlMove, if_pos hfull, DecMove.perform]

theorem decStep_ctrl_truncated {s : State} (hphase : s.dec.phase = .ctrl) (howed : s.dec.op ≠ s.dec.outLen.toNat)
    (hend : s.dec.inLen ≤ s.dec.ip) : decStep s = .next (s.setDec (s.dec.raise .truncatedStream)) := by
  have hawaits : s.dec.awaits .groupHead := ⟨hphase, howed⟩
  rcases fetch_groupHead s with ⟨_, hfetch⟩ | ⟨_, hinside, _⟩
  · rw [decStep_of_awaits hawaits, hfetch]
    rfl
  · omega

theorem decStep_ctrl_loaded {s : State} {c : Byte} (hphase : s.dec.phase = .ctrl)
    (howed : s.dec.op ≠ s.dec.outLen.toNat) (hc : s.dec.inByteAt s.dec.ip = some c) :
    decStep s = .next (s.setDec { s.dec with ip := s.dec.ip + 1, ctrl := c, bits := 8#4, phase := .token }) := by
  have hawaits : s.dec.awaits .groupHead := ⟨hphase, howed⟩
  rcases fetch_groupHead s with ⟨hend, _⟩ | ⟨c', _, hc', hfetch⟩
  · simp [(inByteAt_eq_none s.dec s.dec.ip).2 hend] at hc
  · obtain rfl := Option.some.inj (hc'.symm.trans hc)
    rw [decStep_of_awaits hawaits, hfetch]
    exact (ctrlCompletes s c').1 howed

/-- At the decoder's turn, a decoder's step that only writes the decoder is the step of the machine (R10, log entry
1). -/
theorem step_onlyDec {s : State} {d : Dec} (hpending : s.pending = []) (hturn : s.turn = .dec)
    (hrefused : s.decRefused = none) (h : decStep s.passTurn = .next (s.passTurn.setDec d)) :
    ∃ t, step s = .next t ∧ s.onlyDec t ∧ t.dec = d :=
  ⟨s.passTurn.setDec d, (step_dec hpending hturn hrefused).trans h,
    ⟨passTurn_enc s, passTurn_pending s, passTurn_decRefused s, passTurn_encRefused s, passTurn_cfg s⟩, rfl⟩

/-- Settles O20: one step equation for each of the three outcomes. -/
theorem controlByteStepFollowsCtrlFetch : Obligations.ControlByteStepFollowsCtrlFetch := by
  intro s hpending hturn hrefused hphase
  rw [← passTurn_dec s] at hphase ⊢
  refine ⟨fun hfull => ?_, fun howed hend => ?_, fun c howed hc => ?_⟩
  · exact step_onlyDec hpending hturn hrefused (decStep_ctrl_full hphase hfull)
  · obtain ⟨t, hstep, hframe, hdec⟩ :=
      step_onlyDec hpending hturn hrefused (decStep_ctrl_truncated hphase howed hend)
    exact ⟨t, hstep, hframe, hdec ▸ rfl⟩
  · exact step_onlyDec hpending hturn hrefused (decStep_ctrl_loaded hphase howed hc)

/-! ### The lanes of a group -/

/-- The flag registers after `j` tokens of the group of control byte `c` (R144). -/
structure Dec.AtLane (d : Dec) (c : Byte) (j : Nat) : Prop where
  lane : j ≤ 8
  shifted : d.ctrl = c >>> j
  flagsLeft : d.bits.toNat = 8 - j

/-- A control byte just loaded is at its lane 0 (R141). -/
theorem atLane_zero {d : Dec} {c : Byte} (hctrl : d.ctrl = c) (hbits : d.bits = 8#4) : d.AtLane c 0 :=
  ⟨Nat.zero_le 8, hctrl, congrArg BitVec.toNat hbits⟩

/-- The flag seen is the lane's (R142, R144). -/
theorem Dec.AtLane.flag_eq {d : Dec} {c : Byte} {j : Nat} (h : d.AtLane c j) : d.flag = c.getLsbD j := by
  rw [Dec.flag, h.shifted, BitVec.getLsbD_ushiftRight, Nat.add_zero]

/-- While a flag is left the lane is one of the eight. -/
theorem Dec.AtLane.lt_of_bits {d : Dec} {c : Byte} {j : Nat} (h : d.AtLane c j) (hbits : d.bits ≠ 0#4) : j < 8 := by
  have hleft := h.flagsLeft
  have hne : d.bits.toNat ≠ 0 := BitVec.toNat_ne.1 hbits
  omega

/-- `CTRL_SHIFT` moves to the next lane (R143). -/
theorem Dec.AtLane.ctrlShift {d : Dec} {c : Byte} {j : Nat} (h : d.AtLane c j) (hj : j < 8) :
    d.ctrlShift.AtLane c (j + 1) where
  lane := hj
  shifted := by rw [Dec.ctrlShift_ctrl, h.shifted, BitVec.shiftRight_add]
  flagsLeft := by
    rw [Dec.ctrlShift_bits, BitVec.toNat_sub, h.flagsLeft]
    simp only [BitVec.toNat_ofNat]
    omega

theorem iterate_ctrlShift_atLane {d : Dec} {c : Byte} {j : Nat} (hstart : d.AtLane c 0) (hj : j ≤ 8) :
    (Dec.ctrlShift^[j] d).AtLane c j := by
  induction j with
  | zero => exact hstart
  | succ j ih =>
    rw [Function.iterate_succ_apply']
    exact (ih (Nat.le_of_succ_le hj)).ctrlShift hj

/-- The sum of R144 over the payloads before: a literal's payload is one byte, a match's two. -/
theorem payloadStart_eq_sum (c : Byte) (j : Nat) :
    payloadStart c j = 1 + ((List.range j).map fun i => 2 - (c.getLsbD i).toNat).sum := by
  induction j with
  | zero => rfl
  | succ j ih =>
    have hbytes : (if laneFlag c j then 1 else 2) = 2 - (c.getLsbD j).toNat := by
      rw [laneFlag]
      cases c.getLsbD j <;> rfl
    rw [payloadStart, ih, hbytes, List.range_succ, List.map_append, List.sum_append, List.map_singleton,
      List.sum_singleton, Nat.add_assoc]

theorem payloadStart_literal {c : Byte} {j : Nat} (h : c.getLsbD j = true) :
    payloadStart c (j + 1) = payloadStart c j + 1 :=
  congrArg _ (if_pos h)

theorem payloadStart_match {c : Byte} {j : Nat} (h : c.getLsbD j = false) :
    payloadStart c (j + 1) = payloadStart c j + 2 :=
  congrArg _ (if_neg (ne_true_of_eq_false h))

/-! ### A group on the machine -/

/-- A decoder within the group whose control byte `c` stands at address `a`, after `j` tokens: about to dispatch token
`j`, or copying it (R144, R181, R184). -/
inductive Dec.InGroup (d : Dec) (a : Nat) (c : Byte) (j : Nat) : Prop where
  | token : d.phase = .token → d.AtLane c j → d.ip = a + payloadStart c j → d.InGroup a c j
  | copy : d.phase = .copy → d.AtLane c j → j < 8 → c.getLsbD j = false → d.ip = a + payloadStart c (j + 1) →
      d.InGroup a c j

theorem Dec.InGroup.atLane {d : Dec} {a : Nat} {c : Byte} {j : Nat} : d.InGroup a c j → d.AtLane c j
  | .token _ hlane _ => hlane
  | .copy _ hlane _ _ _ => hlane

/-- From the dispatch of a token, a step that stays in the group is a literal, which completes the token, or the fetch
of a match (R182, R184). -/
theorem DecCase.token_inGroup {s t : State} {a : Nat} {c : Byte} {j : Nat} (h : DecCase s (.next t))
    (hphase : s.dec.phase = .token) (hlane : s.dec.AtLane c j) (hip : s.dec.ip = a + payloadStart c j)
    (hstay : t.dec.phase = .token ∨ t.dec.phase = .copy) : ∃ j', t.dec.InGroup a c j' := by
  cases h with
  | literal v _ _ hopen hflag =>
    have hbit : c.getLsbD j = true := hlane.flag_eq.symm.trans hflag
    have hshift : ((s.dec.advance 1).produced v).AtLane c j := { hlane with }
    refine ⟨j + 1, .token hphase (hshift.ctrlShift (hlane.lt_of_bits hopen)) ?_⟩
    rw [payloadStart_literal hbit, ← Nat.add_assoc, ← hip]
    rfl
  | matchFetch b1 b2 _ _ hopen hflag =>
    have hbit : c.getLsbD j = false := hlane.flag_eq.symm.trans hflag
    refine ⟨j, .copy rfl { hlane with } (hlane.lt_of_bits hopen) hbit ?_⟩
    rw [payloadStart_match hbit, ← Nat.add_assoc, ← hip]
    rfl
  | full | truncated | nextGroup | halfMatch => simp at hstay
  | idle hp => simp [hphase] at hp
  | shortHeader hp | badVersion _ _ hp | tooLong _ hp | header _ hp | control _ hp | close hp | overrun hp | copy hp =>
    cases hphase.symm.trans hp

/-- While a match is copied, a step that stays in the group copies a byte, or closes the match and completes the token
(R186). -/
theorem DecCase.copy_inGroup {s t : State} {a : Nat} {c : Byte} {j : Nat} (h : DecCase s (.next t))
    (hphase : s.dec.phase = .copy) (hlane : s.dec.AtLane c j) (hj : j < 8) (hbit : c.getLsbD j = false)
    (hip : s.dec.ip = a + payloadStart c (j + 1)) (hstay : t.dec.phase = .token ∨ t.dec.phase = .copy) :
    ∃ j', t.dec.InGroup a c j' := by
  cases h with
  | close => exact ⟨j + 1, .token rfl { hlane.ctrlShift hj with } hip⟩
  | copy => exact ⟨j, .copy hphase { hlane with } hj hbit hip⟩
  | overrun => simp at hstay
  | idle hp | full hp | truncated hp => simp [hphase] at hp
  | shortHeader hp | badVersion _ _ hp | tooLong _ hp | header _ hp | control _ hp | nextGroup hp | literal _ hp
  | halfMatch _ hp | matchFetch _ _ hp =>
    cases hphase.symm.trans hp

theorem DecCase.keeps_inGroup {s t : State} {a : Nat} {c : Byte} {j : Nat} (h : DecCase s (.next t))
    (hgroup : s.dec.InGroup a c j) (hstay : t.dec.phase = .token ∨ t.dec.phase = .copy) :
    ∃ j', t.dec.InGroup a c j' := by
  cases hgroup with
  | token hphase hlane hip => exact h.token_inGroup hphase hlane hip hstay
  | copy hphase hlane hj hbit hip => exact h.copy_inGroup hphase hlane hj hbit hip hstay

/-- Where only the decoder moves, the machine's step is the decoder's. -/
theorem State.decoderAlone.step_eq {s : State} (h : s.decoderAlone) : step s = decStep s := by
  obtain ⟨hpending, hturn, hrefused, hidle⟩ := h
  rw [step_dec hpending hturn hrefused, passTurn_alone (hturn ▸ hidle)]

/-- The decoder stays alone after a step of it that reads no header: a header may refuse the call (R162, log entry
7). -/
theorem State.decoderAlone.after {s t : State} (halone : s.decoderAlone) (h : DecCase s (.next t))
    (hphase : s.dec.phase ≠ .hdr) : t.decoderAlone := by
  cases h with
  | tooLong _ hp => exact absurd hp hphase
  | _ => exact halone

/-- From the fetch of a control byte on, while the steps stay in `TOKEN` and `COPY`, the decoder is in its group
(R144). -/
theorem reaches_inGroup {s t : State} {c : Byte} {k : Nat} (halone : s.decoderAlone) (hphase : s.dec.phase = .ctrl)
    (howed : s.dec.op ≠ s.dec.outLen.toNat) (hc : s.dec.inByteAt s.dec.ip = some c)
    (hrun : State.reaches (k + 1) s t)
    (hway : ∀ m u, m ≤ k → State.reaches (m + 1) s u → u.dec.phase = .token ∨ u.dec.phase = .copy) :
    t.decoderAlone ∧ ∃ j, t.dec.InGroup s.dec.ip c j := by
  induction k generalizing t with
  | zero =>
    obtain ⟨u, hu, hstep⟩ := reaches_snoc.1 hrun
    obtain rfl := reaches_zero.1 hu
    rw [halone.step_eq, decStep_ctrl_loaded hphase howed hc] at hstep
    obtain rfl := Host.Outcome.next.inj hstep
    exact ⟨halone, 0, .token rfl (atLane_zero rfl rfl) rfl⟩
  | succ k ih =>
    obtain ⟨u, hu, hstep⟩ := reaches_snoc.1 hrun
    obtain ⟨hualone, j, hgroup⟩ := ih hu fun m v hm => hway m v (Nat.le_succ_of_le hm)
    have hcase : DecCase u (.next t) := hstep ▸ hualone.step_eq ▸ decStep_case u
    have hphase' : u.dec.phase ≠ .hdr := by
      rcases hway k u (Nat.le_succ k) hu with hp | hp <;> simp [hp]
    exact ⟨hualone.after hcase hphase', hcase.keeps_inGroup hgroup (hway (k + 1) t le_rfl hrun)⟩

/-- Settles O38: the registers by iteration of `CTRL_SHIFT`, the machine by the group kept along the run. -/
theorem unpackerSeesLaneByLane : Obligations.UnpackerSeesLaneByLane := by
  refine ⟨fun d c j hctrl hbits hj => ?_, fun s c k t halone hphase howed hc hrun hway => ?_⟩
  · have hlane := iterate_ctrlShift_atLane (atLane_zero hctrl hbits) hj
    exact ⟨hlane.shifted, hlane.flagsLeft, hlane.flag_eq, payloadStart_eq_sum c j⟩
  · obtain ⟨_, j, hgroup⟩ := reaches_inGroup halone hphase howed hc hrun hway
    have hlane := hgroup.atLane
    refine ⟨j, hlane.lane, hlane.shifted, hlane.flagsLeft, hlane.flag_eq, ?_⟩
    cases hgroup with
    | token hp _ hip => exact ⟨fun _ => hip, fun hp' => nomatch hp.symm.trans hp'⟩
    | copy hp _ hj hbit hip => exact ⟨fun hp' => (nomatch hp.symm.trans hp'), fun _ => ⟨hj, hbit, hip⟩⟩

end Sys2Proof.Machine
end

section
/-! PROOFS. The control byte as the encoder packs it (41_control_byte.md R146 to R150) and flushes it at the end of the
input (45_encoder_emit.md R246). -/

namespace Sys2Proof.Machine

open Sys2Proof

/-! ### The packer -/

/-- `ACC_SHIFT_IN` brings the flag in at the top and moves every other bit one down (R146). -/
theorem accShiftIn_getLsbD (e : Enc) (isLit : Bool) (i : Nat) :
    (e.accShiftIn isLit).acc.getLsbD i = if i = 7 then isLit else e.acc.getLsbD (i + 1) := by
  have htop : (0x80#8).getLsbD i = decide (i = 7) := by
    rw [show 0x80#8 = BitVec.twoPow 8 7 from rfl, BitVec.getLsbD_twoPow]
    simp [eq_comm]
  have hshift : (e.acc >>> 1).getLsbD i = e.acc.getLsbD (i + 1) := by
    rw [BitVec.getLsbD_ushiftRight, Nat.add_comm]
  have hpast : e.acc.getLsbD 8 = false := BitVec.getLsbD_of_ge e.acc 8 le_rfl
  by_cases hi : i = 7
  · subst hi
    rw [if_pos rfl]
    cases isLit with
    | false => exact hshift.trans hpast
    | true => rw [Enc.accShiftIn_acc, if_pos rfl, BitVec.getLsbD_or, htop, decide_eq_true rfl, Bool.or_true]
  · rw [if_neg hi]
    cases isLit with
    | false => exact hshift
    | true => rw [Enc.accShiftIn_acc, if_pos rfl, BitVec.getLsbD_or, hshift, htop, decide_eq_false hi, Bool.or_false]

theorem foldl_accShiftIn_concat (e : Enc) (ts : List Bool) (t : Bool) :
    (ts ++ [t]).foldl Enc.accShiftIn e = (ts.foldl Enc.accShiftIn e).accShiftIn t := by
  rw [List.foldl_append, List.foldl_cons, List.foldl_nil]

theorem foldl_accShiftIn_count {e : Enc} (ts : List Bool) (hg : e.g = 0#4) (hlen : ts.length ≤ 8) :
    (ts.foldl Enc.accShiftIn e).g.toNat = ts.length := by
  induction ts using List.reverseRecOn with
  | nil => exact congrArg BitVec.toNat hg
  | append_singleton ts t ih =>
    rw [List.length_append, List.length_singleton] at hlen ⊢
    have hcount := ih (Nat.le_of_succ_le hlen)
    rw [foldl_accShiftIn_concat, accShiftIn_count _ t (hcount.trans_lt hlen), hcount]

/-- The packed flags fill the accumulator up to its top, the last one at bit 7 (R147). -/
theorem foldl_accShiftIn_flag {e : Enc} (ts : List Bool) (hacc : e.acc = 0#8) (hlen : ts.length ≤ 8) (i : Nat) :
    (ts.foldl Enc.accShiftIn e).acc.getLsbD (8 - ts.length + i) = (ts[i]?).getD false := by
  induction ts using List.reverseRecOn with
  | nil => simp [hacc]
  | append_singleton ts t ih =>
    rw [List.length_append, List.length_singleton] at hlen ⊢
    have hmoved : 8 - (ts.length + 1) + i + 1 = 8 - ts.length + i := by omega
    rw [foldl_accShiftIn_concat, accShiftIn_getLsbD, hmoved, ih (Nat.le_of_succ_le hlen)]
    rcases Nat.lt_trichotomy i ts.length with hbefore | rfl | hpast
    · rw [if_neg (by omega), List.getElem?_append_left hbefore]
    · rw [if_pos (by omega), List.getElem?_concat_length, Option.getD_some]
    · rw [if_neg (by omega), List.getElem?_eq_none hpast.le, List.getElem?_eq_none (by simpa using hpast)]

/-- Below the packed flags the accumulator is zero (R147). -/
theorem foldl_accShiftIn_lowZero {e : Enc} (ts : List Bool) (hacc : e.acc = 0#8) {i : Nat} (hi : i < 8 - ts.length) :
    (ts.foldl Enc.accShiftIn e).acc.getLsbD i = false := by
  induction ts using List.reverseRecOn generalizing i with
  | nil => simp [hacc]
  | append_singleton ts t ih =>
    rw [List.length_append, List.length_singleton] at hi
    rw [foldl_accShiftIn_concat, accShiftIn_getLsbD, if_neg (by omega), ih (by omega)]

/-- Settles O39: the bits of the accumulator, read at the three places. -/
theorem packedFlagsComeOutInOrder : Obligations.PackedFlagsComeOutInOrder := by
  intro e ts hacc hg _ hlen
  have hflag := foldl_accShiftIn_flag ts hacc hlen
  refine ⟨foldl_accShiftIn_count ts hg hlen, fun i t ht => ?_, fun i => foldl_accShiftIn_lowZero ts hacc,
    fun i _ => ?_⟩
  · rw [hflag, ht, Option.getD_some]
  · rw [BitVec.getLsbD_ushiftRight, hflag]

/-! ### The final step -/

/-- Settles O46: the two cases of the final close. -/
theorem finalStepFlushesThePartialGroup : Obligations.FinalStepFlushesThePartialGroup := by
  intro s hpending hturn hrefused hphase
  have hrun : encStep s.passTurn = .next (s.passTurn.setEnc s.enc.finalStep) := by
    simp only [encStep, passTurn_enc, hphase]
  have hdone : s.enc.finalStep.phase = .done := rfl
  refine ⟨s.passTurn.setEnc s.enc.finalStep, (step_enc hpending hturn hrefused).trans hrun,
    ⟨passTurn_dec s, passTurn_pending s, passTurn_decRefused s, passTurn_encRefused s, passTurn_cfg s⟩, ?_, ?_⟩
  · simp [State.encResult, passTurn_encRefused, hrefused, hdone]
  · rcases finalStep_cases s.enc with ⟨hg, hfinal⟩ | ⟨hg, hfinal⟩
    · exact ⟨fun _ => hfinal, fun hne => absurd hg hne⟩
    · refine ⟨fun heq => absurd heq hg, fun _ => ?_⟩
      rw [List.append_assoc]
      exact hfinal

end Sys2Proof.Machine
end

section
/-! PROOFS. The header of a frame (42_frame.md): its element as the decoder executes it, the decoder's header step
(R162), and the encoder's (R166). -/

namespace Sys2Proof.Machine

open Sys2Proof

/-! ### The element, executed -/

/-- The version is 1: only the length decides (R162 sub-steps 6, 7). -/
theorem exec_hdr_versionOne (len : Word32) (s : State) : exec (.hdr len 1#32) s =
    if s.cfg.decMaxOut < len then .next (s.refuse .dec (.declaredLengthTooLarge len))
    else .next (s.setDec { s.dec with version := 1#32, outLen := len, ip := headerLength, phase := .ctrl }) := by
  simp only [exec, execHdr, formatVersionOne, if_true]

/-- The length of a header of another version is not looked at (R163). -/
theorem exec_hdr_badVersion {ver : Word32} (len : Word32) (s : State) (hver : ver ≠ 1#32) :
    exec (.hdr len ver) s = rejectHeader ver s :=
  if_neg hver

/-- Settles O12: the length is not above the limit. -/
theorem hdrCompletes : Obligations.HdrCompletes := by
  intro s len haccepted
  have hlimit : ¬ s.cfg.decMaxOut < len := by rwa [BitVec.lt_def, Nat.not_lt]
  exact (exec_hdr_versionOne len s).trans (if_neg hlimit)

/-- Settles O13: the raise writes the record and the phase, and only the decoder. -/
theorem hdrOfAnotherVersionTakesFormatError : Obligations.HdrOfAnotherVersionTakesFormatError := fun s len _ hver =>
  ⟨_, exec_hdr_badVersion len s hver, ⟨rfl, rfl, rfl, rfl, rfl⟩, rfl⟩

/-- Settles O14: the length is above the limit. -/
theorem hdrTooLongIsRefused : Obligations.HdrTooLongIsRefused := by
  intro s len htoo
  have hlimit : s.cfg.decMaxOut < len := BitVec.lt_def.2 htoo
  exact (exec_hdr_versionOne len s).trans (if_pos hlimit)

/-! ### The decoder's header step -/

/-- Where the eight header bytes are there, the header is fetched as the encoding of its two fields (R93, R161). -/
theorem Dec.headerHolds.elementBytes {d : Dec} {len ver : Word32} (h : d.headerHolds len ver) :
    d.elementBytes .header = encode (.hdr len ver) := by
  obtain ⟨b0, b1, b2, b3, b4, b5, b6, b7, h0, h1, h2, h3, h4, h5, h6, h7, rfl, rfl⟩ := h
  simp only [Dec.elementBytes, Dec.bytesAt, Nat.zero_add, Nat.reduceAdd, h0, h1, h2, h3, h4, h5, h6, h7, encode,
    be32Bytes_be32, List.cons_append, List.nil_append]

/-- With eight bytes there the header step executes the header, a header of another version included: the fetch
rejects that one as its execution does (R162 sub-steps 2 to 7, R163). -/
theorem decStep_hdr {s : State} {len ver : Word32} (hphase : s.dec.phase = .hdr) (h : s.dec.headerHolds len ver) :
    decStep s = exec (.hdr len ver) s := by
  have hawaits : s.dec.awaits .header := hphase
  have hdecode := decode_encode_hdr len ver []
  rw [List.append_nil, ← h.elementBytes] at hdecode
  rw [decStep_of_awaits hawaits]
  by_cases hver : ver = 1#32
  · rw [if_pos hver] at hdecode
    rw [fetch_of_decode hdecode]
    rfl
  · rw [if_neg hver] at hdecode
    rw [exec_hdr_badVersion len s hver]
    simp only [fetch, hdecode, DecMove.perform]

theorem decStep_hdr_short {s : State} (hphase : s.dec.phase = .hdr) (hshort : s.dec.inLen < headerLength) :
    decStep s = .next (s.setDec (s.dec.raise .truncatedStream)) := by
  have hawaits : s.dec.awaits .header := hphase
  rcases fetch_header s with ⟨_, hfetch⟩ | ⟨_, _, _, _, _, _, _, _, hlong, _⟩
  · rw [decStep_of_awaits hawaits, hfetch]
    rfl
  · exact absurd hshort (Nat.not_lt.2 hlong)

/-- Passing the turn writes the turn and nothing else (log entry 1). -/
theorem passTurn_eq_turn (s : State) : s.passTurn = { s with turn := s.passTurn.turn } := by
  unfold State.passTurn
  split <;> rfl

/-- The decoder's frame leaves the turn open, so the passing of the turn is within it. -/
theorem onlyDec_passTurn {s t : State} : s.passTurn.onlyDec t ↔ s.onlyDec t := by
  simp only [State.onlyDec, passTurn_enc, passTurn_pending, passTurn_decRefused, passTurn_encRefused, passTurn_cfg]

/-- Settles O19: the short frame by its step equation, the other three outcomes by the execution of the header
(O12 to O14). -/
theorem headerStepFollowsHdrRead : Obligations.HeaderStepFollowsHdrRead := by
  intro s hpending hturn hrefused hphase hip hop
  have hphase' : s.passTurn.dec.phase = .hdr := (passTurn_dec s).symm ▸ hphase
  refine ⟨fun hshort => ?_, fun b0 b1 b2 b3 b4 b5 b6 b7 h0 h1 h2 h3 h4 h5 h6 h7 => ?_⟩
  · have hrun := decStep_hdr_short hphase' ((passTurn_dec s).symm ▸ hshort)
    rw [passTurn_dec] at hrun
    obtain ⟨t, hstep, hframe, hdec⟩ := step_onlyDec hpending hturn hrefused hrun
    refine ⟨t, hstep, hframe, ?_⟩
    rw [hdec]
    exact ⟨rfl, hip, hop⟩
  · have hheld : s.dec.headerHolds (be32 b0 b1 b2 b3) (be32 b4 b5 b6 b7) :=
      ⟨b0, b1, b2, b3, b4, b5, b6, b7, h0, h1, h2, h3, h4, h5, h6, h7, rfl, rfl⟩
    have hstep : step s = exec (.hdr (be32 b0 b1 b2 b3) (be32 b4 b5 b6 b7)) s.passTurn :=
      (step_dec hpending hturn hrefused).trans (decStep_hdr hphase' ((passTurn_dec s).symm ▸ hheld))
    refine ⟨fun hver => ?_, fun hver htoo => ?_, fun hver haccepted => ?_⟩
    · obtain ⟨t, hexec, hframe, hfault⟩ := hdrOfAnotherVersionTakesFormatError s.passTurn (be32 b0 b1 b2 b3) _ hver
      exact ⟨t, hstep.trans hexec, onlyDec_passTurn.1 hframe, passTurn_dec s ▸ hfault⟩
    · rw [hver, hdrTooLongIsRefused s.passTurn _ ((passTurn_cfg s).symm ▸ htoo)] at hstep
      exact ⟨_, hstep, congrArg (State.refuse · .dec (.declaredLengthTooLarge _)) (passTurn_eq_turn s)⟩
    · rw [hver, hdrCompletes s.passTurn _ ((passTurn_cfg s).symm ▸ haccepted)] at hstep
      exact ⟨_, hstep, onlyDec_passTurn.1 ⟨rfl, rfl, rfl, rfl, rfl⟩, by rw [passTurn_dec]⟩

/-! ### The encoder's header step -/

/-- At the encoder's turn, an encoder's step that only writes the encoder is the step of the machine (R10, log entry
1). -/
theorem step_onlyEnc {s : State} {e : Enc} (hpending : s.pending = []) (hturn : s.turn = .enc)
    (hrefused : s.encRefused = none) (h : encStep s.passTurn = .next (s.passTurn.setEnc e)) :
    ∃ t, step s = .next t ∧ s.onlyEnc t ∧ t.enc = e :=
  ⟨s.passTurn.setEnc e, (step_enc hpending hturn hrefused).trans h,
    ⟨passTurn_dec s, passTurn_pending s, passTurn_decRefused s, passTurn_encRefused s, passTurn_cfg s⟩, rfl⟩

theorem encStep_hdr {s : State} (hphase : s.enc.phase = .hdr) : encStep s = .next (s.setEnc s.enc.writeHeader) := by
  simp only [encStep, hphase]

/-- Settles O40: the bytes of `N` read back as `N`, and those of version 1 are the constant. -/
theorem encoderHeaderStepFollowsHdrWrite : Obligations.EncoderHeaderStepFollowsHdrWrite := by
  intro s hpending hturn hrefused hphase
  have hrun := encStep_hdr ((passTurn_enc s).symm ▸ hphase)
  rw [passTurn_enc] at hrun
  obtain ⟨t, hstep, hframe, henc⟩ := step_onlyEnc hpending hturn hrefused hrun
  exact ⟨t, _, _, _, _, hstep, hframe, be32_be32Bytes s.enc.inLen, henc⟩

end Sys2Proof.Machine
end

section
/-! PROOFS. The tokens as the decoder executes them (43_decoder_tokens.md R181 to R186): the elements `LIT` and
`MATCH`, and one equation for each outcome of a step in the phases `TOKEN` and `COPY`. -/

namespace Sys2Proof.Machine

open Sys2Proof

/-! ### The offset bias (R185) -/

theorem readPosition_eq_add (raw : Addr10) : readPosition raw = raw + 66#10 := by
  apply BitVec.eq_of_toNat_eq
  rw [readPosition_toNat, BitVec.toNat_add]
  rfl

/-- Settles O9: the bias is an addition modulo 1024, which a subtraction undoes. -/
theorem readPositionIsTheBiasedOffset : Obligations.ReadPositionIsTheBiasedOffset := by
  refine ⟨fun raw => ⟨readPosition_toNat raw, fun hlow => ?_, fun hhigh => ?_⟩, fun r r' h => ?_,
    fun rp => ⟨rp - 66#10, ?_⟩⟩
  · rw [readPosition_toNat, Nat.mod_eq_of_lt (by simp only [offsetBias, windowSize]; omega)]
  · have hlt := raw.isLt
    rw [readPosition_toNat]
    simp only [offsetBias, windowSize]
    omega
  · simpa only [readPosition_eq_add, BitVec.add_left_inj] using h
  · rw [readPosition_eq_add, BitVec.sub_add_cancel]

/-! ### The elements, executed -/

theorem exec_lit {s : State} (v : Byte) (hroom : s.dec.op < s.dec.outLen.toNat) :
    exec (.lit v) s = .next (s.setDec ((s.dec.advance 1).produced v).ctrlShift) := by
  rcases produce_spec (s.dec.advance 1) v with ⟨_, hproduced⟩ | ⟨hpast, _⟩
  · simp only [exec, execLit, hproduced]
  · exact absurd hroom (Nat.not_lt.2 hpast)

/-- Settles O16: the byte is produced, and the flag consumed. -/
theorem litCompletes : Obligations.LitCompletes := fun s v hout hwin hroom =>
  ⟨_, exec_lit v hroom, rfl, inc10_toNat s.dec.wp, fun a => produced_outByte (s.dec.advance 1) v a hout,
    fun a => produced_winRead (s.dec.advance 1) v a hwin⟩

/-- Settles O18: the fields do not overlap, so their concatenations weigh them. -/
theorem matchCompletes : Obligations.MatchCompletes := by
  intro s offLo offHi lencode
  refine ⟨_, rfl, rfl, ?_, ?_, matchLength_toNat lencode⟩
  · exact (congrArg BitVec.toNat (matchSecondByte_eq_append offHi lencode)).trans (toNat_append_eq_add _ _)
  · have hoffset : (rawOffset offLo offHi).toNat = offHi.toNat * 256 + offLo.toNat := by
      rw [rawOffset_eq_append]
      exact toNat_append_eq_add _ _
    exact (readPosition_toNat _).trans (by rw [hoffset])

/-- The decoder after the fetch of a match of the bytes `b1`, `b2` (R184). -/
def Dec.matchLoaded (d : Dec) (b1 b2 : Byte) : Dec :=
  { d.advance 2 with
      b1 := b1, b2 := b2, rp := readPosition (rawOffset b1 (b2.extractLsb' 6 2)),
      cnt := matchLength (b2.extractLsb' 0 6), phase := .copy }

theorem exec_matchTok (b1 b2 : Byte) (s : State) :
    exec (.matchTok b1 (b2.extractLsb' 6 2) (b2.extractLsb' 0 6)) s = .next (s.setDec (s.dec.matchLoaded b1 b2)) := by
  simp only [exec, execMatch, matchSecondByte_extract]
  rfl

/-! ### The steps of phase `TOKEN` -/

theorem decStep_token_full {s : State} (hphase : s.dec.phase = .token) (hfull : s.dec.op = s.dec.outLen.toNat) :
    decStep s = .next (s.setDec s.dec.finish) := by
  simp only [decStep, decMove, hphase, tokenMove, if_pos hfull, DecMove.perform]

theorem decStep_token_nextGroup {s : State} (hphase : s.dec.phase = .token) (howed : s.dec.op ≠ s.dec.outLen.toNat)
    (hbits : s.dec.bits = 0#4) : decStep s = .next (s.setDec { s.dec with phase := .ctrl }) := by
  simp only [decStep, decMove, hphase, tokenMove, if_neg howed, if_pos hbits, DecMove.perform]

/-- Both kinds of token fail alike where no byte is left (R182, R184). -/
theorem decStep_token_truncated {s : State} {literal : Bool} (hawaits : s.dec.awaits (.token literal))
    (hend : s.dec.inLen ≤ s.dec.ip) : decStep s = .next (s.setDec (s.dec.raise .truncatedStream)) := by
  rw [decStep_of_awaits hawaits]
  cases literal with
  | true =>
    rcases fetch_literal s with ⟨_, hfetch⟩ | ⟨_, hinside, _⟩
    · rw [hfetch]
      rfl
    · omega
  | false =>
    rcases fetch_match s with ⟨_, hfetch⟩ | ⟨_, hlast, _⟩ | ⟨_, _, hinside, _⟩
    · rw [hfetch]
      rfl
    · omega
    · omega

theorem bytesAt_succ {d : Dec} {a k : Nat} {v : Byte} (h : d.inByteAt a = some v) :
    d.bytesAt a (k + 1) = v :: d.bytesAt (a + 1) k := by
  simp only [Dec.bytesAt, h]

theorem decStep_literal {s : State} {v : Byte} (hawaits : s.dec.awaits (.token true))
    (hv : s.dec.inByteAt s.dec.ip = some v) : decStep s = exec (.lit v) s := by
  have hbytes : s.dec.elementBytes (.token true) = [v] :=
    (elementBytes_eq_bytesAt s.dec (.token true)).trans (bytesAt_succ hv)
  have hdecode : decode (.token true) (s.dec.elementBytes (.token true)) = .ok (.lit v, []) := by rw [hbytes]; rfl
  rw [decStep_of_awaits hawaits, fetch_of_decode hdecode]
  rfl

/-- With `b1` alone there, it is loaded and the cursor is past it when the fault is taken (R184). -/
theorem decStep_halfMatch {s : State} {b1 : Byte} (hawaits : s.dec.awaits (.token false))
    (h1 : s.dec.inByteAt s.dec.ip = some b1) (hend : s.dec.inLen ≤ s.dec.ip + 1) :
    decStep s = .next (s.setDec (Dec.raise .truncatedStream { s.dec.advance 1 with b1 := b1 })) := by
  have hinside := (inByteAt_isSome s.dec s.dec.ip).1 (by simp [h1])
  rw [decStep_of_awaits hawaits]
  rcases fetch_match s with ⟨hnone, _⟩ | ⟨b, _, hb, hfetch⟩ | ⟨_, _, hboth, _⟩
  · omega
  · obtain rfl := Option.some.inj (hb.symm.trans h1)
    rw [hfetch]
    rfl
  · omega

theorem decStep_match {s : State} {b1 b2 : Byte} (hawaits : s.dec.awaits (.token false))
    (h1 : s.dec.inByteAt s.dec.ip = some b1) (h2 : s.dec.inByteAt (s.dec.ip + 1) = some b2) :
    decStep s = exec (.matchTok b1 (b2.extractLsb' 6 2) (b2.extractLsb' 0 6)) s := by
  have hbytes : s.dec.elementBytes (.token false) = [b1, b2] :=
    (elementBytes_eq_bytesAt s.dec (.token false)).trans ((bytesAt_succ h1).trans (congrArg _ (bytesAt_succ h2)))
  have hdecode : decode (.token false) (s.dec.elementBytes (.token false)) =
      .ok (.matchTok b1 (b2.extractLsb' 6 2) (b2.extractLsb' 0 6), []) := by rw [hbytes]; rfl
  rw [decStep_of_awaits hawaits, fetch_of_decode hdecode]
  rfl

/-- Settles O21: a step equation for each test of the dispatch, in order. -/
theorem tokenDispatchFollowsTheFlag : Obligations.TokenDispatchFollowsTheFlag := by
  intro s hpending hturn hrefused hphase
  rw [← passTurn_dec s] at hphase ⊢
  refine ⟨fun hfull => ?_, fun howed hbits => ?_, fun v howed hbits hflag hv => ?_,
    fun b1 b2 howed hbits hflag h1 h2 => ⟨_, _, rfl, ?_⟩⟩
  · exact step_onlyDec hpending hturn hrefused (decStep_token_full hphase hfull)
  · exact step_onlyDec hpending hturn hrefused (decStep_token_nextGroup hphase howed hbits)
  · exact (step_dec hpending hturn hrefused).trans (decStep_literal ⟨hphase, howed, hbits, hflag⟩ hv)
  · exact (step_dec hpending hturn hrefused).trans (decStep_match ⟨hphase, howed, hbits, hflag⟩ h1 h2)

/-- Settles O22: the step is the execution of the literal (O16), or the fault of the fetch. -/
theorem literalStepFollowsLit : Obligations.LiteralStepFollowsLit := by
  intro s hpending hturn hrefused hphase hbits hflag hroom hout hwin
  have hawaits : s.dec.awaits (.token true) := ⟨hphase, hroom.ne, hbits, hflag⟩
  rw [← passTurn_dec s] at hawaits hroom hout hwin ⊢
  refine ⟨fun hend => ?_, fun v hv => ?_⟩
  · obtain ⟨t, hstep, hframe, hdec⟩ :=
      step_onlyDec hpending hturn hrefused (decStep_token_truncated hawaits hend)
    exact ⟨t, hstep, hframe, hdec ▸ rfl⟩
  · obtain ⟨t, hexec, hnext, heffect⟩ := litCompletes s.passTurn v hout hwin hroom
    have hstep := (step_dec hpending hturn hrefused).trans ((decStep_literal hawaits hv).trans hexec)
    have hframe : s.passTurn.onlyDec t := hnext ▸ ⟨rfl, rfl, rfl, rfl, rfl⟩
    exact ⟨t, hstep, onlyDec_passTurn.1 hframe, congrArg State.dec hnext, heffect⟩

/-- Settles O23: a step equation for each of the three outcomes, and R97's formulas for the fields loaded. -/
theorem matchFetchStepIsPrecise : Obligations.MatchFetchStepIsPrecise := by
  intro s hpending hturn hrefused hphase hbits hflag howed
  have hawaits : s.dec.awaits (.token false) := ⟨hphase, howed, hbits, hflag⟩
  rw [← passTurn_dec s] at hawaits ⊢
  refine ⟨fun hend => ?_, fun b1 h1 hend => ?_, fun b1 b2 h1 h2 => ?_⟩
  · obtain ⟨t, hstep, hframe, hdec⟩ :=
      step_onlyDec hpending hturn hrefused (decStep_token_truncated hawaits hend)
    exact ⟨t, hstep, hframe, hdec ▸ rfl⟩
  · have hinside := (inByteAt_isSome s.passTurn.dec s.passTurn.dec.ip).1 (by simp [h1])
    have hlast : s.passTurn.dec.ip + 1 = s.passTurn.dec.inLen := Nat.le_antisymm hinside hend
    obtain ⟨t, hstep, hframe, hdec⟩ := step_onlyDec hpending hturn hrefused (decStep_halfMatch hawaits h1 hend)
    exact ⟨t, hstep, hframe, hdec ▸ rfl, hdec ▸ hlast⟩
  · obtain ⟨t, hstep, hframe, hdec⟩ :=
      step_onlyDec hpending hturn hrefused ((decStep_match hawaits h1 h2).trans (exec_matchTok b1 b2 s.passTurn))
    refine ⟨t, hstep, hframe, ?_⟩
    rw [hdec, ← rawOffset_of_bytes, and_lencodeMask]
    exact ⟨rfl, readPosition_toNat _, matchLength_toNat _⟩

/-! ### The steps of phase `COPY` -/

/-- The decoder after copying one byte (R186 sub-steps 1 to 6). -/
def Dec.copied (d : Dec) : Dec :=
  { d.produced (d.winRead d.rp.toNat) with rp := inc10 d.rp, cnt := d.cnt - 1#7 }

theorem decStep_copy_close {s : State} (hphase : s.dec.phase = .copy) (hcnt : s.dec.cnt = 0#7) :
    decStep s = .next (s.setDec { s.dec.ctrlShift with phase := .token }) := by
  simp only [decStep, decMove, hphase, DecMove.perform, copyStep, if_pos hcnt]

theorem decStep_copy_overrun {s : State} (hphase : s.dec.phase = .copy) (hcnt : s.dec.cnt ≠ 0#7)
    (hfull : s.dec.op = s.dec.outLen.toNat) : decStep s = .next (s.setDec (s.dec.raise .outputOverrun)) := by
  simp only [decStep, decMove, hphase, DecMove.perform, copyStep, if_neg hcnt, if_pos hfull]

theorem decStep_copy_byte {s : State} (hphase : s.dec.phase = .copy) (hcnt : s.dec.cnt ≠ 0#7)
    (hroom : s.dec.op < s.dec.outLen.toNat) : decStep s = .next (s.setDec s.dec.copied) := by
  rcases produce_spec s.dec (s.dec.winRead s.dec.rp.toNat) with ⟨_, hproduced⟩ | ⟨hpast, _⟩
  · simp only [decStep, decMove, hphase, DecMove.perform, copyStep, if_neg hcnt, if_neg hroom.ne, hproduced]
    rfl
  · exact absurd hroom (Nat.not_lt.2 hpast)

/-- Settles O24: a step equation for each of the three branches; the byte is read before it is written (R73). -/
theorem copyStepFollowsCopy : Obligations.CopyStepFollowsCopy := by
  intro s hpending hturn hrefused hphase hout hwin
  rw [← passTurn_dec s] at hphase hout hwin ⊢
  refine ⟨fun hcnt => ?_, fun hcnt hfull => ?_, fun hcnt hroom => ?_⟩
  · exact step_onlyDec hpending hturn hrefused (decStep_copy_close hphase hcnt)
  · obtain ⟨t, hstep, hframe, hdec⟩ :=
      step_onlyDec hpending hturn hrefused (decStep_copy_overrun hphase hcnt hfull)
    exact ⟨t, hstep, hframe, hdec ▸ rfl⟩
  · obtain ⟨t, hstep, hframe, hdec⟩ := step_onlyDec hpending hturn hrefused (decStep_copy_byte hphase hcnt hroom)
    refine ⟨t, hstep, hframe, ?_⟩
    rw [hdec]
    exact ⟨rfl, inc10_toNat _, inc10_toNat _, fun a => produced_outByte _ _ a hout,
      fun a => produced_winRead _ _ a hwin⟩

end Sys2Proof.Machine
end

section
/-! PROOFS. The closed form of a whole match (43_decoder_tokens.md R187). -/

namespace Sys2Proof.Machine

open Sys2Proof

/-- A counter that is not 0 counts down by one (R27, R28, R201). -/
theorem toNat_sub_one {w n : Nat} {x : BitVec w} (hx : x.toNat = n + 1) : (x - 1#w).toNat = n := by
  have hlt := x.isLt
  have hone : (1#w).toNat = 1 := (BitVec.toNat_ofNat 1 w).trans (Nat.mod_eq_of_lt (by omega))
  have hle : 1#w ≤ x := BitVec.le_def.2 (by omega)
  rw [BitVec.toNat_sub_of_le hle]
  omega

/-- A run and a run from its end are one run. -/
theorem reaches_trans {j k : Nat} {s t u : State} (hj : State.reaches j s t) (hk : State.reaches k t u) :
    State.reaches (j + k) s u := by
  induction k generalizing u with
  | zero => exact reaches_zero.1 hk ▸ hj
  | succ k ih =>
    obtain ⟨v, hv, hstep⟩ := reaches_snoc.1 hk
    exact reaches_snoc.2 ⟨v, ih hv, hstep⟩

/-- The distance is one of 1..1024, and leads from the read position to the write cursor (R127, R187). -/
theorem windowDistance_spec (wp rp : Addr10) :
    1 ≤ windowDistance wp rp ∧ windowDistance wp rp ≤ windowSize ∧
      (rp.toNat + windowDistance wp rp) % windowSize = wp.toNat := by
  have hrp := rp.isLt
  have hwp := wp.isLt
  unfold windowDistance
  simp only [windowSize] at *
  split
  · next heq =>
    subst heq
    omega
  · next hne =>
    have hne' : wp.toNat ≠ rp.toNat := BitVec.toNat_ne.1 hne
    rw [BitVec.toNat_sub]
    omega

/-- A decoder copying a match of distance `dist`: the bytes from the read position up to the write cursor are those of
`source`, which repeats with period `dist`. -/
structure Dec.CopiesFrom (d : Dec) (dist : Nat) (source : Nat → Byte) : Prop where
  phase : d.phase = .copy
  outputForm : Memory.wf .output d.output
  windowForm : Memory.wf .window d.window
  distInside : 1 ≤ dist ∧ dist ≤ windowSize
  behind : (d.rp.toNat + dist) % windowSize = d.wp.toNat
  periodic : ∀ k, source (k + dist) = source k
  ahead : ∀ k, k < dist → d.winRead (d.rp.toNat + k) = source k

/-- At the start of the copying the source is what stands in the window, repeated (R187). -/
theorem copiesFrom_window {d : Dec} (hphase : d.phase = .copy) (hout : Memory.wf .output d.output)
    (hwin : Memory.wf .window d.window) : d.CopiesFrom (windowDistance d.wp d.rp)
      (fun k => d.winRead (d.rp.toNat + k % windowDistance d.wp d.rp)) := by
  obtain ⟨hpos, hle, hbehind⟩ := windowDistance_spec d.wp d.rp
  exact ⟨hphase, hout, hwin, ⟨hpos, hle⟩, hbehind, fun k => by simp only [Nat.add_mod_right],
    fun k hk => by simp only [Nat.mod_eq_of_lt hk]⟩

/-- The next byte copied is the source's first. -/
theorem Dec.CopiesFrom.next_byte {d : Dec} {dist : Nat} {source : Nat → Byte} (h : d.CopiesFrom dist source) :
    d.winRead d.rp.toNat = source 0 :=
  h.ahead 0 h.distInside.1

/-- A copied byte moves the read position one on in the source: the byte that comes into reach at the far end is the
one just copied, which is the source's there by its period. -/
theorem Dec.CopiesFrom.copied {d : Dec} {dist : Nat} {source : Nat → Byte} (h : d.CopiesFrom dist source) :
    d.copied.CopiesFrom dist (fun k => source (k + 1)) where
  phase := h.phase
  outputForm := memWrite_wf _ _ h.outputForm
  windowForm := memWrite_wf _ _ h.windowForm
  distInside := h.distInside
  behind := by
    show ((inc10 d.rp).toNat + dist) % windowSize = (inc10 d.wp).toNat
    rw [inc10_toNat, inc10_toNat, ← h.behind, Nat.mod_add_mod, Nat.mod_add_mod, Nat.add_right_comm]
  periodic k := (congrArg source (Nat.add_right_comm k dist 1)).trans (h.periodic (k + 1))
  ahead k hk := by
    obtain ⟨_, hle⟩ := h.distInside
    have haddress : (d.copied.rp.toNat + k) % windowSize = (d.rp.toNat + (k + 1)) % windowSize := by
      show ((inc10 d.rp).toNat + k) % windowSize = _
      rw [inc10_toNat, Nat.mod_add_mod, Nat.add_assoc, Nat.add_comm 1 k]
    rw [winRead_congr _ haddress]
    refine (produced_winRead d (d.winRead d.rp.toNat) _ h.windowForm).trans ?_
    rw [← h.behind, h.next_byte]
    rcases Nat.lt_or_ge (k + 1) dist with hinside | hend
    · have hother : (d.rp.toNat + (k + 1)) % windowSize ≠ (d.rp.toNat + dist) % windowSize := by
        simp only [windowSize] at *
        omega
      rw [if_neg hother]
      exact h.ahead (k + 1) hinside
    · obtain rfl : dist = k + 1 := by omega
      have hperiod := h.periodic 0
      rw [Nat.zero_add] at hperiod
      rw [if_pos rfl, hperiod]

/-- `OUT` after a copied byte: the source's first byte at `op`, all else as before. -/
theorem Dec.CopiesFrom.copied_outByte {d : Dec} {dist : Nat} {source : Nat → Byte} (h : d.CopiesFrom dist source)
    (a : Nat) : d.copied.outByte a = if a = d.op then some (source 0) else d.outByte a := by
  rw [← h.next_byte]
  exact produced_outByte d _ a h.outputForm

/-- `t` is `s` after `n` copied bytes of `source`, the match complete. -/
structure State.CopiedTo (s t : State) (n : Nat) (source : Nat → Byte) : Prop where
  phase : t.dec.phase = .copy
  cnt : t.dec.cnt = 0#7
  op : t.dec.op = s.dec.op + n
  ip : t.dec.ip = s.dec.ip
  bytes : ∀ k, k < n → t.dec.outByte (s.dec.op + k) = some (source k)
  earlier : ∀ a, a < s.dec.op → t.dec.outByte a = s.dec.outByte a

/-- The copying of all bytes left, by induction on their number: the source is read off byte by byte. -/
theorem reaches_copiedTo {n dist : Nat} {s : State} {source : Nat → Byte} (halone : s.decoderAlone)
    (h : s.dec.CopiesFrom dist source) (hcnt : s.dec.cnt.toNat = n) (hroom : s.dec.op + n ≤ s.dec.outLen.toNat) :
    ∃ t, State.reaches n s t ∧ s.CopiedTo t n source := by
  induction n generalizing s source with
  | zero =>
    exact ⟨s, reaches_zero.2 rfl, h.phase, BitVec.eq_of_toNat_eq hcnt, rfl, rfl, nofun, fun _ _ => rfl⟩
  | succ n ih =>
    have hopen : s.dec.cnt ≠ 0#7 := BitVec.toNat_ne.2 (by rw [hcnt]; exact Nat.succ_ne_zero n)
    have hstep : step s = .next (s.setDec s.dec.copied) :=
      halone.step_eq.trans (decStep_copy_byte h.phase hopen (by omega))
    have hroom' : s.dec.op + 1 + n ≤ s.dec.outLen.toNat := by omega
    obtain ⟨t, hrun, hdone⟩ := ih (s := s.setDec s.dec.copied) halone h.copied (toNat_sub_one hcnt) hroom'
    obtain ⟨hphase, hzero, hop, hip, hbytes, hearlier⟩ := hdone
    have hop' : (s.setDec s.dec.copied).dec.op = s.dec.op + 1 := rfl
    rw [hop'] at hop hbytes hearlier
    refine ⟨t, reaches_succ.2 ⟨_, hstep, hrun⟩, hphase, hzero, by omega, hip, fun k hk => ?_, fun a ha => ?_⟩
    · cases k with
      | zero => exact (hearlier _ (by omega)).trans ((h.copied_outByte _).trans (if_pos rfl))
      | succ k =>
        rw [show s.dec.op + (k + 1) = s.dec.op + 1 + k by omega]
        exact hbytes k (Nat.lt_of_succ_lt_succ hk)
    · exact (hearlier a (by omega)).trans ((h.copied_outByte a).trans (if_neg ha.ne))

/-- Settles O25: the source of the copying is the window before it, read with the distance as its period. -/
theorem matchCopiesWithPeriodTheDistance : Obligations.MatchCopiesWithPeriodTheDistance := by
  intro s halone hphase hout hwin hroom
  obtain ⟨t, hrun, hdone⟩ := reaches_copiedTo halone (copiesFrom_window hphase hout hwin) rfl hroom
  exact ⟨t, hrun, hdone.phase, hdone.cnt, hdone.op, hdone.ip, hdone.bytes, hdone.earlier⟩

end Sys2Proof.Machine
end

section
/-! PROOFS. Every decode call ends (43_decoder_tokens.md R191): the decoder's steps use up the input and the match in
progress, and the encoder's turns do not hold it up. -/

namespace Sys2Proof.Machine

open Sys2Proof

/-- The call has ended: `DONE`, `FAULT`, or the declared length refused (R162, R165, R264). -/
def State.decodeEnded (s : State) : Prop :=
  s.dec.phase = .done ∨ s.dec.phase = .fault ∨ ∃ len, s.decRefused = some (.declaredLengthTooLarge len)

/-- The call is going on: no command waits, the decoder is BUSY, and its call is not refused. -/
structure State.Decoding (s : State) : Prop where
  ok : s.Ok
  noCommand : s.pending = []
  accepted : s.decRefused = none
  busy : s.busy .dec = true

/-- A bound on the steps the decoder still has to take: the input left, each byte of it weighing more than a whole
match, and the steps of the phase. -/
def Dec.stepsLeft (d : Dec) : Nat :=
  match d.phase with
  | .hdr => 130 * d.inLen
  | .ctrl => 130 * (d.inLen - d.ip)
  | .token => 130 * (d.inLen - d.ip) + 1
  | .copy => 130 * (d.inLen - d.ip) + 2 + d.cnt.toNat
  | .idle => 0
  | .done => 0
  | .fault => 0

/-- A step of a BUSY decoder ends the call, or leaves it BUSY with fewer steps to take. -/
theorem DecCase.ends_or_descends {s t : State} (h : DecCase s (.next t)) (hbusy : s.busy .dec = true) :
    t.decodeEnded ∨ (t.busy .dec = true ∧ t.decRefused = s.decRefused ∧ t.dec.stepsLeft < s.dec.stepsLeft) := by
  cases h with
  | idle hp => rcases hp with hp | hp | hp <;> simp [State.busy, Dec.callState, hp] at hbusy
  | full => exact .inl (.inl rfl)
  | shortHeader | badVersion | truncated | halfMatch | overrun => exact .inl (.inr (.inl rfl))
  | tooLong len => exact .inl (.inr (.inr ⟨len, rfl⟩))
  | header len hp hlen =>
    refine .inr ⟨rfl, rfl, ?_⟩
    simp only [Dec.stepsLeft, State.setDec_dec, hp, headerLength] at *
    omega
  | control c hp _ hip =>
    refine .inr ⟨rfl, rfl, ?_⟩
    simp only [Dec.stepsLeft, State.setDec_dec, hp, Dec.advance_inLen, Dec.advance_ip]
    omega
  | nextGroup hp =>
    refine .inr ⟨rfl, rfl, ?_⟩
    simp only [Dec.stepsLeft, State.setDec_dec, hp]
    omega
  | literal v hp _ _ _ hip =>
    have hphase : ((s.dec.advance 1).produced v).ctrlShift.phase = .token := hp
    refine .inr ⟨by simp [State.busy, Dec.callState, hp], rfl, ?_⟩
    simp only [Dec.stepsLeft, State.setDec_dec, hphase, hp, Dec.ctrlShift_inLen, Dec.produced_inLen,
      Dec.advance_inLen, Dec.ctrlShift_ip, Dec.produced_ip, Dec.advance_ip]
    omega
  | matchFetch b1 b2 hp _ _ _ hip =>
    refine .inr ⟨rfl, rfl, ?_⟩
    have hcnt := (matchLength (b2.extractLsb' 0 6)).isLt
    simp only [Dec.stepsLeft, State.setDec_dec, hp, Dec.advance_inLen, Dec.advance_ip]
    omega
  | close hp =>
    refine .inr ⟨rfl, rfl, ?_⟩
    simp only [Dec.stepsLeft, State.setDec_dec, hp, Dec.ctrlShift_inLen, Dec.ctrlShift_ip]
    omega
  | copy hp hcnt =>
    refine .inr ⟨by simp [State.busy, Dec.callState, hp], rfl, ?_⟩
    obtain ⟨n, hn⟩ := Nat.exists_eq_succ_of_ne_zero (BitVec.toNat_ne.1 hcnt)
    have hfewer := toNat_sub_one hn
    simp only [Dec.stepsLeft, State.setDec_dec, hp, Dec.produced_phase, Dec.produced_inLen, Dec.produced_ip]
    omega

/-- The machine's steps still to come: between two of the decoder there is at most one turn of the encoder. -/
def State.stepsLeft (s : State) : Nat :=
  2 * s.dec.stepsLeft + (match s.turn with | .dec => 0 | .enc => 1)

theorem step_keeps_noCommand {s t : State} (hp : s.pending = []) (h : step s = .next t) : t.pending = [] := by
  have hpass : s.passTurn.pending = [] := (passTurn_pending s).trans hp
  rcases step_next_cases hp h with ⟨_, hd⟩ | ⟨_, he⟩ | rfl
  · rcases hd.next_frame with ⟨d, rfl⟩ | ⟨r, rfl⟩ <;> exact hpass
  · obtain ⟨e, rfl⟩ := he.next_frame
    exact hpass
  · exact hpass

/-- At the encoder's turn, whatever the encoder does, the turn goes to a decoder that has a step to take (log entries
1, 7). -/
theorem step_gives_turn {s t : State} (hp : s.pending = []) (hturn : s.turn = .enc) (hmoves : s.moves .dec = true)
    (h : step s = .next t) : t.turn = .dec := by
  have hpass : s.passTurn.turn = .dec := by rw [passTurn_passes (by rwa [hturn]), hturn]; rfl
  rcases step_next_cases hp h with ⟨hd, _⟩ | ⟨_, he⟩ | rfl
  · simp [hturn] at hd
  · obtain ⟨e, rfl⟩ := he.next_frame
    exact hpass
  · exact hpass

/-- A step of the machine ends the call, or leaves it going on with fewer steps to take. -/
theorem State.Decoding.progress {s : State} (h : s.Decoding) :
    ∃ t, step s = .next t ∧ (t.decodeEnded ∨ (t.Decoding ∧ t.stepsLeft < s.stepsLeft)) := by
  have hmoves : s.moves .dec = true := by simp [State.moves, h.busy, State.refusal, h.accepted]
  obtain ⟨t, hstep⟩ := h.ok.exists_next (.inr (.inl hmoves))
  have hok : t.Ok := everyStepKeepsTheStateGood s t h.ok hstep
  have hpending : t.pending = [] := step_keeps_noCommand h.noCommand hstep
  refine ⟨t, hstep, ?_⟩
  cases hturn : s.turn with
  | dec =>
    have hcase : DecCase s.passTurn (.next t) :=
      hstep ▸ step_dec h.noCommand hturn h.accepted ▸ decStep_case s.passTurn
    rcases hcase.ends_or_descends ((passTurn_busy s .dec).trans h.busy) with hended | ⟨hbusy, hrefused, hless⟩
    · exact .inl hended
    · rw [passTurn_decRefused] at hrefused
      rw [passTurn_dec] at hless
      refine .inr ⟨⟨hok, hpending, hrefused.trans h.accepted, hbusy⟩, ?_⟩
      cases ht : t.turn <;> simp only [State.stepsLeft, hturn, ht] <;> omega
  | enc =>
    obtain ⟨hdec, hrefused⟩ := step_keeps_dec h.noCommand hturn hstep
    have hgiven : t.turn = .dec := step_gives_turn h.noCommand hturn hmoves hstep
    have hbusy : t.busy .dec = true := by simpa only [State.busy, hdec] using h.busy
    refine .inr ⟨⟨hok, hpending, hrefused.trans h.accepted, hbusy⟩, ?_⟩
    simp only [State.stepsLeft, hturn, hgiven, hdec]
    omega

/-- Settles O55: by induction on a bound of the steps still to come. -/
theorem everyDecodeCallEnds : Obligations.EveryDecodeCallEnds := by
  intro s hok hpending hrefused hbusy
  have hdecoding : s.Decoding := ⟨hok, hpending, hrefused, hbusy⟩
  induction hn : s.stepsLeft using Nat.strong_induction_on generalizing s with
  | _ n ih =>
    obtain ⟨t, hstep, hended | ⟨h, hless⟩⟩ := hdecoding.progress
    · exact ⟨1, t, reaches_succ.2 ⟨t, hstep, reaches_zero.2 rfl⟩, hended⟩
    · obtain ⟨k, u, hrun, hended⟩ := ih _ (hn ▸ hless) t h.ok h.noCommand h.accepted h.busy h rfl
      exact ⟨k + 1, u, reaches_succ.2 ⟨t, hstep, hrun⟩, hended⟩

end Sys2Proof.Machine
end

section
/-! PROOFS. The loop form of the decoder (43_decoder_tokens.md R190): an equation for each outcome of a token, and its
input cursor, which never falls. -/

namespace Sys2Proof.Machine

open Sys2Proof

section
variable {frame : List Byte} {n : Nat} {c : Byte} {l : LoopDec}

theorem loopToken_literal {v : Byte} (hflag : c.getLsbD 0 = true) (hv : frame[l.ip]? = some v) :
    loopToken frame n c l = .ok ({ l with ip := l.ip + 1 }.emit v) := by
  simp only [loopToken, if_pos hflag, hv]

theorem loopToken_literal_truncated (hflag : c.getLsbD 0 = true) (hend : frame[l.ip]? = none) :
    loopToken frame n c l = .error .truncatedStream := by
  simp only [loopToken, if_pos hflag, hend]

/-- The loop's formulas for a match are the fields that the element's decoding reads (R96, R97, R190). -/
theorem loopToken_match {b1 b2 : Byte} (hflag : c.getLsbD 0 = false) (h1 : frame[l.ip]? = some b1)
    (h2 : frame[l.ip + 1]? = some b2) :
    loopToken frame n c l = loopCopy n (matchLength (b2.extractLsb' 0 6)).toNat
      (readPosition (rawOffset b1 (b2.extractLsb' 6 2))) { l with ip := l.ip + 2 } := by
  have hlength : (b2 &&& 0x3F#8).toNat + minMatch = (matchLength (b2.extractLsb' 0 6)).toNat := by
    rw [matchLength_toNat, BitVec.toNat_and, ← and_lencodeMask]
    rfl
  have hoffset : (((b2 &&& 0xC0#8).setWidth 10 <<< 2) ||| b1.setWidth 10) &&& 0x3FF#10 =
      rawOffset b1 (b2.extractLsb' 6 2) := by
    have hb1 := b1.isLt
    have hhigh : b2.toNat &&& 0xC0 < 2 ^ 8 := Nat.lt_of_le_of_lt Nat.and_le_left b2.isLt
    apply BitVec.eq_of_toNat_eq
    rw [rawOffset_of_bytes, BitVec.toNat_and, BitVec.toNat_or, BitVec.toNat_shiftLeft, BitVec.toNat_setWidth,
      BitVec.toNat_setWidth, BitVec.toNat_and, Nat.mod_eq_of_lt (b := 2 ^ 10) (a := b1.toNat) (by omega)]
    simp only [BitVec.toNat_ofNat, Nat.reducePow, Nat.reduceMod]
    rw [Nat.mod_eq_of_lt (by omega), Nat.mod_eq_of_lt (by omega)]
  have hclear : ¬ c.getLsbD 0 = true := ne_true_of_eq_false hflag
  simp only [loopToken, if_neg hclear, h1, h2, hlength, hoffset]

theorem loopToken_match_truncated (hflag : c.getLsbD 0 = false) (hend : frame[l.ip + 1]? = none) :
    loopToken frame n c l = .error .truncatedStream := by
  have hclear : ¬ c.getLsbD 0 = true := ne_true_of_eq_false hflag
  simp only [loopToken, if_neg hclear, hend]
  cases frame[l.ip]? <;> rfl

/-- Copying reads the window and no input. -/
theorem loopCopy_ip {k : Nat} {rp : Addr10} {l' : LoopDec} (h : loopCopy n k rp l = .ok l') : l'.ip = l.ip := by
  induction k generalizing rp l with
  | zero => exact Except.ok.inj h ▸ rfl
  | succ k ih =>
    unfold loopCopy at h
    split at h
    · cases h
    · have hrest := ih h
      exact hrest

theorem loopToken_ip_le {l' : LoopDec} (h : loopToken frame n c l = .ok l') : l.ip ≤ l'.ip := by
  unfold loopToken at h
  split at h
  · split at h
    · exact Except.ok.inj h ▸ Nat.le_add_right _ 1
    · cases h
  · split at h
    · exact (loopCopy_ip h).symm ▸ Nat.le_add_right _ 2
    · cases h

theorem loopTokens_ip_le {k : Nat} {l' : LoopDec} (h : loopTokens frame n k c l = .ok l') : l.ip ≤ l'.ip := by
  induction k generalizing c l with
  | zero => exact Except.ok.inj h ▸ le_rfl
  | succ k ih =>
    unfold loopTokens at h
    split at h
    · exact Except.ok.inj h ▸ le_rfl
    · split at h
      · next htoken => exact (loopToken_ip_le htoken).trans (ih h)
      · cases h

/-- The loop's result as the outcome of the call. -/
def loopOutcome : Except Cause LoopDec → LoopOutcome
  | .ok l => .done l.out l.ip
  | .error e => .fault e

/-- The variables of the loop after the header (R190). -/
def LoopDec.start : LoopDec := { ip := headerLength, wp := 0#10, win := [], out := [] }

theorem loopDecode_short (decMaxOut : Word32) (h : frame.length < headerLength) :
    loopDecode decMaxOut frame = .fault .truncatedStream := by
  unfold loopDecode
  split
  · simp only [List.length_cons, headerLength] at h
    omega
  · rfl

/-- With eight bytes there the call is decided by the two fields, then by the groups. -/
theorem loopDecode_long (decMaxOut : Word32) (h : headerLength ≤ frame.length) :
    ∃ len ver, (Dec.start frame).headerHolds len ver ∧ loopDecode decMaxOut frame =
      if ver ≠ 1#32 then .fault .formatError
      else if decMaxOut < len then .refused len
      else loopOutcome (loopGroups frame len.toNat (frame.length + 1) LoopDec.start) := by
  match frame, h with
  | b0 :: b1 :: b2 :: b3 :: b4 :: b5 :: b6 :: b7 :: tail, _ =>
    refine ⟨be32 b0 b1 b2 b3, be32 b4 b5 b6 b7,
      ⟨b0, b1, b2, b3, b4, b5, b6, b7, by simp [inByteAt_start]⟩, ?_⟩
    rw [loopDecode, LoopDec.start]
    generalize loopGroups _ _ _ _ = r
    cases r <;> rfl

end

end Sys2Proof.Machine
end

section
/-! PROOFS. The decoder's steps follow its loop form (43_decoder_tokens.md R190): a decoder that holds the loop's
variables is led, loop by loop, to one that holds the variables the loop ends with, or to the loop's fault. -/

namespace Sys2Proof.Machine

open Sys2Proof

/-! ### Runs of the decoder in a machine where it moves alone -/

/-- In the machine `s` the decoder `d` comes to be `d'`. -/
def State.leads (s : State) (d d' : Dec) : Prop := ∃ k, State.reaches k (s.setDec d) (s.setDec d')

theorem leads_refl (s : State) (d : Dec) : s.leads d d := ⟨0, reaches_zero.2 rfl⟩

theorem State.leads.trans {s : State} {d d' d'' : Dec} (h : s.leads d d') (h' : s.leads d' d'') : s.leads d d'' := by
  obtain ⟨j, hj⟩ := h
  obtain ⟨k, hk⟩ := h'
  exact ⟨j + k, reaches_trans hj hk⟩

/-- A step of the decoder, where it moves alone. -/
theorem State.decoderAlone.leads {s : State} {d d' : Dec} (halone : s.decoderAlone)
    (h : decStep (s.setDec d) = .next (s.setDec d')) : s.leads d d' := by
  have halone' : (s.setDec d).decoderAlone := halone
  exact ⟨1, reaches_succ.2 ⟨_, halone'.step_eq.trans h, reaches_zero.2 rfl⟩⟩

/-- The decoder comes to a fault of this cause. -/
def State.leadsToFault (s : State) (d : Dec) (k : Cause) : Prop :=
  ∃ d', s.leads d d' ∧ d'.phase = .fault ∧ d'.cause = k

/-- The decoder does what a loop does: where the loop ends with variables it comes to be a decoder that stands to them
as `post` says, and where the loop faults it comes to that fault. -/
def State.follows (s : State) (d : Dec) (r : Except Cause LoopDec) (post : Dec → LoopDec → Prop) : Prop :=
  match r with
  | .ok l => ∃ d', s.leads d d' ∧ post d' l
  | .error k => s.leadsToFault d k

section
variable {s : State} {d d' : Dec} {r : Except Cause LoopDec} {post post' : Dec → LoopDec → Prop}

theorem State.leads.toFault {k : Cause} (h : s.leads d d') (h' : s.leadsToFault d' k) : s.leadsToFault d k := by
  obtain ⟨d'', hrun, hfault⟩ := h'
  exact ⟨d'', h.trans hrun, hfault⟩

theorem State.leads.follows (h : s.leads d d') (h' : s.follows d' r post) : s.follows d r post := by
  cases r with
  | ok l =>
    obtain ⟨d'', hrun, hpost⟩ := h'
    exact ⟨d'', h.trans hrun, hpost⟩
  | error k => exact h.toFault h'

/-- What follows a loop, and goes on from where it ends, follows the loop. -/
theorem State.follows.extend (h : s.follows d r post)
    (hpost : ∀ d₁ l, post d₁ l → ∃ d₂, s.leads d₁ d₂ ∧ post' d₂ l) : s.follows d r post' := by
  cases r with
  | ok l =>
    obtain ⟨d₁, hrun, h₁⟩ := h
    obtain ⟨d₂, hrun', h₂⟩ := hpost d₁ l h₁
    exact ⟨d₂, hrun.trans hrun', h₂⟩
  | error k => exact h

theorem State.decoderAlone.leadsToFault {k : Cause} (halone : s.decoderAlone)
    (h : decStep (s.setDec d) = .next (s.setDec (d'.raise k))) : s.leadsToFault d k :=
  ⟨_, halone.leads h, rfl, rfl⟩

end

/-! ### A decoder that holds the loop's variables -/

/-- The decoder holds the loop's variables: the frame and the declared length, the cursors, the window, and in `OUT`
the bytes produced. -/
structure Dec.Tracks (d : Dec) (frame : List Byte) (n : Nat) (l : LoopDec) : Prop where
  input : ∀ a, d.inByteAt a = frame[a]?
  outLen : d.outLen.toNat = n
  ip : d.ip = l.ip
  ipInside : l.ip ≤ frame.length
  wp : d.wp = l.wp
  window : d.window = l.win
  op : d.op = l.out.length
  opInside : l.out.length ≤ n
  outputForm : Memory.wf .output d.output
  output : ∀ a, d.outByte a = l.out[a]?

section
variable {s : State} {frame : List Byte} {n : Nat} {d : Dec} {l : LoopDec}

theorem Dec.Tracks.byte {v : Byte} {a : Nat} (h : d.Tracks frame n l) (hv : frame[l.ip + a]? = some v) :
    d.inByteAt (d.ip + a) = some v := by
  rw [h.input, h.ip, hv]

theorem Dec.Tracks.noByte {a : Nat} (h : d.Tracks frame n l) (hend : frame[l.ip + a]? = none) :
    d.inLen ≤ d.ip + a := by
  rw [← inByteAt_eq_none, h.input, h.ip, hend]

theorem Dec.Tracks.full_iff (h : d.Tracks frame n l) : d.op = d.outLen.toNat ↔ l.out.length = n := by
  rw [h.op, h.outLen]

theorem Dec.Tracks.room (h : d.Tracks frame n l) (howed : l.out.length ≠ n) : d.op < d.outLen.toNat := by
  have := h.opInside
  rw [h.op, h.outLen]
  omega

/-- The cursor moves past bytes that are there. -/
theorem Dec.Tracks.advance {k : Nat} (h : d.Tracks frame n l) (hinside : l.ip + k ≤ frame.length) :
    (d.advance k).Tracks frame n { l with ip := l.ip + k } :=
  { h with
    ip := congrArg (· + k) h.ip
    ipInside := hinside }

/-- A byte produced is a byte the loop emits. -/
theorem Dec.Tracks.produced (h : d.Tracks frame n l) (howed : l.out.length ≠ n) (v : Byte) :
    (d.produced v).Tracks frame n (l.emit v) :=
  { h with
    wp := congrArg inc10 h.wp
    window := by
      rw [Dec.produced_window, Nat.mod_eq_of_lt d.wp.isLt, h.wp, h.window]
      rfl
    op := by rw [Dec.produced_op, h.op, LoopDec.emit, List.length_append, List.length_singleton]
    opInside := by
      have := h.opInside
      rw [LoopDec.emit, List.length_append, List.length_singleton]
      omega
    outputForm := memWrite_wf _ _ h.outputForm
    output := fun a => by
      rw [produced_outByte d v a h.outputForm, h.output, h.op, LoopDec.emit]
      rcases Nat.lt_trichotomy a l.out.length with hbefore | rfl | hpast
      · rw [if_neg hbefore.ne, List.getElem?_append_left hbefore]
      · rw [if_pos rfl, List.getElem?_concat_length]
      · rw [if_neg hpast.ne', List.getElem?_eq_none hpast.le, List.getElem?_eq_none (by simpa using hpast)] }

/-- The byte the loop copies is the byte the decoder reads in its window. -/
theorem Dec.Tracks.winRead (h : d.Tracks frame n l) (rp : Addr10) :
    d.winRead rp.toNat = (memRead .window l.win rp.toNat).getD 0#8 := by
  rw [Dec.winRead, Nat.mod_eq_of_lt rp.isLt, h.window]

/-- The decoder in this phase, with these flags, holding the loop's variables. -/
structure Dec.At (d : Dec) (phase : DecPhase) (c : Byte) (b : BitVec 4) (frame : List Byte) (n : Nat)
    (l : LoopDec) : Prop where
  phase_eq : d.phase = phase
  ctrl_eq : d.ctrl = c
  bits_eq : d.bits = b
  tracks : d.Tracks frame n l

theorem Dec.At.ctrlShift {phase : DecPhase} {c : Byte} {b : BitVec 4} (h : d.At phase c b frame n l) :
    d.ctrlShift.At phase (c >>> 1) (b - 1#4) frame n l :=
  ⟨h.phase_eq, by rw [Dec.ctrlShift_ctrl, h.ctrl_eq], by rw [Dec.ctrlShift_bits, h.bits_eq], { h.tracks with }⟩

theorem Dec.At.withPhase {phase : DecPhase} {c : Byte} {b : BitVec 4} (h : d.At phase c b frame n l)
    (phase' : DecPhase) : Dec.At { d with phase := phase' } phase' c b frame n l :=
  ⟨rfl, h.ctrl_eq, h.bits_eq, { h.tracks with }⟩

/-- A token is due where output is owed and a flag is left. -/
theorem Dec.At.awaits {c : Byte} {b : BitVec 4} {literal : Bool} (h : d.At .token c b frame n l)
    (howed : l.out.length ≠ n) (hb : b ≠ 0#4) (hflag : c.getLsbD 0 = literal) : d.awaits (.token literal) :=
  ⟨h.phase_eq, mt h.tracks.full_iff.1 howed, h.bits_eq ▸ hb, by rw [Dec.flag, h.ctrl_eq, hflag]⟩

/-! ### The loops, followed -/

/-- The copying of a match, by induction on the bytes left. -/
theorem loopCopy_followed {c : Byte} {b : BitVec 4} {k : Nat} {rp : Addr10} (halone : s.decoderAlone)
    (h : d.At .copy c b frame n l) (hcnt : d.cnt.toNat = k) (hrp : d.rp = rp) :
    s.follows d (loopCopy n k rp l) fun d' l' => d'.At .copy c b frame n l' ∧ d'.cnt = 0#7 := by
  induction k generalizing d l rp with
  | zero => exact ⟨d, leads_refl s d, h, BitVec.eq_of_toNat_eq hcnt⟩
  | succ k ih =>
    have hopen : d.cnt ≠ 0#7 := BitVec.toNat_ne.2 (by rw [hcnt]; exact Nat.succ_ne_zero k)
    unfold loopCopy
    split
    · next hfull =>
      exact halone.leadsToFault
        (decStep_copy_overrun (s := s.setDec d) h.phase_eq hopen (h.tracks.full_iff.2 hfull))
    · next howed =>
      have hstep := decStep_copy_byte (s := s.setDec d) h.phase_eq hopen (h.tracks.room howed)
      have htracks : d.copied.Tracks frame n (l.emit ((memRead .window l.win rp.toNat).getD 0#8)) := by
        rw [← hrp, ← h.tracks.winRead d.rp]
        exact { h.tracks.produced howed (d.winRead d.rp.toNat) with }
      have hat : d.copied.At .copy c b frame n (l.emit ((memRead .window l.win rp.toNat).getD 0#8)) :=
        ⟨h.phase_eq, h.ctrl_eq, h.bits_eq, htracks⟩
      exact (halone.leads hstep).follows (ih hat (toNat_sub_one hcnt) (congrArg inc10 hrp))

/-- A literal: its byte is produced and its flag consumed. -/
theorem loopToken_literal_followed {c : Byte} {b : BitVec 4} (halone : s.decoderAlone)
    (h : d.At .token c b frame n l) (howed : l.out.length ≠ n) (hb : b ≠ 0#4) (hflag : c.getLsbD 0 = true) :
    s.follows d (loopToken frame n c l) fun d' l' => d'.At .token (c >>> 1) (b - 1#4) frame n l' := by
  have hawaits : (s.setDec d).dec.awaits (.token true) := h.awaits howed hb hflag
  cases hv : frame[l.ip]? with
  | none =>
    rw [loopToken_literal_truncated hflag hv]
    exact halone.leadsToFault (decStep_token_truncated hawaits (h.tracks.noByte (a := 0) hv))
  | some v =>
    rw [loopToken_literal hflag hv]
    have hinside : l.ip + 1 ≤ frame.length := (List.getElem?_eq_some_iff.1 hv).1
    have hroom : (s.setDec d).dec.op < (s.setDec d).dec.outLen.toNat := h.tracks.room howed
    have hstep := (decStep_literal hawaits (h.tracks.byte (a := 0) hv)).trans (exec_lit v hroom)
    have hat : ((d.advance 1).produced v).At .token c b frame n ({ l with ip := l.ip + 1 }.emit v) :=
      ⟨h.phase_eq, h.ctrl_eq, h.bits_eq, (h.tracks.advance hinside).produced howed v⟩
    exact ⟨_, halone.leads hstep, hat.ctrlShift⟩

/-- A match: its fetch, its copying, and its close, which consumes its flag. -/
theorem loopToken_match_followed {c : Byte} {b : BitVec 4} (halone : s.decoderAlone)
    (h : d.At .token c b frame n l) (howed : l.out.length ≠ n) (hb : b ≠ 0#4) (hflag : c.getLsbD 0 = false) :
    s.follows d (loopToken frame n c l) fun d' l' => d'.At .token (c >>> 1) (b - 1#4) frame n l' := by
  have hawaits : (s.setDec d).dec.awaits (.token false) := h.awaits howed hb hflag
  cases h2 : frame[l.ip + 1]? with
  | none =>
    rw [loopToken_match_truncated hflag h2]
    cases h1 : frame[l.ip]? with
    | none => exact halone.leadsToFault (decStep_token_truncated hawaits (h.tracks.noByte (a := 0) h1))
    | some b1 =>
      exact halone.leadsToFault (decStep_halfMatch hawaits (h.tracks.byte (a := 0) h1) (h.tracks.noByte h2))
  | some b2 =>
    have hinside : l.ip + 2 ≤ frame.length := (List.getElem?_eq_some_iff.1 h2).1
    obtain ⟨b1, h1⟩ : ∃ b1, frame[l.ip]? = some b1 := ⟨_, List.getElem?_eq_getElem (by omega)⟩
    rw [loopToken_match hflag h1 h2]
    have hstep := (decStep_match hawaits (h.tracks.byte (a := 0) h1) (h.tracks.byte h2)).trans
      (exec_matchTok b1 b2 (s.setDec d))
    have hloaded : (d.matchLoaded b1 b2).At .copy c b frame n { l with ip := l.ip + 2 } :=
      ⟨rfl, h.ctrl_eq, h.bits_eq, { h.tracks.advance hinside with }⟩
    refine (halone.leads hstep).follows ((loopCopy_followed halone hloaded rfl rfl).extend ?_)
    intro d' l' ⟨hcopied, hcnt⟩
    have hclose := decStep_copy_close (s := s.setDec d') hcopied.phase_eq hcnt
    exact ⟨_, halone.leads hclose, hcopied.ctrlShift.withPhase .token⟩

/-- The decoder where a control byte is next, if output is still owed: before its fetch, or at the dispatch of a token
after the last of a group. -/
structure Dec.BetweenGroups (d : Dec) (frame : List Byte) (n : Nat) (l : LoopDec) : Prop where
  tracks : d.Tracks frame n l
  atHead : d.phase = .ctrl ∨ d.phase = .token ∧ (d.bits = 0#4 ∨ l.out.length = n)

/-- The tokens of a group, by induction on the flags left. -/
theorem loopTokens_followed {c : Byte} {b : BitVec 4} {k : Nat} (halone : s.decoderAlone)
    (h : d.At .token c b frame n l) (hk : b.toNat = k) :
    s.follows d (loopTokens frame n k c l) fun d' l' => d'.BetweenGroups frame n l' := by
  induction k generalizing d c b l with
  | zero =>
    have hb : d.bits = 0#4 := h.bits_eq.trans (BitVec.eq_of_toNat_eq hk)
    exact ⟨d, leads_refl s d, h.tracks, .inr ⟨h.phase_eq, .inl hb⟩⟩
  | succ k ih =>
    have hb : b ≠ 0#4 := BitVec.toNat_ne.2 (by rw [hk]; exact Nat.succ_ne_zero k)
    unfold loopTokens
    split
    · next hfull => exact ⟨d, leads_refl s d, h.tracks, .inr ⟨h.phase_eq, .inr hfull⟩⟩
    · next howed =>
      have htoken : s.follows d (loopToken frame n c l) fun d' l' => d'.At .token (c >>> 1) (b - 1#4) frame n l' := by
        cases hflag : c.getLsbD 0 with
        | true => exact loopToken_literal_followed halone h howed hb hflag
        | false => exact loopToken_match_followed halone h howed hb hflag
      split
      · next l' hl =>
        rw [hl] at htoken
        obtain ⟨d', hrun, hat⟩ := htoken
        exact hrun.follows (ih hat (toNat_sub_one hk))
      · next e hl => rwa [hl] at htoken

/-- Where output is owed, the decoder between groups comes to the fetch of the control byte. -/
theorem Dec.BetweenGroups.toControl (halone : s.decoderAlone) (h : d.BetweenGroups frame n l)
    (howed : l.out.length ≠ n) : ∃ d', s.leads d d' ∧ d'.phase = .ctrl ∧ d'.Tracks frame n l := by
  rcases h.atHead with hctrl | ⟨htoken, hbits | hfull⟩
  · exact ⟨d, leads_refl s d, hctrl, h.tracks⟩
  · have hstep := decStep_token_nextGroup (s := s.setDec d) htoken (mt h.tracks.full_iff.1 howed) hbits
    exact ⟨_, halone.leads hstep, rfl, { h.tracks with }⟩
  · exact absurd hfull howed

/-- Where the output is full, the decoder between groups comes to `DONE`. -/
theorem Dec.BetweenGroups.toDone (halone : s.decoderAlone) (h : d.BetweenGroups frame n l)
    (hfull : l.out.length = n) : ∃ d', s.leads d d' ∧ d'.phase = .done ∧ d'.Tracks frame n l := by
  have hop := h.tracks.full_iff.2 hfull
  have hstep : decStep (s.setDec d) = .next (s.setDec d.finish) := by
    rcases h.atHead with hctrl | ⟨htoken, _⟩
    · exact decStep_ctrl_full (s := s.setDec d) hctrl hop
    · exact decStep_token_full (s := s.setDec d) htoken hop
  exact ⟨_, halone.leads hstep, rfl, { h.tracks with }⟩

/-- The decoder has come to `DONE` with the loop's variables, the output full. -/
structure Dec.DoneWith (d : Dec) (frame : List Byte) (n : Nat) (l : LoopDec) : Prop where
  phase : d.phase = .done
  tracks : d.Tracks frame n l
  full : l.out.length = n

/-- The groups, by induction on the fuel: each takes a byte of the frame, so the fuel does not run out. -/
theorem loopGroups_followed {k : Nat} (halone : s.decoderAlone) (h : d.BetweenGroups frame n l)
    (hfuel : frame.length < k + l.ip) :
    s.follows d (loopGroups frame n k l) fun d' l' => d'.DoneWith frame n l' := by
  induction k generalizing d l with
  | zero => exact absurd h.tracks.ipInside (by omega)
  | succ k ih =>
    unfold loopGroups
    split
    · next howed =>
      obtain ⟨d₁, hrun, hphase, htracks⟩ := h.toControl halone howed.ne
      have hop : d₁.op ≠ d₁.outLen.toNat := mt htracks.full_iff.1 howed.ne
      refine hrun.follows ?_
      split
      · next c hc =>
        have hinside : l.ip + 1 ≤ frame.length := (List.getElem?_eq_some_iff.1 hc).1
        have hstep := decStep_ctrl_loaded (s := s.setDec d₁) hphase hop (htracks.byte (a := 0) hc)
        have hat : Dec.At { d₁ with ip := d₁.ip + 1, ctrl := c, bits := 8#4, phase := .token } .token c 8#4 frame n
            { l with ip := l.ip + 1 } := ⟨rfl, rfl, rfl, { htracks.advance hinside with }⟩
        have htokens := loopTokens_followed (k := groupSize) halone hat rfl
        refine (halone.leads hstep).follows ?_
        split
        · next l' hl =>
          rw [hl] at htokens
          obtain ⟨d₂, hrun₂, hbetween⟩ := htokens
          have hless := loopTokens_ip_le hl
          exact hrun₂.follows (ih hbetween (by simp only at hless; omega))
        · next e hl => rwa [hl] at htokens
      · next hend =>
        exact halone.leadsToFault
          (decStep_ctrl_truncated (s := s.setDec d₁) hphase hop (htracks.noByte (a := 0) hend))
    · next hnot =>
      have hfull : l.out.length = n := Nat.le_antisymm h.tracks.opInside (Nat.not_lt.1 hnot)
      obtain ⟨d', hrun, hphase, htracks⟩ := h.toDone halone hfull
      exact ⟨d', hrun, hphase, htracks, hfull⟩

end

/-! ### The call -/

/-- A call ends with an outcome of the loop form: the result and the final input cursor, the fault, or the refusal. -/
def State.endsWith (s : State) : LoopOutcome → Prop
  | .done bytes ip => ∃ k t, State.reaches k s t ∧ t.decResult = some (.done bytes) ∧ t.dec.ip = ip
  | .fault c => ∃ k t, State.reaches k s t ∧ t.decResult = some (.fault c)
  | .refused len => ∃ k, Host.Core.run core k s = .refused (.declaredLengthTooLarge len)

theorem run_succ_of_step {k : Nat} {s t : State} (h : step s = .next t) :
    Host.Core.run core (k + 1) s = Host.Core.run core k t := by
  have hcore : core.step s = .next t := h
  simp only [Host.Core.run, hcore]

theorem run_one_refused {s : State} {r : Refusal} (h : step s = .refused r) : Host.Core.run core 1 s = .refused r := by
  have hcore : core.step s = .refused r := h
  simp only [Host.Core.run, hcore]

/-- A call ends as it ends from a state further on. -/
theorem State.endsWith.of_step {s t : State} {o : LoopOutcome} (h : t.endsWith o) (hstep : step s = .next t) :
    s.endsWith o := by
  cases o with
  | done bytes ip =>
    obtain ⟨k, u, hrun, hresult⟩ := h
    exact ⟨k + 1, u, reaches_succ.2 ⟨t, hstep, hrun⟩, hresult⟩
  | fault c =>
    obtain ⟨k, u, hrun, hresult⟩ := h
    exact ⟨k + 1, u, reaches_succ.2 ⟨t, hstep, hrun⟩, hresult⟩
  | refused len =>
    obtain ⟨k, hrun⟩ := h
    exact ⟨k + 1, (run_succ_of_step hstep).trans hrun⟩

/-- `OUT` read from `a` on, where it holds the given bytes. -/
theorem outBytes_eq_some {d : Dec} {vs : List Byte} {a : Nat} (h : ∀ j < vs.length, d.outByte (a + j) = vs[j]?) :
    d.outBytes a vs.length = some vs := by
  induction vs generalizing a with
  | nil => rfl
  | cons v vs ih =>
    have hhead : d.outByte a = some v := h 0 (Nat.succ_pos _)
    have htail := ih (a := a + 1) fun j hj => by
      rw [Nat.add_assoc, Nat.add_comm 1 j, h (j + 1) (Nat.succ_lt_succ hj), List.getElem?_cons_succ]
    simp only [List.length_cons, Dec.outBytes, hhead, htail]

section
variable {s : State} {frame : List Byte} {n : Nat} {d : Dec} {l : LoopDec}

/-- At `DONE` the result is the loop's bytes (R165). -/
theorem Dec.DoneWith.decResult (h : d.DoneWith frame n l) (hrefused : s.decRefused = none) :
    (s.setDec d).decResult = some (.done l.out) := by
  have hlen : d.outLen.toNat = l.out.length := h.tracks.outLen.trans h.full.symm
  have hbytes : d.outBytes 0 l.out.length = some l.out :=
    outBytes_eq_some fun j _ => (h.tracks.output (0 + j)).trans (by rw [Nat.zero_add])
  simp [State.decResult, hrefused, h.phase, hlen, hbytes]

/-- In `FAULT` the result is the cause (R264). -/
theorem State.leadsToFault.endsWith {k : Cause} (h : s.leadsToFault d k) (hrefused : s.decRefused = none) :
    (s.setDec d).endsWith (.fault k) := by
  obtain ⟨d', ⟨j, hrun⟩, hphase, hcause⟩ := h
  exact ⟨j, _, hrun, by simp [State.decResult, hrefused, hphase, hcause]⟩

theorem State.follows.endsWith {r : Except Cause LoopDec}
    (h : s.follows d r fun d' l' => d'.DoneWith frame n l') (hrefused : s.decRefused = none) :
    (s.setDec d).endsWith (loopOutcome r) := by
  cases r with
  | ok l =>
    obtain ⟨d', ⟨j, hrun⟩, hdone⟩ := h
    exact ⟨j, _, hrun, hdone.decResult hrefused, hdone.tracks.ip⟩
  | error k => exact State.leadsToFault.endsWith h hrefused

end

/-- The refusal of the decoder's call is the answer at its turn, where the encoder has no step to take (log entry 7). -/
theorem step_refuse_dec {s : State} {r : Refusal} (hpending : s.pending = []) (hturn : s.turn = .dec)
    (hmoves : s.moves .enc = false) : step (s.refuse .dec r) = .refused r := by
  have hturn' : (s.refuse .dec r).turn = .dec := hturn
  have hmoves' : (s.refuse .dec r).moves .enc = false := hmoves
  have hrefusal : (s.refuse .dec r).refusal (s.refuse .dec r).turn = some r := by rw [hturn']; rfl
  rw [step_refused (s := s.refuse .dec r) hpending hrefusal, hturn']
  exact if_neg (ne_true_of_eq_false hmoves')

/-- The decoder after an accepted header (R162 sub-step 7). -/
def Dec.afterHeader (d : Dec) (len : Word32) : Dec :=
  { d with version := 1#32, outLen := len, ip := headerLength, phase := .ctrl }

/-- After an accepted header the decoder holds the variables that the loop starts with. -/
theorem afterHeader_betweenGroups {frame : List Byte} (len : Word32) (hlen : headerLength ≤ frame.length) :
    ((Dec.start frame).afterHeader len).BetweenGroups frame len.toNat LoopDec.start where
  tracks :=
    { input := inByteAt_start frame
      outLen := rfl
      ip := rfl
      ipInside := hlen
      wp := rfl
      window := rfl
      op := rfl
      opInside := Nat.zero_le _
      outputForm := memWf_nil _
      output := fun _ => rfl }
  atHead := .inl rfl

/-- A started call ends as the loop form says, by the outcomes of the header. -/
theorem start_endsWith {s : State} {frame : List Byte} (halone : s.decoderAlone) :
    (s.setDec (Dec.start frame)).endsWith (loopDecode s.cfg.decMaxOut frame) := by
  have ⟨hpending, hturn, hrefused, hmoves⟩ := halone
  have hphase : (s.setDec (Dec.start frame)).dec.phase = .hdr := rfl
  rcases Nat.lt_or_ge frame.length headerLength with hshort | hlong
  · rw [loopDecode_short _ hshort]
    exact (halone.leadsToFault (decStep_hdr_short (s := s.setDec (Dec.start frame)) hphase hshort)).endsWith hrefused
  · obtain ⟨len, ver, hheld, hloop⟩ := loopDecode_long s.cfg.decMaxOut hlong
    have hexec : decStep (s.setDec (Dec.start frame)) = exec (.hdr len ver) (s.setDec (Dec.start frame)) :=
      decStep_hdr hphase hheld
    rw [hloop]
    split_ifs with hver htoo
    · rw [exec_hdr_badVersion len _ hver] at hexec
      exact (halone.leadsToFault hexec).endsWith hrefused
    · obtain rfl := not_not.1 hver
      have htoo' : (s.setDec (Dec.start frame)).cfg.decMaxOut < len := htoo
      rw [exec_hdr_versionOne, if_pos htoo'] at hexec
      have hstep := (State.decoderAlone.step_eq (s := s.setDec (Dec.start frame)) halone).trans hexec
      exact ⟨2, (run_succ_of_step hstep).trans
        (run_one_refused (step_refuse_dec (s := s.setDec (Dec.start frame)) hpending hturn hmoves))⟩
    · obtain rfl := not_not.1 hver
      have htoo' : ¬ (s.setDec (Dec.start frame)).cfg.decMaxOut < len := htoo
      rw [exec_hdr_versionOne, if_neg htoo'] at hexec
      have hgroups := loopGroups_followed halone (afterHeader_betweenGroups len hlong) (k := frame.length + 1)
        (by simp only [LoopDec.start, headerLength]; omega)
      exact ((halone.leads hexec).follows hgroups).endsWith hrefused

/-- Settles O56: the start is performed, and the call it begins ends as the loop form says. -/
theorem decoderEqualsItsLoopForm : Obligations.DecoderEqualsItsLoopForm := by
  intro s frame hpending hturn hbusy hmoves
  have hstart : step s = .next (State.beginDec { s with pending := [] } (Dec.start frame)) :=
    (step_command hpending).trans (performCommand_decStart frame hbusy)
  have halone : (State.beginDec { s with pending := [] } (Dec.start frame)).decoderAlone :=
    ⟨rfl, hturn, rfl, hmoves⟩
  have hends : s.endsWith (loopDecode s.cfg.decMaxOut frame) :=
    (start_endsWith (s := State.beginDec { s with pending := [] } (Dec.start frame)) halone).of_step hstart
  exact ⟨fun bytes ip h => by rwa [h] at hends, fun c h => by rwa [h] at hends, fun len h => by rwa [h] at hends⟩

end Sys2Proof.Machine
end

section
/-! PROOFS. The match search of the encoder (44_encoder_search.md R211 to R216): what the comparison loop and the
candidate loop find, and the search step. -/

namespace Sys2Proof.Machine

open Sys2Proof

/-! ### The length at one candidate (R213) -/

theorem matchRun_of_agree {src : Memory} {n start sp l : Nat} (k : Nat)
    (h : workByte src n (start + l) = workByte src n (sp + l)) :
    matchRun src n start sp (k + 1) l = matchRun src n start sp k (l + 1) :=
  if_pos h

theorem matchRun_of_differ {src : Memory} {n start sp l : Nat} (k : Nat)
    (h : workByte src n (start + l) ≠ workByte src n (sp + l)) : matchRun src n start sp (k + 1) l = l :=
  if_neg h

/-- The bytes that the comparison has passed agree. -/
theorem matchRun_agrees {src : Memory} {n start sp k l i : Nat} (hi : l ≤ i)
    (hlt : i < matchRun src n start sp k l) : workByte src n (start + i) = workByte src n (sp + i) := by
  induction k generalizing l with
  | zero => exact absurd hlt (Nat.not_lt.2 hi)
  | succ k ih =>
    by_cases h : workByte src n (start + l) = workByte src n (sp + l)
    · rw [matchRun_of_agree k h] at hlt
      rcases Nat.eq_or_lt_of_le hi with rfl | hpast
      · exact h
      · exact ih hpast hlt
    · rw [matchRun_of_differ k h] at hlt
      exact absurd hlt (Nat.not_lt.2 hi)

/-- A comparison that ends before its last byte ends at a byte that differs. -/
theorem matchRun_differs {src : Memory} {n start sp k l : Nat} (hlt : matchRun src n start sp k l < l + k) :
    workByte src n (start + matchRun src n start sp k l) ≠ workByte src n (sp + matchRun src n start sp k l) := by
  induction k generalizing l with
  | zero => exact absurd hlt (Nat.lt_irrefl l)
  | succ k ih =>
    by_cases h : workByte src n (start + l) = workByte src n (sp + l)
    · rw [matchRun_of_agree k h] at hlt ⊢
      exact ih (by omega)
    · rwa [matchRun_of_differ k h]

/-- Settles O42: the comparison loop from length 0 to the cap. -/
theorem matchLengthIsTheLongestRun : Obligations.MatchLengthIsTheLongestRun := fun src n sp cand =>
  ⟨matchLen_le_cap src n sp cand, fun l => matchRun_agrees (Nat.zero_le l),
    fun hlt => matchRun_differs (hlt.trans_eq (Nat.zero_add _).symm)⟩

/-! ### The best candidate (R214 to R216) -/

/-- `best` is what R215 says of the lengths `len` of the candidates below `cands`: the greatest length and the smallest
candidate that has it, or (0, 0). -/
structure FirstLongest (len : Nat → Nat) (cands : Nat) (best : Nat × Nat) : Prop where
  longest : ∀ c, c < cands → len c ≤ best.1
  attained : 0 < best.1 → best.2 < cands ∧ len best.2 = best.1 ∧ ∀ c, c < best.2 → len c < best.1
  noMatch : best.1 = 0 → best.2 = 0

theorem firstLongest_zero (len : Nat → Nat) : FirstLongest len 0 (0, 0) where
  longest := nofun
  attained := nofun
  noMatch _ := rfl

/-- The next candidate replaces the best only if it is strictly longer, so the smallest of the longest stays (R216). -/
theorem FirstLongest.after_betterMatch {len : Nat → Nat} {cand : Nat} {best : Nat × Nat}
    (h : FirstLongest len cand best) :
    FirstLongest len (cand + 1) (betterMatch best (len cand) cand) := by
  unfold betterMatch
  split
  · next hlonger =>
    have hbefore : ∀ c, c < cand → len c < len cand := fun c hc => (h.longest c hc).trans_lt hlonger
    exact
      { longest := fun c hc => (Nat.lt_succ_iff_lt_or_eq.1 hc).elim (fun hlt => (hbefore c hlt).le) (· ▸ le_rfl)
        attained := fun _ => ⟨Nat.lt_succ_self cand, rfl, hbefore⟩
        noMatch := fun hzero => absurd hzero (Nat.ne_zero_of_lt hlonger) }
  · next hnotLonger =>
    exact
      { longest := fun c hc => (Nat.lt_succ_iff_lt_or_eq.1 hc).elim (h.longest c) (· ▸ Nat.not_lt.1 hnotLonger)
        attained := fun hpos => (h.attained hpos).imp_left Nat.lt_succ_of_lt
        noMatch := h.noMatch }

/-- The loop over `k` more candidates keeps the best of the candidates passed. -/
theorem FirstLongest.after_searchFrom {src : Memory} {n sp cand : Nat} {best : Nat × Nat} (k : Nat)
    (h : FirstLongest (matchLen src n sp) cand best) :
    FirstLongest (matchLen src n sp) (cand + k) (searchFrom src n sp k cand best) := by
  induction k generalizing cand best with
  | zero => exact h
  | succ k ih =>
    rw [← Nat.succ_add_eq_add_succ]
    exact ih h.after_betterMatch

theorem bestMatch_firstLongest (src : Memory) (n sp : Nat) :
    FirstLongest (matchLen src n sp) windowSize (bestMatch src n sp) := by
  rw [← Nat.zero_add windowSize]
  exact (firstLongest_zero (matchLen src n sp)).after_searchFrom windowSize

/-- Settles O43: the invariant of the candidate loop, after all 1024 candidates. -/
theorem searchReturnsTheFirstLongest : Obligations.SearchReturnsTheFirstLongest := fun src n sp =>
  have h := bestMatch_firstLongest src n sp
  ⟨h.longest, h.attained, h.noMatch⟩

/-! ### The search step (R211) -/

theorem encStep_search_atEnd {s : State} (hphase : s.enc.phase = .search)
    (hend : s.enc.sp = windowSize + s.enc.inLen.toNat) :
    encStep s = .next (s.setEnc { s.enc with phase := .final }) := by
  simp only [encStep, hphase, Enc.searchStep, if_pos hend]

theorem encStep_search_before_end {s : State} (hphase : s.enc.phase = .search)
    (hmore : s.enc.sp ≠ windowSize + s.enc.inLen.toNat) :
    encStep s = .next (s.setEnc { s.enc.search with phase := .emit }) := by
  simp only [encStep, hphase, Enc.searchStep, if_neg hmore]

/-- A search writes its four registers and nothing else (R36, R37). -/
theorem loadSearch_frame (e : Enc) (best : Nat × Nat) :
    e.loadSearch best = { e with
      n := (e.loadSearch best).n, curLen := (e.loadSearch best).curLen, bestLen := (e.loadSearch best).bestLen,
      bestOff := (e.loadSearch best).bestOff } :=
  rfl

/-- Settles O41: the two branches of the search step, the registers by the ranges of what a search finds. -/
theorem searchStepLoadsTheBestMatch : Obligations.SearchStepLoadsTheBestMatch := by
  intro s hpending hturn hrefused hphase
  have hsame := passTurn_enc s
  have hphase' : s.passTurn.enc.phase = .search := hsame.symm ▸ hphase
  refine ⟨fun hend => ?_, fun hmore => ?_⟩
  · have hrun := encStep_search_atEnd hphase' (hsame.symm ▸ hend)
    rw [hsame] at hrun
    exact step_onlyEnc hpending hturn hrefused hrun
  · have hrun := encStep_search_before_end hphase' (hsame.symm ▸ hmore)
    rw [hsame] at hrun
    obtain ⟨t, hstep, hframe, henc⟩ := step_onlyEnc hpending hturn hrefused hrun
    have hbest := loadSearch_best s.enc _ (bestMatch_length_le s.enc.source s.enc.inLen.toNat s.enc.sp)
      (bestMatch_bounds s.enc.source s.enc.inLen.toNat s.enc.sp).2
    have htemporaries := loadSearch_temporaries s.enc (bestMatch s.enc.source s.enc.inLen.toNat s.enc.sp)
    refine ⟨t, hstep, hframe, ?_⟩
    rw [henc]
    exact ⟨congrArg (fun e : Enc => { e with phase := .emit }) (loadSearch_frame s.enc _), hbest, htemporaries⟩

end Sys2Proof.Machine
end

section
/-! PROOFS. An encoder on a circular window (44_encoder_search.md R221): the window holds the part of the working buffer
from the window origin to the source cursor. -/

namespace Sys2Proof.Machine

open Sys2Proof

/-! ### The working buffer, by its parts (R44) -/

theorem workByte_of_zeros (src : Memory) (n : Nat) {a : Nat} (ha : a < windowSize) : workByte src n a = some 0#8 :=
  if_pos ha

theorem workByte_past_zeros (src : Memory) (n : Nat) {a : Nat} (ha : windowSize ≤ a) :
    workByte src n a = if a < windowSize + n then memRead .source src (a - windowSize) else none :=
  if_neg (Nat.not_lt.2 ha)

/-- The byte `j` of the input stands at `1024 + j` of the working buffer. -/
theorem workByte_of_input {src : List Byte} {j : Nat} (hj : j < src.length) :
    workByte (memOfBytes .source 0 src) src.length (windowSize + j) = src[j]? := by
  rw [workByte_past_zeros _ _ (Nat.le_add_right _ _), if_pos (Nat.add_lt_add_left hj _), Nat.add_sub_cancel_left,
    memRead_memOfBytes, Nat.zero_add, if_pos ⟨Nat.zero_le j, hj⟩, Nat.sub_zero]

/-! ### The window of the pushed input -/

/-- From the source cursor on no byte is read from the window. -/
theorem windowedWorkByte_of_ahead (ewin src : Memory) (n : Nat) {sp a : Nat} (hsp : windowSize ≤ sp) (ha : sp ≤ a) :
    windowedWorkByte ewin src n sp a = workByte src n a :=
  (if_neg (Nat.not_lt.2 ha)).trans (workByte_past_zeros src n (hsp.trans ha)).symm

/-- Below the source cursor every byte is read from the window. -/
theorem windowedWorkByte_of_behind (d : Dec) (src : Memory) (n : Nat) {sp a : Nat} (ha : a < sp) :
    windowedWorkByte d.window src n sp a = some (d.winRead a) :=
  (if_pos ha).trans (memRead_window_eq _ _)

/-- With the first `wo` bytes of the input pushed, the window holds the working buffer from `wo` to `1024 + wo`. -/
theorem pushed_take_winRead (d : Dec) {src : List Byte} {wo a : Nat} (hwo : wo ≤ src.length) (hfrom : wo ≤ a)
    (hbelow : a < windowSize + wo) :
    some ((d.pushed (src.take wo)).winRead a) = workByte (memOfBytes .source 0 src) src.length a := by
  have hlen : (src.take wo).length = wo := List.length_take_of_le hwo
  rcases Nat.lt_or_ge a windowSize with hzeros | hinput
  · rw [workByte_of_zeros _ _ hzeros, pushed_winRead_unreached d hzeros (hlen.trans_le hfrom)]
  · obtain ⟨j, rfl⟩ := Nat.exists_eq_add_of_le hinput
    have hj : j < wo := Nat.lt_of_add_lt_add_left hbelow
    have hin : j < src.length := hj.trans_le hwo
    have hbyte : (src.take wo)[j]? = some src[j] :=
      (List.getElem?_take_of_lt hj).trans (List.getElem?_eq_getElem hin)
    rw [workByte_of_input hin, List.getElem?_eq_getElem hin, winRead_congr _ (Nat.add_mod_left windowSize j),
      pushed_winRead_recent d hbyte (by omega)]

/-- Settles O47: behind the source cursor by what the pushed window holds, ahead of it by the input itself. -/
theorem circularWindowReadsTheWorkingBuffer : Obligations.CircularWindowReadsTheWorkingBuffer := by
  intro d src wo a hwo hfrom
  rcases Nat.lt_or_ge a (windowSize + wo) with hbehind | hahead
  · exact (windowedWorkByte_of_behind (d.pushed (src.take wo)) _ _ hbehind).trans
      (pushed_take_winRead d hwo hfrom hbehind)
  · exact windowedWorkByte_of_ahead _ _ _ (Nat.le_add_right _ _) hahead

end Sys2Proof.Machine
end

section
/-! PROOFS. The emission of a token (45_encoder_emit.md R240 to R243): the token joins the open group, and the eighth
one closes it. -/

namespace Sys2Proof.Machine

open Sys2Proof

/-- A token joins the open group: its flag is shifted in, its payload held, and the input bytes it covers are passed
(R146, R242, R243). -/
def Enc.withToken (e : Enc) (isLit : Bool) (payload : List Byte) (covered : Nat) : Enc :=
  { e.accShiftIn isLit with gbuf := e.gbuf ++ payload, sp := e.sp + covered }

theorem emitLit_eq_withToken (e : Enc) (v : Byte) : e.emitLit v = e.withToken true [v] 1 := rfl

/-- The payload of a match is the encoding of its element (R98, R243). -/
theorem emitMatch_eq_withToken (e : Enc) : e.emitMatch =
    e.withToken false (encode (Instr.ofOffset (emittedOffset e.bestOff e.wo) (lengthCode e.bestLen)))
      e.bestLen.toNat := by
  rw [encode_ofOffset]
  rfl

/-- The group is full after its eighth token. -/
theorem count_eq_eight_iff (g : BitVec 4) : g + 1#4 = 8#4 ↔ g = 7#4 := by
  constructor <;> intro h <;> bv_omega

theorem withToken_endToken_open {e : Enc} (isLit : Bool) (payload : List Byte) (covered : Nat) (hg : e.g ≠ 7#4) :
    (e.withToken isLit payload covered).endToken = { e with
      acc := (e.accShiftIn isLit).acc, g := e.g + 1#4, gbuf := e.gbuf ++ payload, sp := e.sp + covered,
      phase := .search } := by
  rcases endToken_cases (e.withToken isLit payload covered) with ⟨hfull, _⟩ | ⟨_, hopen⟩
  · exact absurd ((count_eq_eight_iff e.g).1 hfull) hg
  · exact hopen

theorem withToken_endToken_full {e : Enc} (isLit : Bool) (payload : List Byte) (covered : Nat) (hg : e.g = 7#4) :
    (e.withToken isLit payload covered).endToken = { e with
      acc := 0#8, g := 0#4, gbuf := [], sp := e.sp + covered,
      stream := e.stream ++ [(e.accShiftIn isLit).acc] ++ e.gbuf ++ payload, phase := .search } := by
  rcases endToken_cases (e.withToken isLit payload covered) with ⟨_, hfull⟩ | ⟨hopen, _⟩
  · rw [List.append_assoc, List.append_assoc]
    exact hfull
  · exact absurd ((count_eq_eight_iff e.g).2 hg) hopen

theorem encStep_emitLit {s : State} {v : Byte} (hphase : s.enc.phase = .emit)
    (hshort : s.enc.bestLen.toNat < minMatch) (hv : s.enc.work s.enc.sp = some v) :
    encStep s = .next (s.setEnc (s.enc.withToken true [v] 1).endToken) := by
  simp only [encStep, hphase, Enc.emitStep, if_neg (Nat.not_le.2 hshort), hv, emitLit_eq_withToken]

theorem encStep_emitMatch {s : State} (hphase : s.enc.phase = .emit) (hlong : minMatch ≤ s.enc.bestLen.toNat) :
    encStep s = .next (s.setEnc (s.enc.withToken false
      (encode (Instr.ofOffset (emittedOffset s.enc.bestOff s.enc.wo) (lengthCode s.enc.bestLen)))
      s.enc.bestLen.toNat).endToken) := by
  simp only [encStep, hphase, Enc.emitStep, if_pos hlong, emitMatch_eq_withToken]

/-- Settles O44: the literal joins the group, which is then open or full. -/
theorem emitStepWritesALiteral : Obligations.EmitStepWritesALiteral := by
  intro s v hpending hturn hrefused hphase hshort hv
  rw [← passTurn_enc s] at hphase hshort hv
  have hrun := encStep_emitLit hphase (Nat.lt_succ_of_le hshort) hv
  rw [passTurn_enc] at hrun
  obtain ⟨t, hstep, hframe, henc⟩ := step_onlyEnc hpending hturn hrefused hrun
  exact ⟨t, hstep, hframe, fun hopen => henc.trans (withToken_endToken_open true [v] 1 hopen),
    fun hlast => henc.trans (withToken_endToken_full true [v] 1 hlast)⟩

/-- Settles O45: the match joins the group, its element the one of the floor-modulo offset (R98). -/
theorem emitStepWritesAMatch : Obligations.EmitStepWritesAMatch := by
  intro s hpending hturn hrefused hphase hmin hmax
  have hcode : (lengthCode s.enc.bestLen).toNat + 3 = s.enc.bestLen.toNat := by
    rw [lengthCode_toNat hmin hmax]
    exact Nat.sub_add_cancel hmin
  rw [← passTurn_enc s] at hphase hmin
  have hrun := encStep_emitMatch hphase hmin
  rw [passTurn_enc] at hrun
  obtain ⟨t, hstep, hframe, henc⟩ := step_onlyEnc hpending hturn hrefused hrun
  exact ⟨t, _, _, hstep, hframe, emittedOffset_floorMod s.enc.bestOff s.enc.wo, hcode,
    fun hopen => henc.trans (withToken_endToken_open false _ _ hopen),
    fun hlast => henc.trans (withToken_endToken_full false _ _ hlast)⟩

end Sys2Proof.Machine
end

section
/-! PROOFS. The encoder's steps follow its loop form (45_encoder_emit.md R247): a search and the emission after it are
one turn of the loop. -/

namespace Sys2Proof.Machine

open Sys2Proof

/-! ### The loop of R247 -/

/-- What every turn of the loop keeps holds of the variables it ends with, whatever the fuel. -/
theorem loopEncodeTokens_keeps {src : Memory} {n k : Nat} {P : LoopEnc → Prop} {l : LoopEnc}
    (hturn : ∀ l, P l → l.sp < windowSize + n → P (loopEncodeToken src n l)) (h : P l) :
    P (loopEncodeTokens src n k l) := by
  induction k generalizing l with
  | zero => exact h
  | succ k ih =>
    unfold loopEncodeTokens
    split
    · next hmore => exact ih (hturn l h hmore)
    · exact h

theorem closeFull_sp (l : LoopEnc) : l.closeFull.sp = l.sp := by
  unfold LoopEnc.closeFull
  split <;> rfl

/-- Every turn covers an input byte at least. -/
theorem loopEncodeToken_sp_lt (src : Memory) (n : Nat) (l : LoopEnc) : l.sp < (loopEncodeToken src n l).sp := by
  obtain ⟨acc, payload, covered, htoken, _, hcovered, _⟩ := addToken_cases src n l (bestMatch src n l.sp)
  rw [loopEncodeToken_eq, closeFull_sp, htoken]
  exact Nat.lt_add_of_pos_right hcovered

/-- A turn of fuel for every byte left is enough to come to the end of the input. -/
theorem loopEncodeTokens_atEnd {src : Memory} {n k : Nat} {l : LoopEnc} (hfuel : windowSize + n ≤ l.sp + k) :
    windowSize + n ≤ (loopEncodeTokens src n k l).sp := by
  induction k generalizing l with
  | zero => exact hfuel
  | succ k ih =>
    unfold loopEncodeTokens
    split
    · have hless := loopEncodeToken_sp_lt src n l
      exact ih (by omega)
    · next hend => exact Nat.not_lt.1 hend

/-! ### Runs of the encoder in a machine where it moves alone -/

/-- Where only the encoder moves, the machine's step is the encoder's. -/
theorem State.encoderAlone.step_eq {s : State} (h : s.encoderAlone) : step s = encStep s := by
  obtain ⟨hpending, hturn, hrefused, hidle⟩ := h
  rw [step_enc hpending hturn hrefused, passTurn_alone (hturn ▸ hidle)]

/-- In the machine `s` the encoder `e` comes to be `e'`. -/
def State.encLeads (s : State) (e e' : Enc) : Prop := ∃ k, State.reaches k (s.setEnc e) (s.setEnc e')

theorem encLeads_refl (s : State) (e : Enc) : s.encLeads e e := ⟨0, reaches_zero.2 rfl⟩

theorem State.encLeads.trans {s : State} {e e' e'' : Enc} (h : s.encLeads e e') (h' : s.encLeads e' e'') :
    s.encLeads e e'' := by
  obtain ⟨j, hj⟩ := h
  obtain ⟨k, hk⟩ := h'
  exact ⟨j + k, reaches_trans hj hk⟩

/-- A step of the encoder, where it moves alone. -/
theorem State.encoderAlone.leads {s : State} {e e' : Enc} (halone : s.encoderAlone)
    (h : encStep (s.setEnc e) = .next (s.setEnc e')) : s.encLeads e e' := by
  have halone' : (s.setEnc e).encoderAlone := halone
  exact ⟨1, reaches_succ.2 ⟨_, halone'.step_eq.trans h, reaches_zero.2 rfl⟩⟩

/-! ### An encoder that holds the loop's variables -/

/-- The loop's variables, as the registers and buffers of the encoder hold them. -/
def Enc.loopVars (e : Enc) : LoopEnc :=
  { sp := e.sp, acc := e.acc, g := e.g.toNat, gbuf := e.gbuf, stream := e.stream }

theorem withToken_loopVars {e : Enc} (isLit : Bool) (payload : List Byte) (covered : Nat)
    (hopen : e.g.toNat < groupSize) : (e.withToken isLit payload covered).loopVars =
      e.loopVars.withToken (e.accShiftIn isLit).acc payload covered := by
  have hcount := accShiftIn_count e isLit hopen
  simp only [Enc.loopVars, Enc.withToken, LoopEnc.withToken, hcount, Enc.accShiftIn_stream]

/-- The end of a token closes a full group as the loop does (R148, R241). -/
theorem endToken_loopVars (e : Enc) : e.endToken.loopVars = e.loopVars.closeFull := by
  rcases endToken_cases e with ⟨hfull, he⟩ | ⟨hopen, he⟩ <;> rw [he]
  · have hg : e.loopVars.g = groupSize := congrArg BitVec.toNat hfull
    rw [LoopEnc.closeFull, if_pos hg]
    rfl
  · have hg : e.loopVars.g ≠ groupSize := BitVec.toNat_ne.1 hopen
    rw [LoopEnc.closeFull, if_neg hg]
    rfl

/-- The final close writes the frame that the loop ends with (R149, R246). -/
theorem finalStep_stream (e : Enc) : e.finalStep.stream = e.loopVars.frame := by
  rcases finalStep_cases e with ⟨hempty, he⟩ | ⟨hopen, he⟩ <;> rw [he]
  · have hg : e.loopVars.g = 0 := congrArg BitVec.toNat hempty
    rw [LoopEnc.frame, if_pos hg]
    rfl
  · have hg : e.loopVars.g ≠ 0 := BitVec.toNat_ne.1 hopen
    rw [LoopEnc.frame, if_neg hg]
    rfl

/-- The loop's literal, in the encoder. -/
theorem withToken_literal_loopVars {e : Enc} {v : Byte} (hok : e.Ok) (hshort : e.bestLen.toNat < minMatch)
    (hv : e.work e.sp = some v) : (e.withToken true [v] 1).loopVars =
      e.loopVars.addToken e.source e.inLen.toNat (e.bestLen.toNat, e.bestOff.toNat) := by
  have hbyte : (workByte e.source e.inLen.toNat e.loopVars.sp).getD 0#8 = v := congrArg (·.getD 0#8) hv
  rw [withToken_loopVars true [v] 1 hok.groupOpen, LoopEnc.addToken, if_neg (Nat.not_le.2 hshort), hbyte]
  rfl

/-- The loop's match, in the encoder. -/
theorem withToken_match_loopVars {e : Enc} (hok : e.Ok) (hlong : minMatch ≤ e.bestLen.toNat) :
    (e.withToken false (encode (Instr.ofOffset (emittedOffset e.bestOff e.wo) (lengthCode e.bestLen)))
      e.bestLen.toNat).loopVars =
      e.loopVars.addToken e.source e.inLen.toNat (e.bestLen.toNat, e.bestOff.toNat) := by
  rw [withToken_loopVars false _ _ hok.groupOpen, LoopEnc.addToken, if_pos hlong, encode_ofOffset]
  simp only [BitVec.ofNat_toNat, BitVec.setWidth_eq]
  rfl

/-- The emission after a search is a turn of the loop (R240, R241, R247). -/
theorem encStep_emit_follows {s : State} (hok : s.enc.Ok) (hphase : s.enc.phase = .emit) :
    ∃ e, encStep s = .next (s.setEnc e) ∧ e.phase = .search ∧
      e.loopVars = loopEncodeToken s.enc.source s.enc.inLen.toNat s.enc.loopVars := by
  obtain ⟨hsp, hbest⟩ := hok.searched hphase
  have hturn : loopEncodeToken s.enc.source s.enc.inLen.toNat s.enc.loopVars =
      (s.enc.loopVars.addToken s.enc.source s.enc.inLen.toNat
        (s.enc.bestLen.toNat, s.enc.bestOff.toNat)).closeFull := by
    rw [loopEncodeToken_eq, hbest]
    rfl
  rw [hturn]
  rcases Nat.lt_or_ge s.enc.bestLen.toNat minMatch with hshort | hlong
  · obtain ⟨v, hv⟩ := Option.isSome_iff_exists.1 (work_isSome hsp)
    refine ⟨_, encStep_emitLit hphase hshort hv, rfl, ?_⟩
    rw [endToken_loopVars, withToken_literal_loopVars hok hshort hv]
  · refine ⟨_, encStep_emitMatch hphase hlong, rfl, ?_⟩
    rw [endToken_loopVars, withToken_match_loopVars hok hlong]

/-- A good encoder about to search, for an input of `n` bytes in `src`, that holds the loop's variables. -/
structure Enc.Searching (e : Enc) (src : Memory) (n : Nat) (l : LoopEnc) : Prop where
  ok : e.Ok
  phase : e.phase = .search
  source : e.source = src
  inLen : e.inLen.toNat = n
  vars : e.loopVars = l

section
variable {s : State} {e : Enc} {src : Memory} {n : Nat} {l : LoopEnc}

/-- Before the end of the input, a search and its emission are one turn of the loop. -/
theorem Enc.Searching.turn (halone : s.encoderAlone) (h : e.Searching src n l) (hmore : l.sp < windowSize + n) :
    ∃ e', s.encLeads e e' ∧ e'.Searching src n (loopEncodeToken src n l) := by
  obtain ⟨hok, hphase, rfl, rfl, rfl⟩ := h
  have hsp : e.sp ≠ windowSize + e.inLen.toNat := hmore.ne
  have hsearch := encStep_search_before_end (s := s.setEnc e) hphase hsp
  have hok₁ : Enc.Ok { e.search with phase := .emit } := hok.search hsp
  obtain ⟨e', hemit, hphase', hvars⟩ :=
    encStep_emit_follows (s := s.setEnc { e.search with phase := .emit }) hok₁ rfl
  have hcase : EncCase (s.setEnc { e.search with phase := .emit }) (.next (s.setEnc e')) :=
    hemit ▸ encStep_case (s.setEnc { e.search with phase := .emit })
  have hforward := hcase.forward
  exact ⟨e', (halone.leads hsearch).trans (halone.leads hemit), hcase.keeps_ok hok₁, hphase', hforward.source_eq,
    congrArg BitVec.toNat hforward.inLen_eq, hvars⟩

/-- The whole loop, followed. -/
theorem loopEncodeTokens_followed (k : Nat) (halone : s.encoderAlone) (h : e.Searching src n l) :
    ∃ e', s.encLeads e e' ∧ e'.Searching src n (loopEncodeTokens src n k l) := by
  refine loopEncodeTokens_keeps (P := fun l' => ∃ e', s.encLeads e e' ∧ e'.Searching src n l') ?_
    ⟨e, encLeads_refl s e, h⟩
  intro l' ⟨e', hrun, h'⟩ hmore
  obtain ⟨e'', hrun', h''⟩ := h'.turn halone hmore
  exact ⟨e'', hrun.trans hrun', h''⟩

/-- At the end of the input the final close follows, and the frame is written (R211, R246). -/
theorem Enc.Searching.toDone (halone : s.encoderAlone) (h : e.Searching src n l) (hend : windowSize + n ≤ l.sp) :
    ∃ e', s.encLeads e e' ∧ e'.phase = .done ∧ e'.stream = l.frame := by
  obtain ⟨hok, hphase, rfl, rfl, rfl⟩ := h
  have hsp : e.sp = windowSize + e.inLen.toNat := Nat.le_antisymm hok.spInside.2 hend
  have hsearch := encStep_search_atEnd (s := s.setEnc e) hphase hsp
  have hfinal : encStep (s.setEnc { e with phase := .final }) =
      .next (s.setEnc (Enc.finalStep { e with phase := .final })) := rfl
  exact ⟨_, (halone.leads hsearch).trans (halone.leads hfinal), rfl, finalStep_stream _⟩

end

/-! ### The call -/

/-- After its header the started encoder holds the variables that the loop starts with (R166, R292). -/
theorem start_searching {src : List Byte} (hlen : src.length < 2 ^ 32) :
    (Enc.start src).writeHeader.Searching (memOfBytes .source 0 src) src.length (LoopEnc.start src) where
  ok := by
    have hregisters : (Enc.start src).writeHeader.RegistersOk := { (enc_start_ok src hlen).registers with }
    exact hregisters.ok rfl (by decide : (0#4).toNat < groupSize) trivial
  phase := rfl
  source := rfl
  inLen := (BitVec.toNat_ofNat _ _).trans (Nat.mod_eq_of_lt hlen)
  vars := rfl

/-- A started call ends with the frame of the loop form. -/
theorem start_leads_to_frame {s : State} {src : List Byte} (halone : s.encoderAlone) (hlen : src.length < 2 ^ 32) :
    ∃ e, s.encLeads (Enc.start src) e ∧ e.phase = .done ∧ e.stream = loopEncode src := by
  have hheader := halone.leads (encStep_hdr (s := s.setEnc (Enc.start src)) rfl)
  obtain ⟨e₁, htokens, hsearching⟩ := loopEncodeTokens_followed src.length halone (start_searching hlen)
  obtain ⟨e, hdone, hphase, hstream⟩ := hsearching.toDone halone (loopEncodeTokens_atEnd le_rfl)
  exact ⟨e, (hheader.trans htokens).trans hdone, hphase, hstream.trans (loopEncode_eq_frame src).symm⟩

/-- Settles O57: the start is performed, and the call it begins follows the loop form to its frame. -/
theorem encoderEqualsItsLoopForm : Obligations.EncoderEqualsItsLoopForm := by
  intro s src hpending hturn hbusy hmoves hlen
  have hstart : step s = .next (State.beginEnc { s with pending := [] } (Enc.start src)) :=
    (step_command hpending).trans (performCommand_encStart hbusy hlen)
  have halone : (State.beginEnc { s with pending := [] } (Enc.start src)).encoderAlone :=
    ⟨rfl, hturn, rfl, hmoves⟩
  obtain ⟨e, ⟨k, hrun⟩, hphase, hstream⟩ := start_leads_to_frame halone (hlen.trans_lt s.cfg.encMaxIn.isLt)
  refine ⟨k + 1, _, reaches_succ.2 ⟨_, hstart, hrun⟩, ?_⟩
  simp [State.encResult, hphase, hstream]

end Sys2Proof.Machine
end

section
/-! PROOFS. Decoding what the encoder produced gives the input back (45_encoder_emit.md R248): turn by turn, the loop
form of the decoder reads the encoder's tokens back as the input bytes that they cover. -/

namespace Sys2Proof.Machine

open Sys2Proof

/-! ### The decoder's loop with its output so far -/

/-- The variables of the decoder's loop with `ip` bytes of the frame taken and the bytes `ys` produced: the window is
the one they have been pushed to (R126, R190). -/
def LoopDec.having (ip : Nat) (ys : List Byte) : LoopDec :=
  { ip := ip, wp := (Dec.reset.pushed ys).wp, win := (Dec.reset.pushed ys).window, out := ys }

theorem having_emit (ip : Nat) (ys : List Byte) (v : Byte) :
    (LoopDec.having ip ys).emit v = LoopDec.having ip (ys ++ [v]) := by
  have hwp := Nat.mod_eq_of_lt (Dec.reset.pushed ys).wp.isLt
  simp only [LoopDec.having, LoopDec.emit, pushed_concat, Dec.winPush_wp, Dec.winPush_window, hwp]

/-- One more input byte produced. -/
theorem having_take_emit {src : List Byte} {q : Nat} {v : Byte} (ip : Nat) (hv : src[q]? = some v) :
    (LoopDec.having ip (src.take q)).emit v = LoopDec.having ip (src.take (q + 1)) := by
  rw [having_emit, List.take_add_one, hv]
  rfl

/-- The decoder reads in its window the byte of the working buffer that stands at most a window before the next one
(R44, R126). -/
theorem having_take_read {src : List Byte} {q a : Nat} {rp : Addr10} (ip : Nat) (hq : q ≤ src.length)
    (hfrom : q ≤ a) (hbelow : a < windowSize + q) (hrp : rp.toNat = a % windowSize) :
    some ((memRead .window (LoopDec.having ip (src.take q)).win rp.toNat).getD 0#8) =
      workByte (memOfBytes .source 0 src) src.length a := by
  rw [hrp]
  exact pushed_take_winRead Dec.reset hq hfrom hbelow

/-! ### One token -/

/-- Copying from where the encoder found the next `k` input bytes produces them (R186, R213). -/
theorem loopCopy_of_agree {src : List Byte} {ip k q cand : Nat} {rp : Addr10} (hcand : cand < windowSize)
    (hrp : rp.toNat = (q + cand) % windowSize) (hend : q + k ≤ src.length)
    (hagree : ∀ j < k, workByte (memOfBytes .source 0 src) src.length (q + cand + j) =
      workByte (memOfBytes .source 0 src) src.length (windowSize + q + j)) :
    loopCopy src.length k rp (LoopDec.having ip (src.take q)) = .ok (LoopDec.having ip (src.take (q + k))) := by
  induction k generalizing q rp with
  | zero => rfl
  | succ k ih =>
    have hq : q < src.length := by omega
    have howed : (LoopDec.having ip (src.take q)).out.length ≠ src.length :=
      ((List.length_take_of_le hq.le).trans_lt hq).ne
    have hread := (having_take_read ip hq.le (Nat.le_add_right q cand) (by omega) hrp).trans
      (hagree 0 (Nat.succ_pos k))
    rw [Nat.add_zero, workByte_of_input hq] at hread
    have hrp' : (inc10 rp).toNat = (q + 1 + cand) % windowSize := by
      rw [inc10_toNat, hrp, Nat.mod_add_mod, Nat.add_right_comm]
    rw [loopCopy, if_neg howed, having_take_emit ip hread.symm, Nat.add_comm k 1, ← Nat.add_assoc]
    refine ih hrp' (by omega) fun j hj => ?_
    have hnext := hagree (j + 1) (Nat.succ_lt_succ hj)
    rwa [show q + cand + (j + 1) = q + 1 + cand + j by omega,
      show windowSize + q + (j + 1) = windowSize + (q + 1) + j by omega] at hnext

/-- A token of this flag and payload, wherever it stands in a frame, decodes to the input bytes from `q` up to `q'`. -/
def TokenDecodes (src : List Byte) (isLit : Bool) (payload : List Byte) (q q' : Nat) : Prop :=
  ∀ (before after : List Byte) (c : Byte), c.getLsbD 0 = isLit →
    loopToken (before ++ (payload ++ after)) src.length c (LoopDec.having before.length (src.take q)) =
      .ok (LoopDec.having (before.length + payload.length) (src.take q'))

theorem literal_decodes {src : List Byte} {q : Nat} {v : Byte} (hv : src[q]? = some v) :
    TokenDecodes src true [v] q (q + 1) := by
  intro before after c hflag
  have hbyte : (before ++ ([v] ++ after))[before.length]? = some v := by simp
  rw [loopToken_literal hflag hbyte]
  exact congrArg Except.ok (having_take_emit (before.length + 1) hv)

/-- The decoder takes back the encoder's bias and length code, and copies what the search compared (R98, R185, R213). -/
theorem match_decodes {src : List Byte} {q : Nat} {bestOff : Addr10} {bestLen : BitVec 7}
    (hmin : minMatch ≤ bestLen.toNat) (hmax : bestLen.toNat ≤ encMaxMatch) (hend : q + bestLen.toNat ≤ src.length)
    (hagree : ∀ j < bestLen.toNat, workByte (memOfBytes .source 0 src) src.length (q + bestOff.toNat + j) =
      workByte (memOfBytes .source 0 src) src.length (windowSize + q + j)) :
    TokenDecodes src false (encode (Instr.ofOffset (emittedOffset bestOff q) (lengthCode bestLen)))
      q (q + bestLen.toNat) := by
  intro before after c hflag
  have hpayload : encode (Instr.ofOffset (emittedOffset bestOff q) (lengthCode bestLen)) =
      [(emittedOffset bestOff q).extractLsb' 0 8, (emittedOffset bestOff q).extractLsb' 8 2 ++ lengthCode bestLen] :=
    congrArg (fun b2 : Byte => [_, b2]) (matchSecondByte_eq_append _ _)
  rw [hpayload, loopToken_match (b1 := (emittedOffset bestOff q).extractLsb' 0 8)
      (b2 := (emittedOffset bestOff q).extractLsb' 8 2 ++ lengthCode bestLen) hflag (by simp [LoopDec.having])
      (by simp [LoopDec.having]),
    BitVec.extractLsb'_append_eq_left, BitVec.extractLsb'_append_eq_right, matchLength_lengthCode hmin hmax,
    rawOffset_extract]
  have hrp : (readPosition (emittedOffset bestOff q)).toNat = (q + bestOff.toNat) % windowSize := by
    rw [readPosition_emittedOffset, Nat.add_comm]
  exact loopCopy_of_agree bestOff.isLt hrp hend hagree

/-- A flag shifted into the accumulator (R146). -/
def shiftIn (acc : Byte) (isLit : Bool) : Byte := if isLit then (acc >>> 1) ||| 0x80#8 else acc >>> 1

theorem shiftIn_getLsbD (acc : Byte) (isLit : Bool) (i : Nat) :
    (shiftIn acc isLit).getLsbD i = if i = 7 then isLit else acc.getLsbD (i + 1) :=
  accShiftIn_getLsbD { Enc.reset with acc := acc } isLit i

/-- The token of a turn decodes to the input bytes it covers (R240 to R243). -/
theorem addToken_decodes {src : List Byte} {l : LoopEnc} {q : Nat} (hsp : l.sp = windowSize + q)
    (hmore : q < src.length) :
    ∃ isLit payload covered,
      l.addToken (memOfBytes .source 0 src) src.length (bestMatch (memOfBytes .source 0 src) src.length l.sp) =
        l.withToken (shiftIn l.acc isLit) payload covered ∧
      1 ≤ covered ∧ q + covered ≤ src.length ∧ TokenDecodes src isLit payload q (q + covered) := by
  have hbytes := matchLengthIsTheLongestRun (memOfBytes .source 0 src) src.length l.sp
  have hlongest := bestMatch_firstLongest (memOfBytes .source 0 src) src.length l.sp
  have hmax := bestMatch_length_le (memOfBytes .source 0 src) src.length l.sp
  have hinside := bestMatch_length_inside (src := memOfBytes .source 0 src) (n := src.length) (sp := l.sp) (by omega)
  have hwo : l.sp - windowSize = q := by omega
  generalize bestMatch (memOfBytes .source 0 src) src.length l.sp = best at *
  unfold LoopEnc.addToken
  split
  · next hmin =>
    obtain ⟨hoff, hlen, _⟩ := hlongest.attained ((by decide : 0 < minMatch).trans_le hmin)
    obtain ⟨_, hagree, _⟩ := hbytes best.2
    have hlen' : (BitVec.ofNat 7 best.1).toNat = best.1 :=
      (BitVec.toNat_ofNat _ _).trans (Nat.mod_eq_of_lt (hmax.trans_lt (by decide)))
    have hoff' : (BitVec.ofNat 10 best.2).toNat = best.2 := (BitVec.toNat_ofNat _ _).trans (Nat.mod_eq_of_lt hoff)
    have hdecodes := match_decodes (src := src) (q := q) (bestOff := BitVec.ofNat 10 best.2)
      (bestLen := BitVec.ofNat 7 best.1) (by rwa [hlen']) (by rwa [hlen']) (by rw [hlen']; omega)
      (by rwa [hlen', hoff', ← hsp, ← hwo, ← hlen])
    rw [encode_ofOffset, hlen', ← hwo] at hdecodes
    exact ⟨false, _, best.1, rfl, (by decide : 1 ≤ minMatch).trans hmin, by omega, hwo ▸ hdecodes⟩
  · have hbyte := workByte_of_input hmore
    rw [← hsp, List.getElem?_eq_getElem hmore] at hbyte
    rw [hbyte]
    exact ⟨true, _, 1, rfl, le_rfl, hmore, literal_decodes (List.getElem?_eq_getElem hmore)⟩

/-! ### The tokens of a group -/

/-- The first `g` flags of the control byte `c` are the `g` flags in the accumulator, which fill it from the top
(R147). -/
def FlagsPacked (c acc : Byte) (g : Nat) : Prop := ∀ i < g, c.getLsbD i = acc.getLsbD (groupSize - g + i)

theorem flagsPacked_full (acc : Byte) : FlagsPacked acc acc groupSize := fun i _ => by
  rw [Nat.sub_self, Nat.zero_add]

/-- The alignment of the last control byte brings its flags to the bottom (R149). -/
theorem flagsPacked_aligned (acc : Byte) (g : Nat) : FlagsPacked (acc >>> (groupSize - g)) acc g := fun i _ =>
  BitVec.getLsbD_ushiftRight acc (groupSize - g) i

/-- With one more flag shifted in, the flags before it are still the first, and it is the next. -/
theorem FlagsPacked.of_shiftIn {c acc : Byte} {isLit : Bool} {g : Nat} (h : FlagsPacked c (shiftIn acc isLit) (g + 1))
    (hg : g < groupSize) : FlagsPacked c acc g ∧ c.getLsbD g = isLit := by
  simp only [FlagsPacked, shiftIn_getLsbD, groupSize] at h hg ⊢
  refine ⟨fun i hi => ?_, (h g (Nat.lt_succ_self g)).trans (if_pos (by omega))⟩
  rw [h i (Nat.lt_succ_of_lt hi), if_neg (by omega)]
  congr 1
  omega

/-- The payloads `gbuf` of `g` tokens with these flags, wherever they stand in a frame, decode to the input bytes from
`q` up to `q'`. -/
def TokensDecode (src : List Byte) (acc : Byte) (g : Nat) (gbuf : List Byte) (q q' : Nat) : Prop :=
  ∀ (before after : List Byte) (c : Byte) (k : Nat), FlagsPacked c acc g →
    loopTokens (before ++ (gbuf ++ after)) src.length (g + k) c (LoopDec.having before.length (src.take q)) =
      loopTokens (before ++ (gbuf ++ after)) src.length k (c >>> g)
        (LoopDec.having (before.length + gbuf.length) (src.take q'))

theorem tokensDecode_nil (src : List Byte) (q : Nat) : TokensDecode src 0#8 0 [] q q := by
  intro before after c k _
  rw [Nat.zero_add, BitVec.ushiftRight_zero]
  rfl

theorem loopTokens_of_token {frame : List Byte} {n k : Nat} {c : Byte} {l l' : LoopDec} (howed : l.out.length ≠ n)
    (htoken : loopToken frame n c l = .ok l') : loopTokens frame n (k + 1) c l = loopTokens frame n k (c >>> 1) l' := by
  simp only [loopTokens, if_neg howed, htoken]

theorem loopTokens_of_full {frame : List Byte} {n k : Nat} {c : Byte} {l : LoopDec} (hfull : l.out.length = n) :
    loopTokens frame n k c l = .ok l := by
  cases k with
  | zero => rfl
  | succ k => exact if_pos hfull

/-- One more token. -/
theorem TokensDecode.snoc {src gbuf payload : List Byte} {acc : Byte} {isLit : Bool} {g q q' q'' : Nat}
    (h : TokensDecode src acc g gbuf q q') (htoken : TokenDecodes src isLit payload q' q'') (hg : g < groupSize)
    (hmore : q' < src.length) : TokensDecode src (shiftIn acc isLit) (g + 1) (gbuf ++ payload) q q'' := by
  intro before after c k hflags
  obtain ⟨hbefore, hflag⟩ := hflags.of_shiftIn hg
  have htokens := h before (payload ++ after) c (1 + k) hbefore
  have howed : (LoopDec.having (before.length + gbuf.length) (src.take q')).out.length ≠ src.length :=
    ((List.length_take_of_le hmore.le).trans_lt hmore).ne
  have hbit : (c >>> g).getLsbD 0 = isLit := (BitVec.getLsbD_ushiftRight c g 0).trans hflag
  have hlast := htoken (before ++ gbuf) after (c >>> g) hbit
  simp only [List.append_assoc, List.length_append, ← Nat.add_assoc] at htokens hlast ⊢
  rw [htokens, Nat.add_comm 1 k, loopTokens_of_token howed hlast, BitVec.shiftRight_add]

/-! ### The groups of a frame -/

/-- The stream so far, the header and whole groups, decodes to the first `q` input bytes, whatever follows it. -/
def GroupsDecode (src stream : List Byte) (q : Nat) : Prop :=
  ∃ groups ≤ stream.length, ∀ (after : List Byte) (k : Nat),
    loopGroups (stream ++ after) src.length (groups + k) LoopDec.start =
      loopGroups (stream ++ after) src.length k (LoopDec.having stream.length (src.take q))

theorem groupsDecode_header (src : List Byte) : GroupsDecode src (LoopEnc.start src).stream 0 :=
  ⟨0, Nat.zero_le _, fun _ k => by rw [Nat.zero_add]; rfl⟩

/-- A group decodes as its tokens do, if they are eight or the last of the input. -/
theorem TokensDecode.group {src gbuf : List Byte} {acc : Byte} {g q q' : Nat} (h : TokensDecode src acc g gbuf q q')
    (hg : g ≤ groupSize) (hlast : g = groupSize ∨ q' = src.length) (before after : List Byte) {c : Byte}
    (hflags : FlagsPacked c acc g) :
    loopTokens (before ++ (gbuf ++ after)) src.length groupSize c (LoopDec.having before.length (src.take q)) =
      .ok (LoopDec.having (before.length + gbuf.length) (src.take q')) := by
  have htokens := h before after c (groupSize - g) hflags
  rw [Nat.add_sub_cancel' hg] at htokens
  rw [htokens]
  rcases hlast with rfl | rfl
  · rfl
  · exact loopTokens_of_full (by rw [LoopDec.having, List.take_length])

theorem loopGroups_of_tokens {frame : List Byte} {n k : Nat} {c : Byte} {l l' : LoopDec} (howed : l.out.length < n)
    (hc : frame[l.ip]? = some c) (htokens : loopTokens frame n groupSize c { l with ip := l.ip + 1 } = .ok l') :
    loopGroups frame n (k + 1) l = loopGroups frame n k l' := by
  simp only [loopGroups, if_pos howed, hc, htokens]

/-- One more group. -/
theorem GroupsDecode.snoc {src stream gbuf : List Byte} {acc c : Byte} {g q q' : Nat} (h : GroupsDecode src stream q)
    (htokens : TokensDecode src acc g gbuf q q') (hflags : FlagsPacked c acc g) (hg : g ≤ groupSize)
    (hlast : g = groupSize ∨ q' = src.length) (howed : q < src.length) :
    GroupsDecode src (stream ++ c :: gbuf) q' := by
  obtain ⟨groups, hgroups, hdecode⟩ := h
  refine ⟨groups + 1, by rw [List.length_append, List.length_cons]; omega, fun after k => ?_⟩
  have hbefore := hdecode (c :: gbuf ++ after) (1 + k)
  have hgroup := htokens.group hg hlast (stream ++ [c]) after hflags
  have howed' : (LoopDec.having stream.length (src.take q)).out.length < src.length :=
    (List.length_take_of_le howed.le).trans_lt howed
  have hc : (stream ++ (c :: gbuf ++ after))[stream.length]? = some c := by simp
  simp only [List.append_assoc, List.length_append, List.length_cons, List.length_nil, List.cons_append,
    List.nil_append, Nat.zero_add] at hbefore hgroup hc ⊢
  rw [Nat.add_assoc, hbefore, Nat.add_comm 1 k, loopGroups_of_tokens howed' hc hgroup, Nat.add_assoc,
    Nat.add_comm 1]

/-- Where all of the input is decoded the decoder's loop ends (R190). -/
theorem GroupsDecode.loopGroups_eq {src frame : List Byte} (h : GroupsDecode src frame src.length) :
    loopGroups frame src.length (frame.length + 1) LoopDec.start = .ok (LoopDec.having frame.length src) := by
  obtain ⟨groups, hgroups, hdecode⟩ := h
  have hfuel : frame.length + 1 = groups + (frame.length - groups + 1) := by omega
  have hframe := hdecode [] (frame.length - groups + 1)
  rw [List.append_nil, ← hfuel, List.take_length] at hframe
  exact hframe.trans (if_neg (Nat.lt_irrefl _))

/-! ### The encoder's loop -/

/-- What the encoder's loop has written so far decodes to what it has covered: its closed groups to the first `q` input
bytes, the tokens of its open group to the bytes from there to the source cursor. -/
structure LoopEnc.Decodable (src : List Byte) (q : Nat) (l : LoopEnc) : Prop where
  header : (LoopEnc.start src).stream <+: l.stream
  groups : GroupsDecode src l.stream q
  tokens : TokensDecode src l.acc l.g l.gbuf q (l.sp - windowSize)
  covered : windowSize + q + l.g ≤ l.sp
  groupEmpty : l.g = 0 → l.sp = windowSize + q
  spInside : l.sp ≤ windowSize + src.length

section
variable {src : List Byte} {q : Nat} {l : LoopEnc}

theorem start_decodable (src : List Byte) : (LoopEnc.start src).Decodable src 0 where
  header := ⟨[], List.append_nil _⟩
  groups := groupsDecode_header src
  tokens := by
    rw [show (LoopEnc.start src).sp - windowSize = 0 from Nat.sub_self _]
    exact tokensDecode_nil src 0
  covered := le_rfl
  groupEmpty _ := rfl
  spInside := Nat.le_add_right _ _

theorem LoopEnc.Decodable.withToken {isLit : Bool} {payload : List Byte} {covered : Nat} (h : l.Decodable src q)
    (hg : l.g < groupSize) (hmore : l.sp < windowSize + src.length) (hcovered : 1 ≤ covered)
    (hend : l.sp + covered ≤ windowSize + src.length)
    (htoken : TokenDecodes src isLit payload (l.sp - windowSize) (l.sp - windowSize + covered)) :
    (l.withToken (shiftIn l.acc isLit) payload covered).Decodable src q where
  header := h.header
  groups := h.groups
  tokens := by
    have hsp : l.sp + covered - windowSize = l.sp - windowSize + covered := by
      have := h.covered
      omega
    simp only [LoopEnc.withToken, hsp]
    exact h.tokens.snoc htoken hg (by omega)
  covered := by
    have := h.covered
    simp only [LoopEnc.withToken]
    omega
  groupEmpty := nofun
  spInside := hend

/-- The open group, closed with a control byte that has its flags, is one more group. -/
theorem LoopEnc.Decodable.group {c : Byte} (h : l.Decodable src q) (hflags : FlagsPacked c l.acc l.g)
    (hpos : 0 < l.g) (hg : l.g ≤ groupSize) (hlast : l.g = groupSize ∨ l.sp - windowSize = src.length) :
    (LoopEnc.start src).stream <+: l.stream ++ c :: l.gbuf ∧
      GroupsDecode src (l.stream ++ c :: l.gbuf) (l.sp - windowSize) := by
  have howed : q < src.length := by
    have := h.covered
    have := h.spInside
    omega
  exact ⟨h.header.trans ⟨_, rfl⟩, h.groups.snoc h.tokens hflags hg hlast howed⟩

/-- The closing of a full group (R148). -/
theorem LoopEnc.Decodable.closeFull (h : l.Decodable src q) (hg : l.g ≤ groupSize) :
    (∃ q', l.closeFull.Decodable src q') ∧ l.closeFull.g < groupSize := by
  unfold LoopEnc.closeFull
  split
  · next hfull =>
    have hflags : FlagsPacked l.acc l.acc l.g := hfull ▸ flagsPacked_full l.acc
    obtain ⟨hheader, hgroups⟩ := h.group hflags (by rw [hfull]; decide) hg (.inl hfull)
    have hsp : l.sp = windowSize + (l.sp - windowSize) := by
      have := h.covered
      omega
    exact ⟨⟨l.sp - windowSize, hheader, hgroups, tokensDecode_nil src _, (Nat.add_zero _).trans_le hsp.ge,
      fun _ => hsp, h.spInside⟩, (by decide : 0 < groupSize)⟩
  · next hopen => exact ⟨⟨q, h⟩, lt_of_le_of_ne hg hopen⟩

/-- A turn of the encoder's loop. -/
theorem LoopEnc.Decodable.turn (h : l.Decodable src q) (hg : l.g < groupSize)
    (hmore : l.sp < windowSize + src.length) :
    (∃ q', (loopEncodeToken (memOfBytes .source 0 src) src.length l).Decodable src q') ∧
      (loopEncodeToken (memOfBytes .source 0 src) src.length l).g < groupSize := by
  have hcovered := h.covered
  obtain ⟨isLit, payload, covered, htoken, hpos, hend, hdecodes⟩ :=
    addToken_decodes (src := src) (l := l) (q := l.sp - windowSize) (by omega) (by omega)
  rw [loopEncodeToken_eq, htoken]
  exact (h.withToken hg hmore hpos (by omega) hdecodes).closeFull hg

/-- The final close (R149). -/
theorem LoopEnc.Decodable.frame (h : l.Decodable src q) (hg : l.g < groupSize)
    (hend : windowSize + src.length ≤ l.sp) :
    (LoopEnc.start src).stream <+: l.frame ∧ GroupsDecode src l.frame src.length := by
  have hsp : l.sp - windowSize = src.length := by
    have := h.spInside
    omega
  unfold LoopEnc.frame
  split
  · next hempty =>
    obtain rfl : q = src.length := by
      have := h.groupEmpty hempty
      omega
    exact ⟨h.header, h.groups⟩
  · next hopen =>
    rw [← hsp]
    exact h.group (flagsPacked_aligned l.acc l.g) (Nat.pos_of_ne_zero hopen) hg.le (.inr hsp)

end

/-! ### The whole frame -/

/-- The frame of the loop form begins with its header, and its groups decode to the whole input. -/
theorem loopEncode_decodes (src : List Byte) :
    (LoopEnc.start src).stream <+: loopEncode src ∧ GroupsDecode src (loopEncode src) src.length := by
  have hkept := loopEncodeTokens_keeps (src := memOfBytes .source 0 src) (k := src.length)
    (P := fun l => (∃ q, l.Decodable src q) ∧ l.g < groupSize) (fun l ⟨⟨_, h⟩, hg⟩ => h.turn hg)
    ⟨⟨0, start_decodable src⟩, (by decide : 0 < groupSize)⟩
  obtain ⟨⟨q, hdecodable⟩, hopen⟩ := hkept
  rw [loopEncode_eq_frame]
  exact hdecodable.frame hopen (loopEncodeTokens_atEnd le_rfl)

/-- A header of version 1 whose length is accepted leaves the groups to decode (R162, R190). -/
theorem loopDecode_of_header {decMaxOut len : Word32} (body : List Byte) (haccepted : ¬ decMaxOut < len) :
    loopDecode decMaxOut (be32Bytes len ++ be32Bytes 1#32 ++ body) =
      loopOutcome (loopGroups (be32Bytes len ++ be32Bytes 1#32 ++ body) len.toNat
        ((be32Bytes len ++ be32Bytes 1#32 ++ body).length + 1) LoopDec.start) := by
  simp only [be32Bytes, List.cons_append, List.nil_append, loopDecode, be32_be32Bytes, ne_eq, not_true_eq_false,
    if_false, if_neg haccepted, LoopDec.start]
  generalize loopGroups _ _ _ _ = r
  cases r <;> rfl

/-- R248 (c), of the two loop forms. -/
theorem loopDecode_loopEncode {decMaxOut : Word32} {src : List Byte} (hout : src.length ≤ decMaxOut.toNat) :
    loopDecode decMaxOut (loopEncode src) = .done src (loopEncode src).length := by
  obtain ⟨⟨body, hbody⟩, hgroups⟩ := loopEncode_decodes src
  have hlen : (BitVec.ofNat 32 src.length).toNat = src.length :=
    (BitVec.toNat_ofNat _ _).trans (Nat.mod_eq_of_lt (hout.trans_lt decMaxOut.isLt))
  have haccepted : ¬ decMaxOut < BitVec.ofNat 32 src.length := by rwa [BitVec.lt_def, hlen, Nat.not_lt]
  have hdecode := loopDecode_of_header body haccepted
  have hheader : be32Bytes (BitVec.ofNat 32 src.length) ++ be32Bytes 1#32 ++ body = loopEncode src := hbody
  rw [hheader, hlen, hgroups.loopGroups_eq] at hdecode
  exact hdecode

/-- Settles O60: the encode call ends with the frame of its loop form (O57), and a decode call of it as the decoder's
loop form says (O56). -/
theorem decodingAnEncodedInputGivesItBack : Obligations.DecodingAnEncodedInputGivesItBack := by
  intro s src hpending hturn hbusy hmoves hin hout
  obtain ⟨k, t, hrun, hresult⟩ := encoderEqualsItsLoopForm s src hpending hturn hbusy hmoves hin
  refine ⟨k, t, loopEncode src, hrun, hresult, fun r hpending' hturn' hbusy' hmoves' hcfg => ?_⟩
  obtain ⟨hdone, _, _⟩ := decoderEqualsItsLoopForm r (loopEncode src) hpending' hturn' hbusy' hmoves'
  exact hdone src _ (loopDecode_loopEncode (hcfg ▸ hout))

end Sys2Proof.Machine
end

section
/-! PROOFS. Faults: every way into `FAULT` and every way out of it (60_exceptions.md). -/

namespace Sys2Proof.Machine

open Sys2Proof

/-! ### What a step of the machine does to the decoder -/

/-- A command leaves the decoder as it is, unless it is an accepted start of the decoder or its abort (R50). -/
theorem CommandCase.dec_cases {c : Command} {s t : State} (h : CommandCase s c t) :
    t.dec = s.dec ∨ (∃ frame, c = .decStart frame ∧ t.dec = Dec.start frame) ∨
      (c = .decAbort ∧ t.dec = Dec.reset) := by
  cases h with
  | decBusy | encBusy | encTooLong | encStart | encAbort => exact .inl rfl
  | decStart frame => exact .inr (.inl ⟨frame, rfl, rfl⟩)
  | decAbort => exact .inr (.inr ⟨rfl, rfl⟩)

/-- Said once: a step keeps the decoder, begins a call of it, resets it, or is its own step, taken only with no call
of it refused. -/
theorem step_dec_cases {s t : State} (h : step s = .next t) :
    t.dec = s.dec ∨ (∃ frame cs, s.pending = .decStart frame :: cs ∧ t.dec = Dec.start frame) ∨
      (∃ cs, s.pending = .decAbort :: cs ∧ t.dec = Dec.reset) ∨
      (s.decRefused = none ∧ DecCase s.passTurn (.next t)) := by
  rcases step_cases s with ⟨c, cs, hp, hs⟩ | ⟨_, _, hr, hd⟩ | ⟨hp, ht, _, _⟩ | ⟨r, _, _, hs⟩
  · rcases (performCommand_case (hs.symm.trans h)).dec_cases with hkeep | ⟨frame, rfl, hstart⟩ | ⟨rfl, hreset⟩
    · exact .inl hkeep
    · exact .inr (.inl ⟨frame, cs, hp, hstart⟩)
    · exact .inr (.inr (.inl ⟨cs, hp, hreset⟩))
  · exact .inr (.inr (.inr ⟨hr, h ▸ hd⟩))
  · exact .inl (step_keeps_dec hp ht h).1
  · rw [hs] at h
    split at h
    · exact .inl (Host.Outcome.next.inj h ▸ passTurn_dec s)
    · cases h

/-! ### Taking a fault -/

/-- Every raise of a decoder's step: `RaiseCase d k d'` says that from the decoder `d` fault `k` is raised, at the
moment when the decoder is `d'` (R260 to R265). -/
inductive RaiseCase (d : Dec) : Cause → Dec → Prop where
  /-- R162 sub-step 1. -/
  | shortHeader : d.phase = .hdr → d.inLen < headerLength → RaiseCase d .truncatedStream d
  /-- R162 sub-steps 4, 5, R261. -/
  | badVersion (v : Word32) : d.phase = .hdr → headerLength ≤ d.inLen → v ≠ 1#32 →
      RaiseCase d .formatError { d with version := v }
  /-- R141, R182, R184, R262: no byte left. -/
  | endOfInput : d.phase = .ctrl ∨ d.phase = .token → d.op ≠ d.outLen.toNat → d.inLen ≤ d.ip →
      RaiseCase d .truncatedStream d
  /-- R184, R265: `b2` is missing, `b1` is loaded and `ip` past it. -/
  | halfMatch (b1 : Byte) : d.phase = .token → d.op ≠ d.outLen.toNat → d.ip + 1 = d.inLen →
      RaiseCase d .truncatedStream { d.advance 1 with b1 := b1 }
  /-- R186, R263. -/
  | overrun : d.phase = .copy → d.cnt ≠ 0#7 → d.op = d.outLen.toNat → RaiseCase d .outputOverrun d

/-- A step of the decoder into `FAULT` is a raise; the other steps keep the phase or lead to another one. -/
theorem DecCase.raises {s t : State} (h : DecCase s (.next t)) (hs : s.dec.phase ≠ .fault)
    (ht : t.dec.phase = .fault) : ∃ k d, RaiseCase s.dec k d ∧ t = s.setDec (d.raise k) := by
  cases h with
  | shortHeader hp hshort => exact ⟨_, _, .shortHeader hp hshort, rfl⟩
  | badVersion _ v hp hlen _ hv => exact ⟨_, _, .badVersion v hp hlen hv, rfl⟩
  | truncated hp howed hend => exact ⟨_, _, .endOfInput hp howed hend, rfl⟩
  | halfMatch b1 hp howed _ _ hlast => exact ⟨_, _, .halfMatch b1 hp howed hlast, rfl⟩
  | overrun hp hcnt hfull => exact ⟨_, _, .overrun hp hcnt hfull, rfl⟩
  | idle | tooLong | literal | copy => exact absurd ht hs
  | header | full | control | nextGroup | matchFetch | close => cases ht

/-- A step of the machine into `FAULT` is a raise of the decoder, with no call of it refused and the encoder left alone:
no command leads there, since a call begins in `HDR` and reset is `IDLE`. -/
theorem step_raises {s t : State} (h : step s = .next t) (hs : s.dec.phase ≠ .fault) (ht : t.dec.phase = .fault) :
    ∃ k d, RaiseCase s.dec k d ∧ t.dec = d.raise k ∧ t.decRefused = none ∧ t.enc = s.enc := by
  rcases step_dec_cases h with hkeep | ⟨_, _, _, hstart⟩ | ⟨_, _, hreset⟩ | ⟨hr, hd⟩
  · exact absurd (hkeep ▸ ht) hs
  · cases hstart ▸ ht
  · cases hreset ▸ ht
  · obtain ⟨k, d, hraise, rfl⟩ := hd.raises (passTurn_dec s ▸ hs) ht
    exact ⟨k, d, passTurn_dec s ▸ hraise, rfl, (passTurn_decRefused s).trans hr, passTurn_enc s⟩

/-- The raise names a cause, and up to its moment only `ip`, `version` and `b1` may have moved (R264, R265). -/
theorem RaiseCase.frame {d d' : Dec} {k : Cause} (h : RaiseCase d k d') :
    k ≠ .noFault ∧ d' = { d with ip := d'.ip, version := d'.version, b1 := d'.b1 } := by
  cases h <;> exact ⟨nofun, rfl⟩

/-- The result of a call that took a fault (R264, R266). -/
theorem decResult_of_fault {s : State} (hr : s.decRefused = none) (hp : s.dec.phase = .fault) :
    s.decResult = some (.fault s.dec.cause) := by
  simp [State.decResult, hr, hp]

/-- Settles O26: the raise records the cursors of its moment and sets the phase and the cause, from which the status
and the result are read; the rest of the decoder is the frame of the raise. -/
theorem faultEntryRecordsTheCursors : Obligations.FaultEntryRecordsTheCursors := by
  intro s t h hs ht
  obtain ⟨k, d, hraise, hdec, hrefused, henc⟩ := step_raises h hs ht
  obtain ⟨hk, hframe⟩ := hraise.frame
  rw [decResult_of_fault hrefused ht, dec_status_state, dec_status_cause, henc, hdec, hframe]
  exact ⟨hk, rfl, rfl, rfl, rfl, rfl, rfl, rfl, rfl, rfl, rfl, rfl, rfl⟩

/-- Settles O27: each raise has its condition; a good state gives the cursors at the header, and that `ip` and `op`
are within their buffers. -/
theorem eachCauseHasItsCondition : Obligations.EachCauseHasItsCondition := by
  intro s t hok h hs ht
  obtain ⟨k, d, hraise, hdec, _, _⟩ := step_raises h hs ht
  rw [hdec]
  have hip := hok.ranges.ipInside
  have hop := hok.ranges.opInside
  cases hraise with
  | badVersion v hp hlen hv =>
    obtain ⟨hip0, hop0, _, _⟩ := hok.phases.headerUnread hp
    exact .inl ⟨rfl, hp, hlen, hv, hip0, hop0⟩
  | shortHeader hp hshort =>
    obtain ⟨hip0, hop0, _, _⟩ := hok.phases.headerUnread hp
    exact .inr (.inl ⟨rfl, hp, hshort, hip0, hop0⟩)
  | endOfInput hp howed hend =>
    exact .inr (.inr (.inl ⟨rfl, hp, lt_of_le_of_ne hop howed, le_antisymm hip hend, rfl⟩))
  | halfMatch b1 hp howed hlast => exact .inr (.inr (.inl ⟨rfl, .inr hp, lt_of_le_of_ne hop howed, hlast, rfl⟩))
  | overrun hp hcnt hfull => exact .inr (.inr (.inr ⟨rfl, hp, hcnt, hfull, rfl, hfull⟩))

/-! ### Leaving `FAULT` -/

/-- `FAULT` has no step of its own: every rule that does something needs another phase (R30, R267). -/
theorem DecCase.eq_of_fault {s t : State} (h : DecCase s (.next t)) (hfault : s.dec.phase = .fault) : t = s := by
  cases h with
  | idle => rfl
  | full hp | truncated hp => rcases hp with hp | hp <;> cases hfault.symm.trans hp
  | shortHeader hp | badVersion _ _ hp | tooLong _ hp | header _ hp | control _ hp | nextGroup hp | literal _ hp
  | halfMatch _ hp | matchFetch _ _ hp | close hp | overrun hp | copy hp => cases hfault.symm.trans hp

/-- Settles O28: of what a step can do to the decoder only the commands remain, its own step doing nothing. -/
theorem onlyTheHostLeavesFault : Obligations.OnlyTheHostLeavesFault := by
  intro s t hfault h
  rcases step_dec_cases h with hkeep | hstart | hreset | ⟨_, hd⟩
  · exact .inl hkeep
  · exact .inr (.inl hstart)
  · exact .inr (.inr hreset)
  · have ht : t = s.passTurn := hd.eq_of_fault (passTurn_dec s ▸ hfault)
    exact .inl (ht ▸ passTurn_dec s)

end Sys2Proof.Machine
end

section
/-! PROOFS. The per-call initialisations: what an accepted start sets (70_reset_and_hazards.md). -/

namespace Sys2Proof.Machine

open Sys2Proof

/-- The window of a started decoder is cleared whatever the call before left in it (R121, R291). -/
theorem winRead_start (frame : List Byte) (a : Nat) : (Dec.start frame).winRead a = 0#8 :=
  winRead_winReset Dec.reset a

/-- `DEC.STATUS` of a call under way: BUSY, and cause 0 (R47). -/
theorem dec_status_of_busy {d : Dec} (hcause : d.cause = .noFault) (hbusy : d.callState = .busy) : d.status = 1#4 := by
  rw [Dec.status, hcause, hbusy]
  rfl

/-- Settles O31: the step performs the start, which puts `Dec.start` in place of the decoder. Its registers are the
model's constants; its window, its status and its buffer have their own lemmas. -/
theorem decoderStartInitialisesTheCall : Obligations.DecoderStartInitialisesTheCall := by
  intro s frame cs hpending hbusy
  exact ⟨_, (step_command hpending).trans (performCommand_decStart frame hbusy), rfl, rfl, rfl,
    rfl, rfl, rfl, rfl, rfl, winRead_start frame, rfl, rfl, rfl, rfl, rfl, rfl,
    dec_status_of_busy rfl rfl, rfl, rfl, rfl, rfl, inByteAt_start frame⟩

/-- `N` of a started encoder is the length of the input, which a 32-bit register must hold (R292). -/
theorem start_inLen_toNat {src : List Byte} (hlen : src.length < 2 ^ 32) :
    (Enc.start src).inLen.toNat = src.length :=
  (BitVec.toNat_ofNat _ _).trans (Nat.mod_eq_of_lt hlen)

/-- A started encoder has covered nothing: `sp` is at the first byte of the input in `W` (R31, R292). -/
theorem start_wo (src : List Byte) : (Enc.start src).wo = 0 := Nat.sub_self windowSize

/-- `W` of a started encoder: the zero prefix, then the input (R44, R292). -/
theorem work_start {src : List Byte} (hlen : src.length < 2 ^ 32) (a : Nat) :
    (Enc.start src).work a = if a < windowSize then some 0#8 else src[a - windowSize]? := by
  rw [Enc.work, start_inLen_toNat hlen]
  exact workByte_start src a

/-- Settles O32: the step performs the start, which puts `Enc.start` in place of the encoder. `ENC_MAX_IN` is a 32-bit
number, so an accepted length fits `N`. -/
theorem encoderStartInitialisesTheCall : Obligations.EncoderStartInitialisesTheCall := by
  intro s src cs hpending hbusy haccepted
  have hlen : src.length < 2 ^ 32 := haccepted.trans_lt s.cfg.encMaxIn.isLt
  exact ⟨_, (step_command hpending).trans (performCommand_encStart hbusy haccepted), rfl, rfl, rfl,
    start_inLen_toNat hlen, rfl, start_wo src, rfl, rfl, rfl, rfl, rfl, rfl, rfl, rfl, rfl, rfl, work_start hlen⟩

end Sys2Proof.Machine
end
